-- ==== Sys2Proof/Word.lean ====
section
/-! DEFINITION. The word types: a byte (00_scope.md R7) and the 16-bit value of the CRC engine and of the payload
integers (10_state.md R16, 30_encoding.md R52). -/

namespace Sys2Proof

/-- A byte is 8 bits; bit 7 is its most significant bit (00_scope.md R7). -/
abbrev Byte := BitVec 8

/-- A 16-bit value `v[15:0]`, `v[15]` the most significant (00_scope.md R7). -/
abbrev Word16 := BitVec 16

end Sys2Proof
end

