-- ==== Sys2Proof/Machine/CrcFunction.lean ====
section
/-! DEFINITION. The CRC-CCITT function of 40_crc_validator.md R63 and R64 (the bit-level algorithm is the spec's general
knowledge item G1, log 19). -/

namespace Sys2Proof.Machine

/-- One shift of the register: shift left, dropping bit 15; when it was 1, exclusive-or with `0x1021` (R64). -/
def crcShift (c : Word16) : Word16 := if c.msb then (c <<< 1) ^^^ 0x1021 else c <<< 1

/-- `n` shifts. -/
def crcShifts : Nat → Word16 → Word16
  | 0, c => c
  | n + 1, c => crcShifts n (crcShift c)

/-- `crc_update(c, b)` (R64): exclusive-or the byte into the high half, then shift 8 times. -/
def crcUpdate (c : Word16) (b : Byte) : Word16 := crcShifts 8 (c ^^^ (b.setWidth 16 <<< 8))

/-- The register fed the bytes of `p` in order. -/
def crcFeed (c : Word16) (p : List Byte) : Word16 := p.foldl crcUpdate c

/-- The initial value of the register (R63, R65). -/
def crcInitial : Word16 := 0xFFFF

/-- `crc16(P)` (R63): initial value `0xFFFF`, no reflection, no final exclusive-or. -/
def crc16 (p : List Byte) : Word16 := crcFeed crcInitial p

/-- One step of the equivalent bit-serial form of R64, fed bit `i` of `b`. -/
def crcSerialBit (b : Byte) (c : Word16) (i : Nat) : Word16 :=
  if (c.msb ^^ b.getLsbD i) then (c <<< 1) ^^^ 0x1021 else c <<< 1

/-- The bit-serial form of R64: bits 7 down to 0. -/
def crcUpdateSerial (c : Word16) (b : Byte) : Word16 := [7, 6, 5, 4, 3, 2, 1, 0].foldl (crcSerialBit b) c

end Sys2Proof.Machine
end

