-- ==== Sys2Proof/Config.lean ====
section
/-! DEFINITION. What is fixed for one boot: the implementation parameters of 00_scope.md R6, and the fixed tables
of the source as names (commands, statuses, error causes). -/

namespace Sys2Proof

/-- The implementation parameters of 00_scope.md R6, each OPEN in the spec (92_eei_decisions.md D6 to D12, D17). They
are not state of the device (R9); no operation writes them (log 1). -/
structure Config where
  /-- `CMD_BUF_MAX`: header bytes the command buffer holds, terminator not counted (D6). -/
  cmdBufMax : Nat
  /-- `PAYLOAD_MAX`: payload bytes the payload buffer holds (D7). -/
  payloadMax : Nat
  /-- `MSG_MAX`: bytes a response message may hold (D8). -/
  msgMax : Nat
  /-- `DISPLAY_W`: panel width in pixels (D9). -/
  displayW : Nat
  /-- `DISPLAY_H`: panel height in pixels (D9). -/
  displayH : Nat
  /-- `BLANK_BYTE`: the blank byte value (D10). -/
  blankByte : Byte
  /-- `WATCHDOG_MS`: the watchdog threshold in milliseconds (D11). -/
  watchdogMs : Nat
  /-- `DISPLAY_PRESENT`: whether the display buffer was allocated at boot (D12). -/
  displayPresent : Bool
  /-- `CK_ACCEPT_LOWER`: whether `a` to `f` are hex digits to the receiver (D17). -/
  ckAcceptLower : Bool
  deriving DecidableEq, Repr

/-- `DISPLAY_CAPACITY`, the panel's packed-pixel byte count (00_scope.md R6, D9). -/
def Config.displayCapacity (c : Config) : Nat := c.displayW * c.displayH / 8

/-- The test set T0 of 92_eei_decisions.md D51, "not a claim about the robot": the parameters of `State.reset`
(DESIGN CHOICE, log 1). -/
def Config.t0 : Config where
  cmdBufMax := 16
  payloadMax := 32
  msgMax := 64
  displayW := 16
  displayH := 8
  blankByte := 0xFF
  watchdogMs := 2000
  displayPresent := true
  ckAcceptLower := false

/-- The eight command names of 30_encoding.md R54. -/
inductive CommandName where
  | mvel | mstop | dimg | dclear | dstatus | sreset | shalt | sping
  deriving DecidableEq, Repr

/-- The three status codes of 30_encoding.md R55. -/
inductive Status where
  | ok | err | pending
  deriving DecidableEq, Repr

/-- The per-frame errors E1 to E10 of 60_exceptions.md R131, each with the values its response reports. E11 and E12
of that table are not raised: a hang has no step (R137) and an allocation failure is a parameter of the run (R138). -/
inductive FrameError where
  /-- E1: a header line without any digit. -/
  | noDigit
  /-- E2: a non-digit after the first digit of a header. -/
  | trailing
  /-- E3: a header byte arriving with `hdr_len = CMD_BUF_MAX`. -/
  | headerOverflow
  /-- E4: a declared length above `PAYLOAD_MAX`. -/
  | payloadTooLong
  /-- E5: the byte after the payload is not `TERM`. -/
  | payloadTerminator
  /-- E6: the checksum field is not four hex digits and `TERM`. -/
  | checksumField
  /-- E7, ChecksumError: the computed and the received CRC. -/
  | checksum (computed received : Word16)
  /-- E8, UnknownCommandError: the name. -/
  | unknownCommand (name : List Byte)
  /-- E9, LengthError: the expected and the actual payload length. -/
  | length (expected actual : Nat)
  /-- E10, DisplayUnavailable. -/
  | displayUnavailable
  deriving DecidableEq, Repr

end Sys2Proof
end

