-- ==== Sys2Proof/Machine/Operands.lean ====
section
/-! DEFINITION. Operand forms and their byte spellings, as pure functions: the character classes and helper functions
of 00_scope.md R7 and R8, the name and status bytes of 30_encoding.md R54 and R55, the duty clamp of
43_motor_commands.md R89. -/

namespace Sys2Proof.Machine

/-- `TERM`, the line terminator, fixed at `0x0A` (00_scope.md R6, D5). -/
def term : Byte := 0x0A

/-! ### Character classes (00_scope.md R7) -/

/-- A digit is a byte in `0x30`..`0x39`. -/
def isDigit (b : Byte) : Bool := decide (0x30 ≤ b.toNat) && decide (b.toNat ≤ 0x39)

/-- An upper-case hex letter is a byte in `0x41`..`0x46`. -/
def isUpperHex (b : Byte) : Bool := decide (0x41 ≤ b.toNat) && decide (b.toNat ≤ 0x46)

/-- A lower-case hex letter is a byte in `0x61`..`0x66`. -/
def isLowerHex (b : Byte) : Bool := decide (0x61 ≤ b.toNat) && decide (b.toNat ≤ 0x66)

/-- A hex digit; lower case counts only under `CK_ACCEPT_LOWER` (D17). -/
def isHexDigit (acceptLower : Bool) (b : Byte) : Bool :=
  isDigit b || isUpperHex b || (acceptLower && isLowerHex b)

/-! ### Decimal and hexadecimal spellings (00_scope.md R8) -/

/-- `digitval(b) = b - 0x30`. -/
def digitVal (b : Byte) : Nat := b.toNat - 0x30

/-- `hexval(b)`: `b - 0x30` for a digit, `b - 0x37` for an upper-case, `b - 0x57` for a lower-case letter. -/
def hexVal (b : Byte) : Nat :=
  if isDigit b then b.toNat - 0x30 else if isUpperHex b then b.toNat - 0x37 else b.toNat - 0x57

/-- `decval(s)`: the natural number a string of digits spells in base 10, leading zeros allowed. -/
def decVal (s : List Byte) : Nat := s.foldl (fun n b => 10 * n + digitVal b) 0

/-- The ASCII digit of a number below 10. -/
def decDigit (n : Nat) : Byte := BitVec.ofNat 8 (0x30 + n)

/-- The digits of `n` put before `acc`; `fuel` bounds the number of digits. -/
def decDigits : Nat → Nat → List Byte → List Byte
  | 0, _, acc => acc
  | fuel + 1, n, acc =>
    if n < 10 then decDigit n :: acc else decDigits fuel (n / 10) (decDigit (n % 10) :: acc)

/-- `DEC(n)`: the minimal decimal ASCII spelling, `"0"` for 0, no leading zeros. -/
def dec (n : Nat) : List Byte := decDigits (n + 1) n []

/-- `SDEC(v)`: `DEC(v)` for `v >= 0`, a minus sign and `DEC(-v)` for `v < 0`. -/
def sdec (v : Int) : List Byte := if v < 0 then 0x2D :: dec v.natAbs else dec v.natAbs

/-- The character of one nibble, `0`-`9` then `A`-`F`. -/
def hexChar (n : Nat) : Byte := if n < 10 then BitVec.ofNat 8 (0x30 + n) else BitVec.ofNat 8 (0x37 + n)

/-- `HEX4(v)`: the characters of `v[15:12]`, `v[11:8]`, `v[7:4]`, `v[3:0]` in that order. -/
def hex4 (v : Word16) : List Byte :=
  [hexChar (v.toNat / 4096 % 16), hexChar (v.toNat / 256 % 16), hexChar (v.toNat / 16 % 16),
    hexChar (v.toNat % 16)]

/-! ### Payload integers (20_memory.md R36, 30_encoding.md R52) -/

/-- `LE16`: the bit pattern `s[i+1] ++ s[i]`, the byte at the lower offset less significant. -/
def le16 (s : List Byte) (i : Nat) : Word16 := s.getD (i + 1) 0 ++ s.getD i 0

/-- `LE(x)`: the two bytes of `x`, low byte first (30_encoding.md R62). -/
def leBytes (x : Word16) : List Byte := [x.setWidth 8, (x >>> 8).setWidth 8]

/-- `clampDuty(v) = clamp(v, -255, 255)`: it saturates (43_motor_commands.md R89). -/
def clampDuty (v : Int) : Int := if v < -255 then -255 else if 255 < v then 255 else v

/-! ### Names and statuses (30_encoding.md R54, R55) -/

/-- The `NAME` bytes of a command. -/
def nameBytes : CommandName → List Byte
  | .mvel => [0x4D, 0x56, 0x45, 0x4C]
  | .mstop => [0x4D, 0x53, 0x54, 0x4F, 0x50]
  | .dimg => [0x44, 0x49, 0x4D, 0x47]
  | .dclear => [0x44, 0x43, 0x4C, 0x45, 0x41, 0x52]
  | .dstatus => [0x44, 0x53, 0x54, 0x41, 0x54, 0x55, 0x53]
  | .sreset => [0x53, 0x52, 0x45, 0x53, 0x45, 0x54]
  | .shalt => [0x53, 0x48, 0x41, 0x4C, 0x54]
  | .sping => [0x53, 0x50, 0x49, 0x4E, 0x47]

/-- The fixed table of known command names (42_dispatcher.md R84); its order is irrelevant. -/
def commandTable : List CommandName := [.mvel, .mstop, .dimg, .dclear, .dstatus, .sreset, .shalt, .sping]

/-- Exact, case-sensitive match of a whole name against the table (42_dispatcher.md R84). -/
def lookupName (name : List Byte) : Option CommandName := commandTable.find? fun c => nameBytes c == name

/-- Expected payload length by name (42_dispatcher.md R86). -/
def expectedLength (cfg : Config) : CommandName → Nat
  | .mvel => 6
  | .dimg => cfg.displayCapacity
  | .mstop => 0
  | .dclear => 0
  | .dstatus => 0
  | .sreset => 0
  | .shalt => 0
  | .sping => 0

/-- The status bytes `OK`, `ERR`, `PENDING` (30_encoding.md R55). -/
def statusBytes : Status → List Byte
  | .ok => [0x4F, 0x4B]
  | .err => [0x45, 0x52, 0x52]
  | .pending => [0x50, 0x45, 0x4E, 0x44, 0x49, 0x4E, 0x47]

/-- Exact match of a response header's leading bytes against the three statuses. -/
def lookupStatus (name : List Byte) : Option Status :=
  [Status.ok, Status.err, Status.pending].find? fun st => statusBytes st == name

/-- `ENC_RSP(status, msg)` (30_encoding.md R59): no checksum field. -/
def encRsp (st : Status) (msg : List Byte) : List Byte :=
  statusBytes st ++ dec msg.length ++ [term] ++ msg ++ [term]

end Sys2Proof.Machine
end

