-- ==== Sys2Proof/Syntax.lean ====
section
/-! DEFINITION. The instructions, whole: one constructor per row of opcode_table.json. By 00_scope.md R5 an
instruction is one of the eight wire commands or one internal operation of the block; the three response statuses
of the table stand beside them. -/

namespace Sys2Proof

/-- One constructor per row of opcode_table.json, with the operands its rule gives it. -/
inductive Instr where
  /-- `MVEL(leftSpeed: int16, rightSpeed: int16, durationMs: uint16)` (43_motor_commands.md R90). -/
  | mvel (leftSpeed rightSpeed durationMs : Word16)
  /-- `MSTOP()` (43_motor_commands.md R94). -/
  | mstop
  /-- `DIMG(data)` (44_display_commands.md R101). -/
  | dimg (data : List Byte)
  /-- `DCLEAR()` (44_display_commands.md R102). -/
  | dclear
  /-- `DSTATUS()` (44_display_commands.md R103). -/
  | dstatus
  /-- `SRESET` (45_system_commands.md R114). -/
  | sreset
  /-- `SHALT` (45_system_commands.md R116). -/
  | shalt
  /-- `SPING` (45_system_commands.md R118). -/
  | sping
  /-- The response `OK` with its message (30_encoding.md R46, R55). -/
  | ok (msg : List Byte)
  /-- The response `ERR` with its message (30_encoding.md R46, R55). -/
  | err (msg : List Byte)
  /-- The reserved response `PENDING` (30_encoding.md R55, R57). -/
  | pending (msg : List Byte)
  /-- `RX_BYTE(b)` (41_frame_codec.md R69). -/
  | rxByte (b : Byte)
  /-- `CRC_INIT` (40_crc_validator.md R65). -/
  | crcInit
  /-- `CRC_UPDATE(b)` (40_crc_validator.md R66). -/
  | crcUpdate (b : Byte)
  /-- `CRC_CHECK` (40_crc_validator.md R67). -/
  | crcCheck
  /-- `DISPATCH(name, payload)` (42_dispatcher.md R83). -/
  | dispatch (name payload : List Byte)
  /-- `TX_RESPONSE(status, msg)` (41_frame_codec.md R81). -/
  | txResponse (status : Status) (msg : List Byte)
  /-- `STOP_ACTION` (43_motor_commands.md R92). -/
  | stopAction
  /-- `TICK_TIMEOUT` (43_motor_commands.md R96). -/
  | tickTimeout
  /-- `TICK_WATCHDOG` (45_system_commands.md R120). -/
  | tickWatchdog
  /-- `START_REFRESH` (44_display_commands.md R106). -/
  | startRefresh
  /-- `DISP_STEP` (44_display_commands.md R107). -/
  | dispStep
  /-- `DISP_RECEIVE(chunk)` (44_display_commands.md R111). -/
  | dispReceive (chunk : List Byte)
  /-- `CLEAR_BUFFER` (44_display_commands.md R113). -/
  | clearBuffer
  /-- `RESTART` (45_system_commands.md R115). -/
  | restart
  /-- `RESET` (70_reset_and_hazards.md R153). -/
  | reset
  deriving DecidableEq, Repr

end Sys2Proof
end

