-- ==== Sys2Proof/WellFormed.lean ====
section
/-! DEFINITION. Well-formedness: the constraints of 00_scope.md R6 on the parameters, and the operand ranges of each
instruction. -/

namespace Sys2Proof

open Sys2Proof.Machine

/-- The constraints the spec puts on the parameters (00_scope.md R6; `MSG_MAX` by D8, the display by D9). -/
def Config.wf (c : Config) : Bool :=
  decide (8 ≤ c.cmdBufMax) && decide (4 + (dec c.displayCapacity).length ≤ c.cmdBufMax) &&
  decide (6 ≤ c.payloadMax) &&
  decide (31 ≤ c.msgMax) && decide (c.cmdBufMax + 15 ≤ c.msgMax) &&
  decide (24 + 2 * (dec (max c.payloadMax c.displayCapacity)).length ≤ c.msgMax) &&
  decide (c.displayW * c.displayH % 8 = 0) && decide (8 ≤ c.displayW * c.displayH) &&
  decide (0 < c.watchdogMs)

/-- A command name as the codec can hold it: no digit, no `TERM`, at most `CMD_BUF_MAX - 1` bytes (10_state.md R14). -/
def nameWf (c : Config) (name : List Byte) : Bool :=
  name.all (fun b => !isDigit b && b != term) && decide (name.length + 1 ≤ c.cmdBufMax)

/-- The operand ranges: every 6-byte `PMVEL` is legal (30_encoding.md R52); `PIMG` holds `DISPLAY_CAPACITY` bytes (R53) and
fits the payload buffer (00_scope.md R6); messages hold at most `MSG_MAX` bytes and `PENDING` is never sent (R81, R55);
`DISPATCH` takes what the codec can hold (10_state.md R14, R15). -/
def Instr.wf (c : Config) : Instr → Bool
  | .mvel _ _ _ => true
  | .mstop => true
  | .dimg data => decide (data.length = c.displayCapacity) && decide (data.length ≤ c.payloadMax)
  | .dclear => true
  | .dstatus => true
  | .sreset => true
  | .shalt => true
  | .sping => true
  | .ok msg => decide (msg.length ≤ c.msgMax)
  | .err msg => decide (msg.length ≤ c.msgMax)
  | .pending _ => false
  | .rxByte _ => true
  | .crcInit => true
  | .crcUpdate _ => true
  | .crcCheck => true
  | .dispatch name payload => nameWf c name && decide (payload.length ≤ c.payloadMax)
  | .txResponse st msg => decide (st ≠ .pending) && decide (msg.length ≤ c.msgMax)
  | .stopAction => true
  | .tickTimeout => true
  | .tickWatchdog => true
  | .startRefresh => true
  | .dispStep => true
  | .dispReceive _ => true
  | .clearBuffer => true
  | .restart => true
  | .reset => true

/-- The instructions that have a wire encoding: the eight commands and the responses. The internal operations have
none (00_scope.md R5, opcode_table.json). -/
def Instr.onWire : Instr → Bool
  | .mvel _ _ _ => true
  | .mstop => true
  | .dimg _ => true
  | .dclear => true
  | .dstatus => true
  | .sreset => true
  | .shalt => true
  | .sping => true
  | .ok _ => true
  | .err _ => true
  | .pending _ => true
  | .rxByte _ => false
  | .crcInit => false
  | .crcUpdate _ => false
  | .crcCheck => false
  | .dispatch _ _ => false
  | .txResponse _ _ => false
  | .stopAction => false
  | .tickTimeout => false
  | .tickWatchdog => false
  | .startRefresh => false
  | .dispStep => false
  | .dispReceive _ => false
  | .clearBuffer => false
  | .restart => false
  | .reset => false

end Sys2Proof
end

