-- ==== Sys2Proof/Decode.lean ====
section
/-! DEFINITION. The decoder, total on any bytes and rejecting by name, and after it the encoder, both from the frame
formats of 30_encoding.md R45 to R60. The codec's own splitting of a header (41_frame_codec.md R71) and the dispatcher's
lookup (42_dispatcher.md R83 to R86) are the definitions the machine uses too. -/

namespace Sys2Proof

open Sys2Proof.Machine

/-- Why bytes are no frame: they end before the frame does, or the frame has one of the errors of 60_exceptions.md R131. -/
inductive DecodeError where
  /-- The bytes end before the frame is complete; the device would wait for more (70_reset_and_hazards.md R158). -/
  | incomplete
  /-- The first error of the frame in stream order (60_exceptions.md R142). -/
  | malformed (e : FrameError)
  deriving DecidableEq, Repr

/-! ### Header and dispatcher lookup -/

/-- Split of a complete header line (41_frame_codec.md R71): the bytes before the first digit, and the value of the
rest, which must be digits; bounded by `PAYLOAD_MAX`. -/
def splitHeader (payloadMax : Nat) (h : List Byte) : Except FrameError (List Byte × Nat) :=
  let name := h.takeWhile fun b => !isDigit b
  let digits := h.dropWhile fun b => !isDigit b
  if digits.isEmpty then .error .noDigit
  else if !digits.all isDigit then .error .trailing
  else if payloadMax < decVal digits then .error .payloadTooLong
  else .ok (name, decVal digits)

/-- The instruction a command name and its payload stand for (30_encoding.md R51 to R54). -/
def commandInstr (c : CommandName) (payload : List Byte) : Instr :=
  match c with
  | .mvel => .mvel (le16 payload 0) (le16 payload 2) (le16 payload 4)
  | .mstop => .mstop
  | .dimg => .dimg payload
  | .dclear => .dclear
  | .dstatus => .dstatus
  | .sreset => .sreset
  | .shalt => .shalt
  | .sping => .sping

/-- The dispatcher's checks in their order: the name, then the exact payload length (42_dispatcher.md R83, R87). -/
def decodeCommand (cfg : Config) (name payload : List Byte) : Except FrameError Instr :=
  match lookupName name with
  | none => .error (.unknownCommand name)
  | some c =>
    if payload.length = expectedLength cfg c then .ok (commandInstr c payload)
    else .error (.length (expectedLength cfg c) payload.length)

/-! ### Frames -/

/-- The bytes up to the first `TERM`, and the bytes after it. -/
def takeLine : List Byte → Option (List Byte × List Byte)
  | [] => none
  | b :: r => if b = term then some ([], r) else (takeLine r).map fun p => (b :: p.1, p.2)

/-- The checksum field: four hex digits, most significant nibble first, then `TERM` (30_encoding.md R50,
41_frame_codec.md R76 to R78). -/
def takeChecksum (lower : Bool) : Word16 → Nat → List Byte → Except DecodeError (Word16 × List Byte)
  | _, _, [] => .error .incomplete
  | acc, cnt, b :: r =>
    if isHexDigit lower b && decide (cnt < 4) then
      takeChecksum lower ((acc <<< 4) ||| BitVec.ofNat 16 (hexVal b)) (cnt + 1) r
    else if b = term ∧ cnt = 4 then .ok (acc, r)
    else .error (.malformed .checksumField)

/-- What follows a header line `(name, n)` of a command frame: payload, `TERM`, checksum field, then the dispatcher's checks. -/
def decodeBody (cfg : Config) (name : List Byte) (n : Nat) (bs : List Byte) :
    Except DecodeError (Instr × List Byte) :=
  match bs.drop n with
  | [] => .error .incomplete
  | t :: r =>
    if t ≠ term then .error (.malformed .payloadTerminator)
    else
      match takeChecksum cfg.ckAcceptLower 0 0 r with
      | .error e => .error e
      | .ok (ck, rest) =>
        if crc16 (bs.take n) ≠ ck then .error (.malformed (.checksum (crc16 (bs.take n)) ck))
        else
          match decodeCommand cfg name (bs.take n) with
          | .error e => .error (.malformed e)
          | .ok i => .ok (i, rest)

/-- A command frame (30_encoding.md R45) at the head of the bytes, errors in stream order (60_exceptions.md R142). -/
def decodeCommandFrame (cfg : Config) (bs : List Byte) : Except DecodeError (Instr × List Byte) :=
  match takeLine bs with
  | none => if cfg.cmdBufMax < bs.length then .error (.malformed .headerOverflow) else .error .incomplete
  | some (h, r) =>
    if cfg.cmdBufMax < h.length then .error (.malformed .headerOverflow)
    else
      match splitHeader cfg.payloadMax h with
      | .error e => .error (.malformed e)
      | .ok (name, n) => decodeBody cfg name n r

/-- The instruction a response status and message stand for. -/
def responseInstr (st : Status) (msg : List Byte) : Instr :=
  match st with
  | .ok => .ok msg
  | .err => .err msg
  | .pending => .pending msg

/-- A response frame (30_encoding.md R46), whose header the host splits exactly as the device splits a command header
(R55). The message is bounded by `MSG_MAX` (log 30). -/
def decodeResponseFrame (cfg : Config) (bs : List Byte) : Option (Instr × List Byte) :=
  match takeLine bs with
  | none => none
  | some (h, r) =>
    match splitHeader cfg.msgMax h with
    | .error _ => none
    | .ok (name, n) =>
      match lookupStatus name, r.drop n with
      | some st, t :: rest => if t = term then some (responseInstr st (r.take n), rest) else none
      | _, _ => none

/-- The decoder: the frame at the head of the bytes, response or command, with the bytes after it. -/
def decode (cfg : Config) (bs : List Byte) : Except DecodeError (Instr × List Byte) :=
  match decodeResponseFrame cfg bs with
  | some r => .ok r
  | none => decodeCommandFrame cfg bs

/-! ### The encoder -/

/-- `ENC_CMD(name, payload)` (30_encoding.md R60). -/
def encCmd (name payload : List Byte) : List Byte :=
  name ++ dec payload.length ++ [term] ++ payload ++ [term] ++ hex4 (crc16 payload) ++ [term]

/-- The `PMVEL` payload (30_encoding.md R52, R62). -/
def mvelPayload (l r d : Word16) : List Byte := leBytes l ++ leBytes r ++ leBytes d

/-- The frame of an instruction; no bytes for an internal operation, which has no wire encoding. -/
def encode : Instr → List Byte
  | .mvel l r d => encCmd (nameBytes .mvel) (mvelPayload l r d)
  | .mstop => encCmd (nameBytes .mstop) []
  | .dimg data => encCmd (nameBytes .dimg) data
  | .dclear => encCmd (nameBytes .dclear) []
  | .dstatus => encCmd (nameBytes .dstatus) []
  | .sreset => encCmd (nameBytes .sreset) []
  | .shalt => encCmd (nameBytes .shalt) []
  | .sping => encCmd (nameBytes .sping) []
  | .ok msg => encRsp .ok msg
  | .err msg => encRsp .err msg
  | .pending msg => encRsp .pending msg
  | .rxByte _ => []
  | .crcInit => []
  | .crcUpdate _ => []
  | .crcCheck => []
  | .dispatch _ _ => []
  | .txResponse _ _ => []
  | .stopAction => []
  | .tickTimeout => []
  | .tickWatchdog => []
  | .startRefresh => []
  | .dispStep => []
  | .dispReceive _ => []
  | .clearBuffer => []
  | .restart => []
  | .reset => []

/-! ### The table's words (log 17) -/

/-- The first `n` bytes of a word, the first byte in bits 7..0. -/
def wordBytes : Nat → Nat → List Byte
  | 0, _ => []
  | n + 1, w => BitVec.ofNat 8 w :: wordBytes n (w / 256)

/-- The command or status name a table word holds: its first byte in bits 7..0, or, as 98_reader.md reads the table's
`match` strings, in the most significant bits. -/
def tableName (nbits w : Nat) : List Byte :=
  let bs := wordBytes (nbits / 8) w
  if (lookupName bs).isSome || (lookupStatus bs).isSome then bs
  else if (lookupName bs.reverse).isSome || (lookupStatus bs.reverse).isSome then bs.reverse
  else bs

/-- The whole frame of a table word: the table gives the bits of `NAME` or `STATUS` only, so the operands (the payload
at its expected length, the message) are taken as zeros or empty, and `LEN`, the terminators and `CK` as they then
are. Bytes that are no name stand as they are. -/
def tableFrame (cfg : Config) (nbits w : Nat) : List Byte :=
  let name := tableName nbits w
  match lookupName name, lookupStatus name with
  | some c, _ => encCmd name (List.replicate (expectedLength cfg c) 0)
  | none, some st => encRsp st []
  | none, none => name

/-- The instruction the decoder reads from a row's word (the parameters are T0's); none where it refuses. -/
def decodeTableWord (nbits w : Nat) : Option Instr :=
  match decode Config.t0 (tableFrame Config.t0 nbits w) with
  | .ok (i, _) => some i
  | .error _ => none

end Sys2Proof
end

