-- ==== Sys2Proof/Machine/State.lean ====
section
/-! DEFINITION. The architectural state of 10_state.md, by owner block (R11), the reasons a step can stop, and the
state right after reset (R29). -/

namespace Sys2Proof.Machine

/-- A byte buffer: its bytes by index, indexes strictly rising, no entry equal to what an unlisted index reads as. -/
abbrev Mem := List Host.Cell

/-- The three byte buffers of 20_memory.md R30. -/
inductive Space where
  | hdr | pay | disp
  deriving DecidableEq, Repr

/-- `phase`, the parser phase register (10_state.md R12). -/
inductive Phase where
  | hdr | pay | payterm | ck
  deriving DecidableEq, Repr

/-- `mode`, the device mode (10_state.md R22). -/
inductive Mode where
  | run | halted
  deriving DecidableEq, Repr

/-- `disp_state`, the display sequence register (10_state.md R23, 44_display_commands.md R100). -/
inductive DispState where
  | idle | reset | waitBusy | write | refresh | waitDone | sleep
  deriving DecidableEq, Repr

/-- `loop_phase` (10_state.md R25). -/
inductive LoopPhase where
  | drain | timeout | watchdog
  deriving DecidableEq, Repr

/-- The actions of `panel_stream` (10_state.md R24, 44_display_commands.md R107, D38). -/
inductive PanelAction where
  | reset | init | data (bytes : List Byte) | refresh | sleep
  deriving DecidableEq, Repr

/-- One entry of the script that says who moves next: the device agent, or an environment agent of 46_polling_loop.md
R128 (the model's own, log 2). -/
inductive EnvStep where
  /-- The device agent takes its step. -/
  | device
  /-- The host's bytes, as the link delivers them, enter `rx_queue`. -/
  | host (bytes : List Byte)
  /-- The clock raises `now` by some milliseconds. -/
  | clock (ms : Nat)
  /-- The panel sets `panel_busy`. -/
  | panel (busy : Bool)
  /-- The portal calls `DISP_RECEIVE(chunk)` on `chunk_port`. -/
  | chunk (bytes : List Byte)
  /-- The reset source raises `EXT_RESET`. -/
  | extReset
  deriving DecidableEq, Repr

/-- The drive of one motor: `pwm[7:0]`, `fwd`, `rev` (10_state.md R24, R26). -/
structure Pins where
  pwm : BitVec 8
  fwd : Bool
  rev : Bool
  deriving DecidableEq, Repr

/-- The Frame Codec's registers (10_state.md R12 to R17). -/
structure Codec where
  phase : Phase
  /-- `hdr_buf` -/
  hdrBuf : Mem
  /-- `hdr_len` -/
  hdrLen : Nat
  /-- `cmd_name` -/
  cmdName : List Byte
  /-- `exp_len` -/
  expLen : Nat
  /-- `pay_buf` -/
  payBuf : Mem
  /-- `pay_cnt` -/
  payCnt : Nat
  /-- `crc_reg[15:0]` -/
  crcReg : Word16
  /-- `ck_acc[15:0]` -/
  ckAcc : Word16
  /-- `ck_cnt` -/
  ckCnt : Nat
  deriving DecidableEq, Repr

/-- The Motor Controller's registers (10_state.md R18 to R20). -/
structure Motor where
  leftDuty : Int
  rightDuty : Int
  running : Bool
  /-- `deadline_valid` -/
  deadlineValid : Bool
  stopDeadlineMs : Nat
  deriving DecidableEq, Repr

/-- The System Supervisor's registers (10_state.md R21, R22). -/
structure Supervisor where
  lastFrameMs : Nat
  mode : Mode
  deriving DecidableEq, Repr

/-- The Display Controller's registers (10_state.md R23). -/
structure Display where
  /-- `disp_buf` -/
  buf : Mem
  cursor : Nat
  ready : Bool
  /-- `disp_state` -/
  seq : DispState
  deriving DecidableEq, Repr

/-- The ports of 10_state.md R24 that carry data: input queue and levels, output histories (R27), and the numbers of
events raised on the three event outputs (log 8). The motor outputs are computed from the duties (R26). -/
structure Ports where
  /-- `rx_queue`, oldest byte first. -/
  rxQueue : List Byte
  /-- `tx_stream` -/
  txStream : List Byte
  /-- `now`, in milliseconds. -/
  now : Nat
  /-- `panel_busy` -/
  panelBusy : Bool
  /-- `panel_stream` -/
  panelStream : List PanelAction
  /-- events of `restart_req` -/
  restartReq : Nat
  /-- events of `sleep_req` -/
  sleepReq : Nat
  /-- events of `boot_diag` -/
  bootDiag : Nat
  deriving DecidableEq, Repr

/-- The whole machine: the owner blocks of 10_state.md R11, the loop sequencer's register (R25), the ports, and the model's
own two fields: the parameters of the boot (log 1) and the script of who moves next (log 2). -/
structure State where
  codec : Codec
  motor : Motor
  sup : Supervisor
  disp : Display
  /-- `loop_phase` -/
  loopPhase : LoopPhase
  io : Ports
  cfg : Config
  env : List EnvStep
  deriving DecidableEq, Repr

/-- Why the machine stops with a fault. -/
inductive Fault where
  /-- Raised by a buffer access whose index range leaves the buffer's capacity (00_scope.md R8: every rule establishes the
  range first). Safe: no state a run reaches makes such an access (log 12). -/
  | bufferBounds (space : Space)
  deriving DecidableEq, Repr

/-- Why an instruction is refused. -/
inductive Refusal where
  /-- Raised by an arm of `exec` that has no meaning yet. Safe: the run stops. -/
  | notModelled (mnemonic : String)
  /-- Raised by `PENDING` and by `TX_RESPONSE` with that status: reserved, "the device never emits it" (30_encoding.md R55,
  93_implementation_defined.md U4). Safe: the run stops (log 10). -/
  | pendingReserved
  /-- Raised by `OK`, `ERR` and `TX_RESPONSE` given a message above `MSG_MAX`, for which no effect is stated (41_frame_codec.md
  R81, D8). Safe: no handler makes such a message under the parameter constraints (log 11). -/
  | messageTooLong
  deriving DecidableEq, Repr

/-- The three outcomes of a step of this machine. -/
abbrev Result := Host.Outcome State Fault Refusal

/-- The state after reset (10_state.md R29, 70_reset_and_hazards.md R153), under the parameters T0 of D51 (log 1), with `now`
and `panel_busy` 0 (log 6), the unspecified contents of `hdr_buf`, `pay_buf` and `stopDeadlineMs` 0 (logs 4, 5), the
histories empty, and nothing scheduled. -/
def State.reset : State where
  codec :=
    { phase := .hdr, hdrBuf := [], hdrLen := 0, cmdName := [], expLen := 0, payBuf := [], payCnt := 0,
      crcReg := 0xFFFF, ckAcc := 0, ckCnt := 0 }
  motor := { leftDuty := 0, rightDuty := 0, running := false, deadlineValid := false, stopDeadlineMs := 0 }
  sup := { lastFrameMs := 0, mode := .run }
  disp := { buf := [], cursor := 0, ready := false, seq := .idle }
  loopPhase := .drain
  io :=
    { rxQueue := [], txStream := [], now := 0, panelBusy := false, panelStream := [], restartReq := 0,
      sleepReq := 0, bootDiag := 0 }
  cfg := Config.t0
  env := []

end Sys2Proof.Machine
end

