-- ==== Sys2Proof/Machine/Flags.lean ====
section
/-! DEFINITION. The flag computations and the outputs that are functions of registers. -/

namespace Sys2Proof.Machine

/-- `running = (leftSpeed != 0 or rightSpeed != 0)` (43_motor_commands.md R90, 10_state.md R19). -/
def runningFlag (leftSpeed rightSpeed : Int) : Bool := decide (leftSpeed ≠ 0) || decide (rightSpeed ≠ 0)

/-- `deadline_valid` after an `MVEL`: set exactly when the duration is not 0 (43_motor_commands.md R90). -/
def deadlineFlag (durationMs : Nat) : Bool := decide (0 < durationMs)

/-- `ready` after a fill that ends at `cursor`: set when the cursor reaches capacity, otherwise kept
(44_display_commands.md R111). -/
def readyFlag (capacity cursor : Nat) (old : Bool) : Bool := if cursor = capacity then true else old

/-- The condition of `TICK_TIMEOUT` (43_motor_commands.md R96): `>=`. -/
def timeoutDue (m : Motor) (now : Nat) : Bool := m.running && m.deadlineValid && decide (m.stopDeadlineMs ≤ now)

/-- The condition of `TICK_WATCHDOG` (45_system_commands.md R120): strict `>`. -/
def watchdogDue (cfg : Config) (m : Motor) (lastFrameMs now : Nat) : Bool :=
  m.running && decide (cfg.watchdogMs < now - lastFrameMs)

/-- The result of `CRC_CHECK` (40_crc_validator.md R67): match when `crc_reg = ck_acc`. -/
def crcMatch (c : Codec) : Bool := c.crcReg == c.ckAcc

/-- The drive of one side from its duty (10_state.md R26): magnitude on `pwm`, sign on the pin pair (D32, log 25). -/
def pinsOf (duty : Int) : Pins where
  pwm := BitVec.ofNat 8 duty.natAbs
  fwd := decide (0 < duty)
  rev := decide (duty < 0)

/-- `left_pwm[7:0]`, `left_fwd`, `left_rev` (10_state.md R26). -/
def State.leftPins (s : State) : Pins := pinsOf s.motor.leftDuty

/-- `right_pwm[7:0]`, `right_fwd`, `right_rev` (10_state.md R26). -/
def State.rightPins (s : State) : Pins := pinsOf s.motor.rightDuty

end Sys2Proof.Machine
end

