-- ==== Sys2Proof/Machine/Messages.lean ====
section
/-! DEFINITION. The response messages M1 to M12 of 30_encoding.md R58. The texts are the spec's own choice (D26, log 9);
each definition's docstring gives its text. -/

namespace Sys2Proof.Machine

/-- M1: `"CRC expected " HEX4(crc_reg) " received " HEX4(ck_acc)`; expected is the computed CRC (D27). -/
def msgChecksum (computed received : Word16) : List Byte :=
  [0x43, 0x52, 0x43, 0x20, 0x65, 0x78, 0x70, 0x65, 0x63, 0x74, 0x65, 0x64, 0x20] ++ hex4 computed ++
    [0x20, 0x72, 0x65, 0x63, 0x65, 0x69, 0x76, 0x65, 0x64, 0x20] ++ hex4 received

/-- M2: `"unknown command " cmd_name`. -/
def msgUnknown (name : List Byte) : List Byte :=
  [0x75, 0x6E, 0x6B, 0x6E, 0x6F, 0x77, 0x6E, 0x20, 0x63, 0x6F, 0x6D, 0x6D, 0x61, 0x6E, 0x64, 0x20] ++ name

/-- M3: `"length expected " DEC(E) " actual " DEC(A)`. -/
def msgLength (expected actual : Nat) : List Byte :=
  [0x6C, 0x65, 0x6E, 0x67, 0x74, 0x68, 0x20, 0x65, 0x78, 0x70, 0x65, 0x63, 0x74, 0x65, 0x64, 0x20] ++ dec expected ++
    [0x20, 0x61, 0x63, 0x74, 0x75, 0x61, 0x6C, 0x20] ++ dec actual

/-- M4: `"L=" SDEC(leftDuty) " R=" SDEC(rightDuty) " T=" DEC(durationMs)`, the applied (clamped) duties. -/
def msgMvel (leftDuty rightDuty : Int) (durationMs : Nat) : List Byte :=
  [0x4C, 0x3D] ++ sdec leftDuty ++ [0x20, 0x52, 0x3D] ++ sdec rightDuty ++ [0x20, 0x54, 0x3D] ++ dec durationMs

/-- M8: `"fill=" DEC(cursor) " ready="` and `"1"` or `"0"`. -/
def msgStatus (cursor : Nat) (ready : Bool) : List Byte :=
  [0x66, 0x69, 0x6C, 0x6C, 0x3D] ++ dec cursor ++ [0x20, 0x72, 0x65, 0x61, 0x64, 0x79, 0x3D] ++
    [if ready then 0x31 else 0x30]

/-- M11: `"PONG"`. -/
def msgPong : List Byte := [0x50, 0x4F, 0x4E, 0x47]

/-- M12: `"display unavailable"`. -/
def msgUnavailable : List Byte :=
  [0x64, 0x69, 0x73, 0x70, 0x6C, 0x61, 0x79, 0x20, 0x75, 0x6E, 0x61, 0x76, 0x61, 0x69, 0x6C, 0x61, 0x62, 0x6C, 0x65]

/-- M5, M6, M7, M9, M10: the empty message of an accepted `MSTOP`, `DIMG`, `DCLEAR`, `SRESET` or `SHALT`. -/
def msgEmpty : List Byte := []

/-- The `ERR` message an error sends, if it sends any: the response column of 60_exceptions.md R131. E1 to E6 are
silent (R132). -/
def errorMessage : FrameError → Option (List Byte)
  | .noDigit => none
  | .trailing => none
  | .headerOverflow => none
  | .payloadTooLong => none
  | .payloadTerminator => none
  | .checksumField => none
  | .checksum computed received => some (msgChecksum computed received)
  | .unknownCommand name => some (msgUnknown name)
  | .length expected actual => some (msgLength expected actual)
  | .displayUnavailable => some msgUnavailable

end Sys2Proof.Machine
end

