-- ==== Sys2Proof/Machine/Ops.lean ====
section
/-! DEFINITION. The operations the meanings share: the byte buffers, the streams, raising an error and returning from
it, the stop action, the buffer clear, reset and restart. -/

namespace Sys2Proof.Machine

/-! ### Byte buffers as canonical lists; `d` is what an unlisted index reads as -/

/-- The byte at an index. -/
def memRead (d : Byte) : Mem → Nat → Byte
  | [], _ => d
  | (k, v) :: t, a => if k = a then v else memRead d t a

/-- Store a byte, keeping the canonical form. -/
def memWrite (d : Byte) : Mem → Nat → Byte → Mem
  | [], a, b => if b = d then [] else [(a, b)]
  | (k, v) :: t, a, b =>
    if a < k then (if b = d then (k, v) :: t else (a, b) :: (k, v) :: t)
    else if a = k then (if b = d then t else (a, b) :: t)
    else (k, v) :: memWrite d t a b

/-- The `n` bytes from an index on. -/
def memReadN (d : Byte) (m : Mem) : Nat → Nat → List Byte
  | _, 0 => []
  | a, n + 1 => memRead d m a :: memReadN d m (a + 1) n

/-- Store the bytes of a string from an index on. -/
def memWriteN (d : Byte) : Mem → Nat → List Byte → Mem
  | m, _, [] => m
  | m, a, b :: bs => memWriteN d (memWrite d m a b) (a + 1) bs

/-- The canonical form: indexes strictly rising, no entry equal to what an unlisted index reads as. -/
abbrev Mem.wf (d : Byte) (m : Mem) : Prop :=
  m.Pairwise (fun x y => x.1 < y.1) ∧ ∀ c ∈ m, c.2 ≠ d

/-- Every listed index lies below a bound. -/
abbrev Mem.below (n : Nat) (m : Mem) : Prop := ∀ c ∈ m, c.1 < n

/-! ### The three spaces of 20_memory.md R30 -/

/-- What an unlisted byte reads as: `BLANK_BYTE` in the display buffer (10_state.md R29); 0 in the header and payload
buffers, whose reset contents are unspecified and never read (DESIGN CHOICE, log 4). -/
def unlisted (cfg : Config) : Space → Byte
  | .hdr => 0
  | .pay => 0
  | .disp => cfg.blankByte

/-- How many bytes a space has (10_state.md R13, R15, R23); the display buffer does not exist without
`DISPLAY_PRESENT` (44_display_commands.md R104). -/
def capacity (cfg : Config) : Space → Nat
  | .hdr => cfg.cmdBufMax
  | .pay => cfg.payloadMax
  | .disp => if cfg.displayPresent then cfg.displayCapacity else 0

/-- The contents of a space. -/
def State.mem (s : State) : Space → Mem
  | .hdr => s.codec.hdrBuf
  | .pay => s.codec.payBuf
  | .disp => s.disp.buf

/-- Replace the contents of a space. -/
def State.setMem (s : State) (sp : Space) (m : Mem) : State :=
  match sp with
  | .hdr => { s with codec.hdrBuf := m }
  | .pay => { s with codec.payBuf := m }
  | .disp => { s with disp.buf := m }

/-- The byte of a space at an index. -/
def State.readByte (s : State) (sp : Space) (a : Nat) : Byte := memRead (unlisted s.cfg sp) (s.mem sp) a

/-- `MemRead(buf, i, n)` (00_scope.md R8); none when `i + n` exceeds the capacity. -/
def bufRead (sp : Space) (i n : Nat) (s : State) : Option (List Byte) :=
  if i + n ≤ capacity s.cfg sp then some (memReadN (unlisted s.cfg sp) (s.mem sp) i n) else none

/-- `MemWrite(buf, i, n, v)` (00_scope.md R8); none when `i + n` exceeds the capacity. -/
def bufWrite (sp : Space) (i : Nat) (v : List Byte) (s : State) : Option State :=
  if i + v.length ≤ capacity s.cfg sp then
    some (s.setMem sp (memWriteN (unlisted s.cfg sp) (s.mem sp) i v))
  else none

/-- Go on with the bytes a range read gives, or fault where the range leaves the buffer (log 12). -/
def readThen (sp : Space) (i n : Nat) (s : State) (k : List Byte → Result) : Result :=
  match bufRead sp i n s with
  | some v => k v
  | none => .fault (.bufferBounds sp)

/-- Go on with the state after a range write, or fault where the range leaves the buffer (log 12). -/
def writeThen (sp : Space) (i : Nat) (v : List Byte) (s : State) (k : State → Result) : Result :=
  match bufWrite sp i v s with
  | some s' => k s'
  | none => .fault (.bufferBounds sp)

/-! ### Streams -/

/-- `TxPut(s)` (00_scope.md R8). -/
def txPut (bs : List Byte) (s : State) : State := { s with io.txStream := s.io.txStream ++ bs }

/-- The effect of `TX_RESPONSE(status, msg)` (41_frame_codec.md R81): the whole response, contiguously. -/
def respond (st : Status) (msg : List Byte) (s : State) : State := txPut (encRsp st msg) s

/-- `PanelPut` of some actions in order (00_scope.md R8). -/
def panelPut (as : List PanelAction) (s : State) : State := { s with io.panelStream := s.io.panelStream ++ as }

/-! ### Errors: entry and return (60_exceptions.md R143, R144) -/

/-- The return to header phase with an empty header buffer (60_exceptions.md R144, 41_frame_codec.md R82). -/
def toHeader (s : State) : State := { s with codec.phase := .hdr, codec.hdrLen := 0 }

/-- `raise <Error>` (60_exceptions.md R143): the error's response, if it has one; the return to header phase; nothing
else. It saves nothing and masks nothing. -/
def raiseError (e : FrameError) (s : State) : State :=
  match errorMessage e with
  | some msg => respond .err msg (toHeader s)
  | none => toHeader s

/-! ### Operations several meanings share -/

/-- The stop action (43_motor_commands.md R92). -/
def stopMotors (s : State) : State :=
  { s with
    motor.leftDuty := 0, motor.rightDuty := 0, motor.running := false, motor.deadlineValid := false }

/-- The buffer clear (44_display_commands.md R113): every byte `BLANK_BYTE` (in canonical form, nothing listed), cursor 0,
ready false; skipped when there is no buffer. -/
def clearDisplay (s : State) : State :=
  if s.cfg.displayPresent then { s with disp.buf := [], disp.cursor := 0, disp.ready := false } else s

/-- `START_REFRESH` (44_display_commands.md R106). -/
def beginRefresh (s : State) : State := { s with disp.seq := .reset }

/-- The watchdog stamp (45_system_commands.md R119). -/
def stampFrame (s : State) : State := { s with sup.lastFrameMs := s.io.now }

/-- Reset (70_reset_and_hazards.md R153): every register at its value of 10_state.md R29, `lastFrameMs` at `now`,
`rx_queue` empty; the inputs, the histories and the parameters stay (log 7); one `boot_diag` event when the display
buffer is absent (R155). -/
def resetState (s : State) : State :=
  { s with
    codec := State.reset.codec
    motor := State.reset.motor
    sup := { lastFrameMs := s.io.now, mode := .run }
    disp := State.reset.disp
    loopPhase := .drain
    io.rxQueue := []
    io.bootDiag := if s.cfg.displayPresent then s.io.bootDiag else s.io.bootDiag + 1 }

/-- Restart (45_system_commands.md R115): one `restart_req` event, then reset. -/
def restartState (s : State) : State := resetState { s with io.restartReq := s.io.restartReq + 1 }

/-- `TX_RESPONSE` as an operation of its own: `PENDING` is never sent and a message holds at most `MSG_MAX` bytes
(41_frame_codec.md R81; logs 10, 11). -/
def sendResponse (st : Status) (msg : List Byte) (s : State) : Result :=
  if st = .pending then .refused .pendingReserved
  else if s.cfg.msgMax < msg.length then .refused .messageTooLong
  else .next (respond st msg s)

end Sys2Proof.Machine
end

