-- ==== Sys2Proof/Machine/Crc.lean ====
section
/-! DEFINITION. The CRC engine's operations (40_crc_validator.md R65 to R67): `CRC_INIT`, `CRC_UPDATE`, `CRC_CHECK`. -/

namespace Sys2Proof.Machine

/-- The register at its initial value (40_crc_validator.md R65). -/
def crcStart (s : State) : State := { s with codec.crcReg := crcInitial }

/-- The register fed one payload byte (40_crc_validator.md R66). -/
def crcStep (b : Byte) (s : State) : State := { s with codec.crcReg := crcUpdate s.codec.crcReg b }

/-- `CRC_INIT` (40_crc_validator.md R65). -/
def execCrcInit (s : State) : Result := .next (crcStart s)

/-- `CRC_UPDATE(b)` (40_crc_validator.md R66). -/
def execCrcUpdate (b : Byte) (s : State) : Result := .next (crcStep b s)

/-- `CRC_CHECK` (40_crc_validator.md R67): "The check writes no state". Its result is `crcMatch`, which the codec acts on in
the same step (41_frame_codec.md R77, log 14). -/
def execCrcCheck (s : State) : Result := .next s

end Sys2Proof.Machine
end

