-- ==== Sys2Proof/Machine/Motor.lean ====
section
/-! DEFINITION. The Motor Controller (43_motor_commands.md): `MVEL`, `MSTOP`, `STOP_ACTION`, `TICK_TIMEOUT`. -/

namespace Sys2Proof.Machine

/-- The setpoint registers after an `MVEL` (43_motor_commands.md R90). With a duration of 0 the deadline is cleared and its
time, then meaningless, keeps its old value. -/
def setVelocity (l r d : Word16) (s : State) : State :=
  { s with
    motor.leftDuty := clampDuty l.toInt
    motor.rightDuty := clampDuty r.toInt
    motor.running := runningFlag l.toInt r.toInt
    motor.deadlineValid := deadlineFlag d.toNat
    motor.stopDeadlineMs := if 0 < d.toNat then s.io.now + d.toNat else s.motor.stopDeadlineMs }

/-- `MVEL` (43_motor_commands.md R90), with its response (message M4). -/
def execMvel (l r d : Word16) (s : State) : Result :=
  .next (respond .ok (msgMvel (clampDuty l.toInt) (clampDuty r.toInt) d.toNat) (setVelocity l r d s))

/-- `MSTOP` (43_motor_commands.md R94). -/
def execMstop (s : State) : Result := .next (respond .ok msgEmpty (stopMotors s))

/-- `STOP_ACTION` (43_motor_commands.md R92): it sends no response itself. -/
def execStopAction (s : State) : Result := .next (stopMotors s)

/-- `TICK_TIMEOUT` (43_motor_commands.md R96): it sends no response. -/
def execTickTimeout (s : State) : Result :=
  .next (if timeoutDue s.motor s.io.now then stopMotors s else s)

end Sys2Proof.Machine
end

