-- ==== Sys2Proof/Machine/Panel.lean ====
section
/-! DEFINITION. The display adjunct (44_display_commands.md): `DIMG`, `DCLEAR`, `DSTATUS`, `START_REFRESH`, `DISP_STEP`,
`DISP_RECEIVE`, `CLEAR_BUFFER`. -/

namespace Sys2Proof.Machine

/-- The null-guard (44_display_commands.md R104): without a buffer a display command answers `ERR` M12 and does nothing. -/
def withDisplay (s : State) (k : Result) : Result :=
  if s.cfg.displayPresent then k else .next (raiseError .displayUnavailable s)

/-- `DIMG` (44_display_commands.md R101): the length (42_dispatcher.md R86), then the null-guard (R87), then the full replace
and the start of the refresh. Its response is deferred to the end of the refresh (R108). -/
def execDimg (data : List Byte) (s : State) : Result :=
  if data.length ≠ s.cfg.displayCapacity then
    .next (raiseError (.length s.cfg.displayCapacity data.length) s)
  else
    withDisplay s <| writeThen .disp 0 data s fun s' =>
      .next (beginRefresh { s' with disp.cursor := s.cfg.displayCapacity, disp.ready := true })

/-- `DCLEAR` (44_display_commands.md R102); the response is deferred (R108). -/
def execDclear (s : State) : Result := withDisplay s (.next (beginRefresh (clearDisplay s)))

/-- `DSTATUS` (44_display_commands.md R103), message M8. -/
def execDstatus (s : State) : Result :=
  withDisplay s (.next (respond .ok (msgStatus s.disp.cursor s.disp.ready) s))

/-- `START_REFRESH` (44_display_commands.md R106). -/
def execStartRefresh (s : State) : Result := .next (beginRefresh s)

/-- Move the sequence register. -/
def setSeq (q : DispState) (s : State) : State := { s with disp.seq := q }

/-- A waiting state (44_display_commands.md R107): enabled when `panel_busy = 0`; otherwise the device has no enabled step and
nothing changes (R110, log 3). -/
def waitPanel (q : DispState) (s : State) : Result := .next (if s.io.panelBusy then s else setSeq q s)

/-- `DISP_STEP` (44_display_commands.md R107), the last step with the completion of R108. It has no row for `D_IDLE`, where
nothing changes (log 15). -/
def execDispStep (s : State) : Result :=
  match s.disp.seq with
  | .idle => .next s
  | .reset => .next (setSeq .waitBusy (panelPut [.reset] s))
  | .waitBusy => waitPanel .write s
  | .write =>
    readThen .disp 0 s.cfg.displayCapacity s fun bs => .next (setSeq .refresh (panelPut [.init, .data bs] s))
  | .refresh => .next (setSeq .waitDone (panelPut [.refresh] s))
  | .waitDone => waitPanel .sleep s
  | .sleep => .next (respond .ok msgEmpty (setSeq .idle (panelPut [.sleep] s)))

/-- `DISP_RECEIVE` is accepted only when `mode = RUN` and `disp_state = D_IDLE`, and acts only when the buffer exists
(44_display_commands.md R111, R104). -/
def receiveAccepted (s : State) : Bool :=
  decide (s.sup.mode = .run) && decide (s.disp.seq = .idle) && s.cfg.displayPresent

/-- How many bytes of a chunk are stored (44_display_commands.md R111). -/
def receiveCount (chunk : List Byte) (s : State) : Nat := min chunk.length (s.cfg.displayCapacity - s.disp.cursor)

/-- `DISP_RECEIVE` (44_display_commands.md R111): bytes from the cursor on, the excess ignored; a call that is not accepted
changes nothing (log 16). -/
def execDispReceive (chunk : List Byte) (s : State) : Result :=
  if receiveAccepted s then
    let k := receiveCount chunk s
    writeThen .disp s.disp.cursor (chunk.take k) s fun s' =>
      .next { s' with
        disp.cursor := s.disp.cursor + k
        disp.ready := readyFlag s.cfg.displayCapacity (s.disp.cursor + k) s.disp.ready }
  else .next s

/-- `CLEAR_BUFFER` (44_display_commands.md R113). -/
def execClearBuffer (s : State) : Result := .next (clearDisplay s)

end Sys2Proof.Machine
end

