-- ==== Sys2Proof/Machine/System.lean ====
section
/-! DEFINITION. The System Supervisor (45_system_commands.md) and reset (70_reset_and_hazards.md): `SRESET`, `SHALT`,
`SPING`, `TICK_WATCHDOG`, `RESTART`, `RESET`. -/

namespace Sys2Proof.Machine

/-- `SRESET` (45_system_commands.md R114): stop, clear, respond, then restart. -/
def execSreset (s : State) : Result := .next (restartState (respond .ok msgEmpty (clearDisplay (stopMotors s))))

/-- Device sleep (45_system_commands.md R116): `mode` halted and one `sleep_req` event. -/
def enterSleep (s : State) : State := { s with sup.mode := .halted, io.sleepReq := s.io.sleepReq + 1 }

/-- `SHALT` (45_system_commands.md R116): stop, respond, then sleep; the display buffer is not cleared. -/
def execShalt (s : State) : Result := .next (enterSleep (respond .ok msgEmpty (stopMotors s)))

/-- `SPING` (45_system_commands.md R118), message M11; the watchdog stamp is the hand-off's, not the handler's. -/
def execSping (s : State) : Result := .next (respond .ok msgPong s)

/-- `TICK_WATCHDOG` (45_system_commands.md R120): it sends no response and does not write `lastFrameMs`. -/
def execTickWatchdog (s : State) : Result :=
  .next (if watchdogDue s.cfg s.motor s.sup.lastFrameMs s.io.now then stopMotors s else s)

/-- `RESTART` (45_system_commands.md R115). -/
def execRestart (s : State) : Result := .next (restartState s)

/-- `RESET` (70_reset_and_hazards.md R153). -/
def execReset (s : State) : Result := .next (resetState s)

end Sys2Proof.Machine
end

