-- ==== Sys2Proof/Machine/Dispatcher.lean ====
section
/-! DEFINITION. The command dispatcher (42_dispatcher.md): `DISPATCH`. -/

namespace Sys2Proof.Machine

/-- The handler of a known command whose payload has its expected length (42_dispatcher.md R83). -/
def handler (c : CommandName) (payload : List Byte) (s : State) : Result :=
  match c with
  | .mvel => execMvel (le16 payload 0) (le16 payload 2) (le16 payload 4) s
  | .mstop => execMstop s
  | .dimg => execDimg payload s
  | .dclear => execDclear s
  | .dstatus => execDstatus s
  | .sreset => execSreset s
  | .shalt => execShalt s
  | .sping => execSping s

/-- `DISPATCH(name, payload)` (42_dispatcher.md R83 to R87): the name, then the length, then the handler. Each branch sends its
own response (41_frame_codec.md R79), deferred for an accepted `DIMG` or `DCLEAR`. -/
def execDispatch (name payload : List Byte) (s : State) : Result :=
  match lookupName name with
  | none => .next (raiseError (.unknownCommand name) s)
  | some c =>
    if payload.length = expectedLength s.cfg c then handler c payload s
    else .next (raiseError (.length (expectedLength s.cfg c) payload.length) s)

end Sys2Proof.Machine
end

