-- ==== Sys2Proof/Machine/FrameCodec.lean ====
section
/-! DEFINITION. The serial frame codec (41_frame_codec.md): `RX_BYTE` in its four phases, and the hand-off. -/

namespace Sys2Proof.Machine

/-- A header byte other than `TERM` (41_frame_codec.md R70): accumulated, or dropped with the whole header when the buffer is
full. -/
def rxHeaderByte (b : Byte) (s : State) : Result :=
  if s.codec.hdrLen < s.cfg.cmdBufMax then
    writeThen .hdr s.codec.hdrLen [b] s fun s' => .next { s' with codec.hdrLen := s.codec.hdrLen + 1 }
  else .next (raiseError .headerOverflow s)

/-- An accepted header (41_frame_codec.md R73). -/
def acceptHeader (name : List Byte) (n : Nat) (s : State) : State :=
  crcStart
    { s with
      codec.cmdName := name, codec.expLen := n, codec.payCnt := 0, codec.hdrLen := 0,
      codec.phase := if 0 < n then .pay else .payterm }

/-- The header terminator (41_frame_codec.md R71 to R73). -/
def rxHeaderTerm (s : State) : Result :=
  readThen .hdr 0 s.codec.hdrLen s fun h =>
    match splitHeader s.cfg.payloadMax h with
    | .error e => .next (raiseError e s)
    | .ok (name, n) => .next (acceptHeader name n s)

/-- A payload byte, whatever its value (41_frame_codec.md R74). -/
def rxPayload (b : Byte) (s : State) : Result :=
  writeThen .pay s.codec.payCnt [b] s fun s' =>
    .next
      (crcStep b
        { s' with
          codec.payCnt := s.codec.payCnt + 1,
          codec.phase := if s.codec.payCnt + 1 = s.codec.expLen then .payterm else .pay })

/-- The byte after the payload (41_frame_codec.md R75). -/
def rxPayloadTerm (b : Byte) (s : State) : Result :=
  .next
    (if b = term then { s with codec.ckAcc := 0, codec.ckCnt := 0, codec.phase := .ck }
    else raiseError .payloadTerminator s)

/-- The hand-off (41_frame_codec.md R79): the watchdog stamp first, then the dispatcher with the buffered payload. -/
def handOff (s : State) : Result :=
  readThen .pay 0 s.codec.expLen s fun payload =>
    execDispatch s.codec.cmdName payload { stampFrame s with codec.phase := .hdr }

/-- A byte of the checksum field (41_frame_codec.md R76 to R80). -/
def rxChecksum (b : Byte) (s : State) : Result :=
  if isHexDigit s.cfg.ckAcceptLower b && decide (s.codec.ckCnt < 4) then
    .next
      { s with
        codec.ckAcc := (s.codec.ckAcc <<< 4) ||| BitVec.ofNat 16 (hexVal b),
        codec.ckCnt := s.codec.ckCnt + 1 }
  else if b = term ∧ s.codec.ckCnt = 4 then
    if crcMatch s.codec then handOff s else .next (raiseError (.checksum s.codec.crcReg s.codec.ckAcc) s)
  else .next (raiseError .checksumField s)

/-- `RX_BYTE(b)` (41_frame_codec.md R69): the action is chosen by `phase` and the byte. -/
def execRxByte (b : Byte) (s : State) : Result :=
  match s.codec.phase with
  | .hdr => if b = term then rxHeaderTerm s else rxHeaderByte b s
  | .pay => rxPayload b s
  | .payterm => rxPayloadTerm b s
  | .ck => rxChecksum b s

end Sys2Proof.Machine
end

