-- ==== Sys2Proof/Machine/Response.lean ====
section
/-! DEFINITION. The response path (41_frame_codec.md R81): the three statuses of 30_encoding.md R55 and `TX_RESPONSE`. -/

namespace Sys2Proof.Machine

/-- `OK` with a message (30_encoding.md R55), sent by R81. -/
def execOk (msg : List Byte) (s : State) : Result := sendResponse .ok msg s

/-- `ERR` with a message (30_encoding.md R55), sent by R81. -/
def execErr (msg : List Byte) (s : State) : Result := sendResponse .err msg s

/-- `PENDING`: reserved, never emitted (30_encoding.md R55, D47), so it is refused by name (93_implementation_defined.md U4, log 10). -/
def execPending (_msg : List Byte) (_s : State) : Result := .refused .pendingReserved

/-- `TX_RESPONSE(status, msg)` (41_frame_codec.md R81). -/
def execTxResponse (st : Status) (msg : List Byte) (s : State) : Result := sendResponse st msg s

end Sys2Proof.Machine
end

