-- ==== Sys2Proof/Machine/Dispatch.lean ====
section
/-! DEFINITION. The dispatch of every instruction to its meaning, one arm per constructor. -/

namespace Sys2Proof.Machine

def exec (i : Instr) (s : State) : Host.Outcome State Fault Refusal :=
  match i with
  | .mvel leftSpeed rightSpeed durationMs => Sys2Proof.Machine.execMvel leftSpeed rightSpeed durationMs s
  | .mstop => Sys2Proof.Machine.execMstop s
  | .dimg data => Sys2Proof.Machine.execDimg data s
  | .dclear => Sys2Proof.Machine.execDclear s
  | .dstatus => Sys2Proof.Machine.execDstatus s
  | .sreset => Sys2Proof.Machine.execSreset s
  | .shalt => Sys2Proof.Machine.execShalt s
  | .sping => Sys2Proof.Machine.execSping s
  | .ok msg => Sys2Proof.Machine.execOk msg s
  | .err msg => Sys2Proof.Machine.execErr msg s
  | .pending msg => Sys2Proof.Machine.execPending msg s
  | .rxByte b => Sys2Proof.Machine.execRxByte b s
  | .crcInit => Sys2Proof.Machine.execCrcInit s
  | .crcUpdate b => Sys2Proof.Machine.execCrcUpdate b s
  | .crcCheck => Sys2Proof.Machine.execCrcCheck s
  | .dispatch name payload => Sys2Proof.Machine.execDispatch name payload s
  | .txResponse status msg => Sys2Proof.Machine.execTxResponse status msg s
  | .stopAction => Sys2Proof.Machine.execStopAction s
  | .tickTimeout => Sys2Proof.Machine.execTickTimeout s
  | .tickWatchdog => Sys2Proof.Machine.execTickWatchdog s
  | .startRefresh => Sys2Proof.Machine.execStartRefresh s
  | .dispStep => Sys2Proof.Machine.execDispStep s
  | .dispReceive chunk => Sys2Proof.Machine.execDispReceive chunk s
  | .clearBuffer => Sys2Proof.Machine.execClearBuffer s
  | .restart => Sys2Proof.Machine.execRestart s
  | .reset => Sys2Proof.Machine.execReset s

end Sys2Proof.Machine
end

