-- ==== Sys2Proof/Machine/Loop.lean ====
section
/-! DEFINITION. The loop sequencer (46_polling_loop.md): which operation the next step performs, the environment's moves, and
how a frame is put where the next step runs it. -/

namespace Sys2Proof.Machine

/-- The device agent's choice (46_polling_loop.md R123 to R126): the operation it performs, if any, and the state it performs
it on, with the sequencer's own action (the pop, the move of `loop_phase`) done. In `HALTED` there is no step (log 3). -/
def deviceOp (s : State) : Option Instr × State :=
  if s.sup.mode = .halted then (none, s)
  else if s.disp.seq ≠ .idle then (some .dispStep, s)
  else
    match s.loopPhase with
    | .drain =>
      match s.io.rxQueue with
      | [] => (none, { s with loopPhase := .timeout })
      | b :: rest => (some (.rxByte b), { s with io.rxQueue := rest })
    | .timeout => (some .tickTimeout, { s with loopPhase := .watchdog })
    | .watchdog => (some .tickWatchdog, { s with loopPhase := .drain })

/-- Who moves next and what is performed: the head of `env`, or the device agent when nothing is scheduled
(00_scope.md R9, 46_polling_loop.md R128, log 2). -/
def nextOp (s : State) : Option Instr × State :=
  match s.env with
  | [] => deviceOp s
  | .device :: rest => deviceOp { s with env := rest }
  | .host bytes :: rest => (none, { s with env := rest, io.rxQueue := s.io.rxQueue ++ bytes })
  | .clock ms :: rest => (none, { s with env := rest, io.now := s.io.now + ms })
  | .panel busy :: rest => (none, { s with env := rest, io.panelBusy := busy })
  | .chunk bytes :: rest => (some (.dispReceive bytes), { s with env := rest })
  | .extReset :: rest => (some .reset, { s with env := rest })

/-- The device in the running loop's drain phase with the device agent to move (log 17). -/
def readyToDrain (s : State) : State :=
  { s with
    sup.mode := .run, disp.seq := .idle, loopPhase := .drain, env := .device :: s.env }

/-- A command frame received but for its last byte: the checksum field is complete and the final `TERM` is the next byte of
`rx_queue`, so that the next step runs the command (41_frame_codec.md R77, log 17). -/
def placeFrame (name payload : List Byte) (s : State) : State :=
  let r := readyToDrain s
  { r with
    codec := { s.codec with
      phase := .ck, hdrLen := 0, cmdName := name, expLen := payload.length,
      payBuf := memWriteN (unlisted s.cfg .pay) [] 0 payload, payCnt := payload.length,
      crcReg := crc16 payload, ckAcc := crc16 payload, ckCnt := 4 }
    io.rxQueue := term :: s.io.rxQueue }

/-- A table word put where the next step takes it up: a command's frame with operands of zeros, ready at its last byte; any
other bytes at the head of `rx_queue` (log 17). -/
def placeTableWord (s : State) (nbits w : Nat) : State :=
  let name := tableName nbits w
  match lookupName name with
  | some c => placeFrame name (List.replicate (expectedLength s.cfg c) 0) s
  | none => { readyToDrain s with io.rxQueue := name ++ s.io.rxQueue }

end Sys2Proof.Machine
end

