-- ==== Sys2Proof/Machine/Step.lean ====
section
/-! DEFINITION. One step of the machine: the operation `nextOp` selects, performed by `exec`. -/

namespace Sys2Proof.Machine

/-- One step (46_polling_loop.md R123, R128): an environment step or one step of the device agent. -/
def step (s : State) : Host.Outcome State Fault Refusal :=
  match (nextOp s).1 with
  | none => .next (nextOp s).2
  | some i => exec i (nextOp s).2

/-- The state with a table word's instruction placed where the next step runs it (log 17). -/
def State.withFetchWord (s : State) (nbits w : Nat) : State := placeTableWord s nbits w

end Sys2Proof.Machine
end

