-- ==== Sys2Proof/Safety.lean ====
section
/-! DEFINITION. The terms claims are stated in: the invariants of the machine, by owner block, the logical states of
43_motor_commands.md R97, and what reset leaves. -/

namespace Sys2Proof.Machine

/-- `k` steps, stopping at the first fault or refusal: the run of `Host.Core`, on the state's own type. -/
def runSteps : Nat → State → Result
  | 0, s => .next s
  | k + 1, s =>
    match step s with
    | .next s' => runSteps k s'
    | .fault r => .fault r
    | .refused r => .refused r

/-- The first `n` bytes of a space, `buf[0..n-1]`. -/
def State.bytes (s : State) (sp : Space) (n : Nat) : List Byte := (List.range n).map (s.readByte sp)

/-- The motors stopped (43_motor_commands.md R92). -/
def Motor.stopped (m : Motor) : Prop :=
  m.leftDuty = 0 ∧ m.rightDuty = 0 ∧ m.running = false ∧ m.deadlineValid = false

/-- Register ranges of the codec and what its counters say of its buffers (10_state.md R13 to R17, 40_crc_validator.md R66). -/
structure CodecInv (s : State) : Prop where
  hdrLen_le : s.codec.hdrLen ≤ s.cfg.cmdBufMax
  hdrLen_zero : s.codec.phase ≠ .hdr → s.codec.hdrLen = 0
  hdr_noTerm : ∀ a, a < s.codec.hdrLen → s.readByte .hdr a ≠ term
  name_wf : nameWf s.cfg s.codec.cmdName = true
  expLen_le : s.codec.expLen ≤ s.cfg.payloadMax
  payCnt_le : s.codec.payCnt ≤ s.codec.expLen
  payCnt_lt : s.codec.phase = .pay → s.codec.payCnt < s.codec.expLen
  payCnt_eq : s.codec.phase = .payterm ∨ s.codec.phase = .ck → s.codec.payCnt = s.codec.expLen
  crc_eq : s.codec.crcReg = crc16 (s.bytes .pay s.codec.payCnt)
  ckCnt_le : s.codec.ckCnt ≤ 4
  ckAcc_lt : s.codec.ckAcc.toNat < 16 ^ s.codec.ckCnt

/-- The invariants of MotorState (43_motor_commands.md R99) against the clock. -/
structure MotorInv (s : State) : Prop where
  left_range : -255 ≤ s.motor.leftDuty ∧ s.motor.leftDuty ≤ 255
  right_range : -255 ≤ s.motor.rightDuty ∧ s.motor.rightDuty ≤ 255
  running_iff : s.motor.running = true ↔ (s.motor.leftDuty ≠ 0 ∨ s.motor.rightDuty ≠ 0)
  deadline_le : s.motor.deadlineValid = true → s.motor.stopDeadlineMs ≤ s.io.now + 65535

/-- The laws of `cursor` and `ready` (44_display_commands.md R105), and none of the display state without a buffer (R104). -/
structure DisplayInv (s : State) : Prop where
  cursor_le : s.disp.cursor ≤ capacity s.cfg .disp
  ready_iff : s.disp.ready = true ↔ s.disp.cursor = s.cfg.displayCapacity
  seq_present : s.disp.seq ≠ .idle → s.cfg.displayPresent = true

/-- What the sequencing registers say together: a refresh runs in the drain phase of a running device with the parser at a line
start (46_polling_loop.md R127, 41_frame_codec.md R79), a halted device has stopped motors and no refresh (45_system_commands.md
R116, R117), and the watchdog's reference is not in the future (R120). -/
structure LoopInv (s : State) : Prop where
  blocked : s.disp.seq ≠ .idle →
    s.sup.mode = .run ∧ s.loopPhase = .drain ∧ s.codec.phase = .hdr ∧ s.codec.hdrLen = 0
  halted : s.sup.mode = .halted → s.motor.stopped ∧ s.disp.seq = .idle ∧ s.loopPhase = .drain
  stamp_le : s.sup.lastFrameMs ≤ s.io.now

/-- The three buffers are canonical and list no index outside their capacity (20_memory.md R31 to R33). -/
structure BufferInv (s : State) : Prop where
  wf : ∀ sp, Mem.wf (unlisted s.cfg sp) (s.mem sp)
  below : ∀ sp, Mem.below (capacity s.cfg sp) (s.mem sp)

/-- The invariant of the machine. -/
structure Inv (s : State) : Prop where
  cfg_wf : s.cfg.wf = true
  codec : CodecInv s
  motor : MotorInv s
  display : DisplayInv s
  loop : LoopInv s
  buffers : BufferInv s

/-- The logical motor states of 43_motor_commands.md R97. -/
inductive MotorLogic where
  | idle | timedRun | indefiniteRun
  deriving DecidableEq, Repr

/-- The logical state as a function of the registers (43_motor_commands.md R97). -/
def Motor.logic (m : Motor) : MotorLogic :=
  if m.running = false then .idle else if m.deadlineValid then .timedRun else .indefiniteRun

/-- The register values of 10_state.md R29 that reset leaves, `lastFrameMs` at the time `now`; the three unspecified contents
are not named. -/
structure ResetValues (cfg : Config) (now : Nat) (t : State) : Prop where
  phase : t.codec.phase = .hdr
  hdrLen : t.codec.hdrLen = 0
  cmdName : t.codec.cmdName = []
  expLen : t.codec.expLen = 0
  payCnt : t.codec.payCnt = 0
  crcReg : t.codec.crcReg = 0xFFFF
  ckAcc : t.codec.ckAcc = 0
  ckCnt : t.codec.ckCnt = 0
  motor : t.motor.stopped
  leftPins : t.leftPins = { pwm := 0, fwd := false, rev := false }
  rightPins : t.rightPins = { pwm := 0, fwd := false, rev := false }
  lastFrameMs : t.sup.lastFrameMs = now
  mode : t.sup.mode = .run
  blank : ∀ a, t.readByte .disp a = cfg.blankByte
  cursor : t.disp.cursor = 0
  ready : t.disp.ready = false
  seq : t.disp.seq = .idle
  loopPhase : t.loopPhase = .drain
  rxQueue : t.io.rxQueue = []

/-- The eight wire commands of 30_encoding.md R54, with their names. -/
def commandOf : Instr → Option CommandName
  | .mvel _ _ _ => some .mvel
  | .mstop => some .mstop
  | .dimg _ => some .dimg
  | .dclear => some .dclear
  | .dstatus => some .dstatus
  | .sreset => some .sreset
  | .shalt => some .shalt
  | .sping => some .sping
  | .ok _ => none
  | .err _ => none
  | .pending _ => none
  | .rxByte _ => none
  | .crcInit => none
  | .crcUpdate _ => none
  | .crcCheck => none
  | .dispatch _ _ => none
  | .txResponse _ _ => none
  | .stopAction => none
  | .tickTimeout => none
  | .tickWatchdog => none
  | .startRefresh => none
  | .dispStep => none
  | .dispReceive _ => none
  | .clearBuffer => none
  | .restart => none
  | .reset => none

/-- The next step is the last byte of a frame whose checksum matches: the hand-off of 41_frame_codec.md R79. -/
structure AtHandOff (s : State) : Prop where
  device : s.env = [] ∨ ∃ rest, s.env = .device :: rest
  mode : s.sup.mode = .run
  seq : s.disp.seq = .idle
  loopPhase : s.loopPhase = .drain
  byte : s.io.rxQueue.head? = some term
  phase : s.codec.phase = .ck
  ckCnt : s.codec.ckCnt = 4
  crc : s.codec.crcReg = s.codec.ckAcc

/-- A header line that is dropped (41_frame_codec.md R71, R72): with the bytes from its first digit on as `digits`, there are
none, one of them is no digit, or their value exceeds `PAYLOAD_MAX`. -/
def LineDropped (payloadMax : Nat) (line : List Byte) : Prop :=
  let digits := line.dropWhile fun b => !isDigit b
  digits = [] ∨ (∃ b ∈ digits, isDigit b = false) ∨ payloadMax < decVal digits

/-- The byte ends the frame the parser is in, well or badly (41_frame_codec.md R70, R72, R75, R77, R78): a full header or a
dropped line in `HDR`, none in `PAY`, anything but `TERM` in `PAYTERM`, and in `CK` anything but a further hex digit. -/
def EndsFrame (s : State) (b : Byte) : Prop :=
  match s.codec.phase with
  | .hdr =>
    if b = term then LineDropped s.cfg.payloadMax (s.bytes .hdr s.codec.hdrLen) else s.cfg.cmdBufMax ≤ s.codec.hdrLen
  | .pay => False
  | .payterm => b ≠ term
  | .ck => ¬(isHexDigit s.cfg.ckAcceptLower b = true ∧ s.codec.ckCnt < 4)

end Sys2Proof.Machine
end

