-- ==== Sys2Proof/Certificates/Slice0/Obligations.lean ====
section
/-! DEFINITION. The statements for the provers. Each docstring names the rules of spec/ it formalises; where a clause rests on
a choice of the model or a marked decision of the spec, it names the log entry. -/

open Sys2Proof Sys2Proof.Machine

/-! ### Encoding -/

/-- Words written out from 30_encoding.md R45, R46, R54, R55, R60 and the byte listings of 95_test_vectors.md: they decode to the
instruction they stand for, and a frame with a corrupted checksum field does not (the CRC values: log 19). -/
def Obligations.SpecFramesDecode : Prop :=
  decode Config.t0
      [0x4D, 0x56, 0x45, 0x4C, 0x36, 0x0A, 0x64, 0x00, 0x64, 0x00, 0xF4, 0x01, 0x0A, 0x30, 0x42, 0x41, 0x45, 0x0A] =
    .ok (.mvel 100 100 500, []) ∧
  decode Config.t0 [0x4D, 0x53, 0x54, 0x4F, 0x50, 0x30, 0x0A, 0x0A, 0x46, 0x46, 0x46, 0x46, 0x0A] = .ok (.mstop, []) ∧
  decode Config.t0 [0x53, 0x48, 0x41, 0x4C, 0x54, 0x30, 0x0A, 0x0A, 0x46, 0x46, 0x46, 0x46, 0x0A] = .ok (.shalt, []) ∧
  decode Config.t0 [0x53, 0x50, 0x49, 0x4E, 0x47, 0x30, 0x0A, 0x0A, 0x46, 0x46, 0x46, 0x46, 0x0A] = .ok (.sping, []) ∧
  decode Config.t0 [0x4F, 0x4B, 0x34, 0x0A, 0x50, 0x4F, 0x4E, 0x47, 0x0A] = .ok (.ok [0x50, 0x4F, 0x4E, 0x47], []) ∧
  decode Config.t0
      [0x4D, 0x56, 0x45, 0x4C, 0x36, 0x0A, 0x64, 0x00, 0x64, 0x00, 0xF4, 0x01, 0x0A, 0x30, 0x30, 0x30, 0x30, 0x0A] =
    .error (.malformed (.checksum 0x0BAE 0x0000))

/-- Decode and encode agree, for every command and response that is well formed under any parameters that meet the constraints
of 00_scope.md R6, whatever bytes follow the frame (30_encoding.md R45, R46, R59, R60; the marked byte-level decisions: log 23). -/
def Obligations.DecodeOfEncodeIsIdentity : Prop :=
  ∀ (cfg : Config) (i : Instr) (rest : List Byte),
    cfg.wf = true → i.wf cfg = true → i.onWire = true → decode cfg (encode i ++ rest) = .ok (i, rest)

/-! ### CRC validator -/

/-- The two forms of `crc_update` agree for every register value and byte (40_crc_validator.md R64, both from general
knowledge: log 19). -/
def Obligations.CrcFormsAgree : Prop := ∀ (c : Word16) (b : Byte), crcUpdate c b = crcUpdateSerial c b

/-- The residue property (40_crc_validator.md R68 item 2): a byte string followed by the high and low bytes of its CRC has CRC 0 (log 19). -/
def Obligations.CrcResidueIsZero : Prop :=
  ∀ p : List Byte, crc16 (p ++ [(crc16 p >>> 8).setWidth 8, (crc16 p).setWidth 8]) = 0

/-- A payload with one byte changed, at any place and in any way, has another CRC (40_crc_validator.md R68 item 3, a burst of at
most 8 bits; log 19). -/
def Obligations.CrcDetectsOneChangedByte : Prop :=
  ∀ (p q : List Byte) (b b' : Byte), b ≠ b' → crc16 (p ++ [b] ++ q) ≠ crc16 (p ++ [b'] ++ q)

/-- `CRC_INIT`, `CRC_UPDATE` and `CRC_CHECK` (40_crc_validator.md R65 to R67): what each writes, and nothing else; the update is
the division of R64 in its bit-serial form; the check writes no state (log 14) and its result compares the two registers. -/
def Obligations.CrcOperationsWriteOnlyTheRegister : Prop :=
  ∀ (s : Machine.State) (b : Byte),
    exec .crcInit s = .next { s with codec.crcReg := 0xFFFF } ∧
    exec (.crcUpdate b) s = .next { s with codec.crcReg := crcUpdateSerial s.codec.crcReg b } ∧
    exec .crcCheck s = .next s ∧
    (crcMatch s.codec = true ↔ s.codec.crcReg = s.codec.ckAcc)

/-! ### Frame codec -/

/-- A header byte other than `TERM` (41_frame_codec.md R70): stored at `hdr_len` when there is room, every other byte of every buffer
and every other register kept; otherwise the header is emptied and nothing else changes (D23, D24: log 23; that a drop leaves the
buffer's bytes is the model's choice, log 4). -/
def Obligations.HeaderByteIsAccumulatedOrDropped : Prop :=
  ∀ (s : Machine.State) (b : Byte), BufferInv s → s.codec.phase = .hdr → b ≠ 0x0A →
    (s.codec.hdrLen < s.cfg.cmdBufMax →
      ∃ t, exec (.rxByte b) s = .next t ∧
        t = { s with codec.hdrBuf := t.codec.hdrBuf, codec.hdrLen := s.codec.hdrLen + 1 } ∧
        t.readByte .hdr s.codec.hdrLen = b ∧
        ∀ (sp : Space) (a : Nat), (sp ≠ .hdr ∨ a ≠ s.codec.hdrLen) → t.readByte sp a = s.readByte sp a) ∧
    (s.cfg.cmdBufMax ≤ s.codec.hdrLen → exec (.rxByte b) s = .next { s with codec.hdrLen := 0 })

/-- The header terminator (41_frame_codec.md R71 to R73): with the line split as the bytes before its first digit and the rest, a line
without a digit, with a later non-digit, or with a value above `PAYLOAD_MAX` is dropped (D19 to D22: log 23; that a drop leaves the buffer's
bytes is the model's choice, log 4), and any other is accepted. -/
def Obligations.HeaderLineIsSplitOrDropped : Prop :=
  ∀ (s : Machine.State) (name rest : List Byte),
    s.codec.phase = .hdr → s.codec.hdrLen ≤ s.cfg.cmdBufMax → s.bytes .hdr s.codec.hdrLen = name ++ rest →
    (∀ b ∈ name, isDigit b = false) → (∀ b, rest.head? = some b → isDigit b = true) →
    (rest = [] ∨ (∃ b ∈ rest, isDigit b = false) ∨ s.cfg.payloadMax < decVal rest →
      exec (.rxByte 0x0A) s = .next { s with codec.hdrLen := 0 }) ∧
    (rest ≠ [] → (∀ b ∈ rest, isDigit b = true) → decVal rest ≤ s.cfg.payloadMax →
      exec (.rxByte 0x0A) s = .next { s with codec := { s.codec with
        cmdName := name, expLen := decVal rest, payCnt := 0, hdrLen := 0, crcReg := 0xFFFF,
        phase := if 0 < decVal rest then .pay else .payterm } })

/-- A payload byte, whatever its value (41_frame_codec.md R74): stored at `pay_cnt`, fed to the CRC, counted; the phase changes at the
last declared byte; every other byte of every buffer and every other register is kept. -/
def Obligations.PayloadByteIsStoredAndFed : Prop :=
  ∀ (s : Machine.State) (b : Byte), BufferInv s → s.codec.phase = .pay → s.codec.payCnt < s.cfg.payloadMax →
    ∃ t, exec (.rxByte b) s = .next t ∧
      t = { s with codec := { s.codec with
        payBuf := t.codec.payBuf
        crcReg := crcUpdate s.codec.crcReg b
        payCnt := s.codec.payCnt + 1
        phase := if s.codec.payCnt + 1 = s.codec.expLen then .payterm else .pay } } ∧
      t.readByte .pay s.codec.payCnt = b ∧
      ∀ (sp : Space) (a : Nat), (sp ≠ .pay ∨ a ≠ s.codec.payCnt) → t.readByte sp a = s.readByte sp a

/-- The byte after the payload (41_frame_codec.md R75): `TERM` opens the checksum field, any other byte drops the frame (D25:
log 23). The drop also writes `hdr_len` 0, which R75 says it already is (log 29). -/
def Obligations.PayloadTerminatorOpensChecksum : Prop :=
  ∀ (s : Machine.State) (b : Byte), s.codec.phase = .payterm →
    exec (.rxByte b) s =
      .next (if b = 0x0A then { s with codec := { s.codec with ckAcc := 0, ckCnt := 0, phase := .ck } }
        else { s with codec := { s.codec with phase := .hdr, hdrLen := 0 } })

/-- The checksum field (41_frame_codec.md R76, R78): a hex digit shifts in as the low nibble while fewer than four are held (lower case only
under `CK_ACCEPT_LOWER`); anything but the terminator of a field of four drops the frame (D16 to D18: log 23). The drop also
writes `hdr_len` 0 (log 29). -/
def Obligations.ChecksumDigitsAccumulate : Prop :=
  ∀ (s : Machine.State) (b : Byte), s.codec.phase = .ck →
    let dropped : Machine.State := { s with codec := { s.codec with phase := .hdr, hdrLen := 0 } }
    (∀ n : Nat, n < 16 →
      (b = hexChar n ∨ (s.cfg.ckAcceptLower = true ∧ 10 ≤ n ∧ b = BitVec.ofNat 8 (0x57 + n))) → s.codec.ckCnt < 4 →
      exec (.rxByte b) s = .next { s with codec := { s.codec with
        ckAcc := s.codec.ckAcc * 16 + BitVec.ofNat 16 n, ckCnt := s.codec.ckCnt + 1 } }) ∧
    ((∀ n : Nat, n < 16 → b ≠ hexChar n) →
      (s.cfg.ckAcceptLower = true → ∀ n : Nat, 10 ≤ n → n < 16 → b ≠ BitVec.ofNat 8 (0x57 + n)) → b ≠ 0x0A →
      exec (.rxByte b) s = .next dropped) ∧
    (b = 0x0A → s.codec.ckCnt ≠ 4 → exec (.rxByte b) s = .next dropped) ∧
    (b ≠ 0x0A → 4 ≤ s.codec.ckCnt → exec (.rxByte b) s = .next dropped)

/-- Checksum completion (41_frame_codec.md R77, R79, R80): on a match the hand-off stamps the watchdog (D28: log 24), returns to header phase and
dispatches the buffered payload; on a mismatch one `ERR` response (text M1, log 9), no dispatch, and the return to header phase with
`hdr_len` 0 that R82 item 2 and 60_exceptions.md R143 give every error (written from every state: log 29). -/
def Obligations.ChecksumCompletionDispatchesOrRejects : Prop :=
  ∀ s : Machine.State, s.codec.phase = .ck → s.codec.ckCnt = 4 →
    (s.codec.crcReg = s.codec.ckAcc → s.codec.expLen ≤ s.cfg.payloadMax →
      exec (.rxByte 0x0A) s =
        exec (.dispatch s.codec.cmdName (s.bytes .pay s.codec.expLen))
          { s with sup.lastFrameMs := s.io.now, codec.phase := .hdr }) ∧
    (s.codec.crcReg ≠ s.codec.ckAcc →
      exec (.rxByte 0x0A) s = .next { s with
        codec := { s.codec with phase := .hdr, hdrLen := 0 }
        io.txStream := s.io.txStream ++ encRsp .err (msgChecksum s.codec.crcReg s.codec.ckAcc) })

/-- `RX_BYTE` is total and never stops the machine where the codec's registers are in their ranges (41_frame_codec.md R69). -/
def Obligations.RxByteAlwaysCompletes : Prop :=
  ∀ (s : Machine.State) (b : Byte), CodecInv s → ∃ t, exec (.rxByte b) s = .next t

/-- A byte that does not hand off a frame touches nothing outside the codec's registers, but for the one `ERR` response of a
checksum mismatch (41_frame_codec.md R82 items 3 and 4, 60_exceptions.md R132, R133, R143). -/
def Obligations.FrameErrorsAreLocal : Prop :=
  ∀ (s t : Machine.State) (b : Byte), exec (.rxByte b) s = .next t →
    ¬(s.codec.phase = .ck ∧ b = 0x0A ∧ s.codec.ckCnt = 4 ∧ s.codec.crcReg = s.codec.ckAcc) →
    t = { s with codec := t.codec, io.txStream := t.io.txStream } ∧
    t.io.txStream =
      if s.codec.phase = .ck ∧ b = 0x0A ∧ s.codec.ckCnt = 4 then
        s.io.txStream ++ encRsp .err (msgChecksum s.codec.crcReg s.codec.ckAcc)
      else s.io.txStream

/-- In every phase, a byte leaves the parser at a line start exactly when it ends a frame, well or badly: the drops in header
phase, at the payload terminator and in the checksum field, the mismatch and the hand-off (41_frame_codec.md R82 item 2, 60_exceptions.md
R144; the marked byte-level decisions: log 23). The premise on `hdr_len` is the codec invariant's. -/
def Obligations.FrameEndReturnsToHeader : Prop :=
  ∀ (s t : Machine.State) (b : Byte), (s.codec.phase ≠ .hdr → s.codec.hdrLen = 0) → exec (.rxByte b) s = .next t →
    (EndsFrame s b ↔ t.codec.phase = .hdr ∧ t.codec.hdrLen = 0)

/-! ### Dispatcher and responses -/

/-- An unknown name (42_dispatcher.md R84, R85): one `ERR` response naming it (text M2, log 9) and no owner called, whatever the
payload. The error's return to header phase is 60_exceptions.md R143's (log 29). -/
def Obligations.UnknownNameIsAnsweredErr : Prop :=
  ∀ (s : Machine.State) (name payload : List Byte), (∀ c : CommandName, name ≠ nameBytes c) →
    exec (.dispatch name payload) s = .next { s with
      codec := { s.codec with phase := .hdr, hdrLen := 0 }
      io.txStream := s.io.txStream ++ encRsp .err
        ([0x75, 0x6E, 0x6B, 0x6E, 0x6F, 0x77, 0x6E, 0x20, 0x63, 0x6F, 0x6D, 0x6D, 0x61, 0x6E, 0x64, 0x20] ++ name) }

/-- A known name with a payload of another than its expected length (42_dispatcher.md R86, R87): one `ERR` response naming both
(text M3, log 9) and no owner called. Besides it only the error's return to header phase, 60_exceptions.md R143's (log 29). -/
def Obligations.WrongLengthIsAnsweredErr : Prop :=
  ∀ (s : Machine.State) (c : CommandName) (payload : List Byte),
    let expected : Nat := if c = .mvel then 6 else if c = .dimg then s.cfg.displayCapacity else 0
    payload.length ≠ expected →
      exec (.dispatch (nameBytes c) payload) s = .next { s with
        codec := { s.codec with phase := .hdr, hdrLen := 0 }
        io.txStream := s.io.txStream ++ encRsp .err (msgLength expected payload.length) }

/-- A known name with a payload of its expected length (42_dispatcher.md R83): the command's own meaning, which completes. -/
def Obligations.DispatchRunsTheNamedCommand : Prop :=
  ∀ (s : Machine.State) (c : CommandName) (payload : List Byte),
    payload.length = (if c = .mvel then 6 else if c = .dimg then s.cfg.displayCapacity else 0) →
      exec (.dispatch (nameBytes c) payload) s = exec (commandInstr c payload) s ∧
      ∃ t, exec (.dispatch (nameBytes c) payload) s = .next t

/-- `OK`, `ERR` and `TX_RESPONSE` with a message of at most `MSG_MAX` bytes append one whole response and write nothing else
(41_frame_codec.md R81, 30_encoding.md R46, R59). -/
def Obligations.ResponsesAreAppendedWhole : Prop :=
  ∀ (s : Machine.State) (msg : List Byte), msg.length ≤ s.cfg.msgMax →
    let okTx := s.io.txStream ++ ([0x4F, 0x4B] ++ dec msg.length ++ [0x0A] ++ msg ++ [0x0A])
    let errTx := s.io.txStream ++ ([0x45, 0x52, 0x52] ++ dec msg.length ++ [0x0A] ++ msg ++ [0x0A])
    exec (.ok msg) s = .next { s with io.txStream := okTx } ∧
    exec (.err msg) s = .next { s with io.txStream := errTx } ∧
    exec (.txResponse .ok msg) s = .next { s with io.txStream := okTx } ∧
    exec (.txResponse .err msg) s = .next { s with io.txStream := errTx }

/-- The reserved status is refused by name, as the instruction and as an operand of `TX_RESPONSE` (30_encoding.md R55, 41_frame_codec.md
R81, log 10), and so is a message above `MSG_MAX` (log 11). -/
def Obligations.PendingAndOverlongMessagesAreRefused : Prop :=
  ∀ (s : Machine.State) (msg : List Byte),
    exec (.pending msg) s = .refused .pendingReserved ∧
    exec (.txResponse .pending msg) s = .refused .pendingReserved ∧
    (s.cfg.msgMax < msg.length →
      exec (.ok msg) s = .refused .messageTooLong ∧ exec (.err msg) s = .refused .messageTooLong ∧
      exec (.txResponse .ok msg) s = .refused .messageTooLong ∧
      exec (.txResponse .err msg) s = .refused .messageTooLong)

/-! ### Motor controller -/

/-- `MVEL` (43_motor_commands.md R89, R90): the clamped duties, `running` from the speeds, the deadline from the duration, one `OK`
response echoing the applied values (text M4, log 9; two's complement, log 20), and nothing else. Of the time of a cleared deadline nothing is
said (93_implementation_defined.md U13, log 5). -/
def Obligations.MvelSetsTheSetpoints : Prop :=
  ∀ (s : Machine.State) (l r d : Word16), ∃ t, exec (.mvel l r d) s = .next t ∧
    t = { s with
      motor :=
        { leftDuty := max (-255) (min 255 l.toInt)
          rightDuty := max (-255) (min 255 r.toInt)
          running := decide (l ≠ 0 ∨ r ≠ 0)
          deadlineValid := decide (d ≠ 0)
          stopDeadlineMs := t.motor.stopDeadlineMs }
      io.txStream := s.io.txStream ++ encRsp .ok
        (msgMvel (max (-255) (min 255 l.toInt)) (max (-255) (min 255 r.toInt)) d.toNat) } ∧
    (d ≠ 0 → t.motor.stopDeadlineMs = s.io.now + d.toNat)

/-- The stop action (43_motor_commands.md R92): both duties, `running` and the deadline flag cleared (`Motor.stopped`) and nothing else
written, from every state; all six motor pins are 0 after it. Of the time of the cleared deadline nothing is said (log 5). -/
def Obligations.StopActionZeroesTheMotors : Prop :=
  ∀ s : Machine.State, ∃ t, exec .stopAction s = .next t ∧ t.motor.stopped ∧ t = { s with motor := t.motor } ∧
    t.leftPins = { pwm := 0, fwd := false, rev := false } ∧ t.rightPins = { pwm := 0, fwd := false, rev := false }

/-- `MSTOP` (43_motor_commands.md R93, R94): the stop action and `OK` with an empty message, from every state; a second one leaves the
same stopped motors, adds a second `OK`, and changes nothing else. -/
def Obligations.MstopStopsAndIsIdempotent : Prop :=
  ∀ s : Machine.State, ∃ t u, exec .mstop s = .next t ∧ t.motor.stopped ∧
    t = { s with motor := t.motor, io.txStream := s.io.txStream ++ [0x4F, 0x4B, 0x30, 0x0A, 0x0A] } ∧
    exec .mstop t = .next u ∧ u.motor.stopped ∧
    u = { t with motor := u.motor, io.txStream := t.io.txStream ++ [0x4F, 0x4B, 0x30, 0x0A, 0x0A] }

/-- The motor outputs (10_state.md R26) of a duty in its range: magnitude, and the pin pair by sign (polarity log 25). -/
def Obligations.MotorPinsFollowTheDuties : Prop :=
  ∀ (s : Machine.State), MotorInv s →
    s.leftPins.pwm.toNat = s.motor.leftDuty.natAbs ∧ s.rightPins.pwm.toNat = s.motor.rightDuty.natAbs ∧
    (s.leftPins.fwd, s.leftPins.rev) =
      (if 0 < s.motor.leftDuty then (true, false) else if s.motor.leftDuty < 0 then (false, true) else (false, false)) ∧
    (s.rightPins.fwd, s.rightPins.rev) =
      (if 0 < s.motor.rightDuty then (true, false) else if s.motor.rightDuty < 0 then (false, true) else (false, false))

/-- `TICK_TIMEOUT` (43_motor_commands.md R96): the stop action and nothing else when running with a deadline that is set and reached
(`>=`), otherwise no change; no response; performed in phase (b) of every iteration (46_polling_loop.md R125), whatever
the queue holds. -/
def Obligations.TimeoutTickStopsAtTheDeadline : Prop :=
  (∀ s : Machine.State,
    (s.motor.running = true ∧ s.motor.deadlineValid = true ∧ s.motor.stopDeadlineMs ≤ s.io.now →
      ∃ t, exec .tickTimeout s = .next t ∧ t.motor.stopped ∧ t = { s with motor := t.motor }) ∧
    (¬(s.motor.running = true ∧ s.motor.deadlineValid = true ∧ s.motor.stopDeadlineMs ≤ s.io.now) →
      exec .tickTimeout s = .next s)) ∧
  ∀ s : Machine.State, s.env = [] → s.sup.mode = .run → s.disp.seq = .idle → s.loopPhase = .timeout →
    step s = exec .tickTimeout { s with loopPhase := .watchdog }

/-- `TICK_WATCHDOG` (45_system_commands.md R120): the stop action and nothing else when running and the silence is longer than
`WATCHDOG_MS` (strict), otherwise no change; `lastFrameMs` kept, no response; performed in phase (c) of every iteration
(46_polling_loop.md R126). -/
def Obligations.WatchdogTickStopsASilentRun : Prop :=
  (∀ s : Machine.State,
    (s.motor.running = true ∧ s.cfg.watchdogMs < s.io.now - s.sup.lastFrameMs →
      ∃ t, exec .tickWatchdog s = .next t ∧ t.motor.stopped ∧ t = { s with motor := t.motor }) ∧
    (¬(s.motor.running = true ∧ s.cfg.watchdogMs < s.io.now - s.sup.lastFrameMs) →
      exec .tickWatchdog s = .next s)) ∧
  ∀ s : Machine.State, s.env = [] → s.sup.mode = .run → s.disp.seq = .idle → s.loopPhase = .watchdog →
    step s = exec .tickWatchdog { s with loopPhase := .drain }

/-- The transitions of the logical motor state (43_motor_commands.md R97, R98, which the spec marks derived; D33). -/
def Obligations.MotorLogicTransitions : Prop :=
  ∀ s : Machine.State,
    (∀ l r d t, exec (.mvel l r d) s = .next t →
      t.motor.logic = if l = 0 ∧ r = 0 then .idle else if d = 0 then .indefiniteRun else .timedRun) ∧
    (∀ i t, i ∈ [Instr.mstop, .sreset, .shalt, .stopAction, .restart, .reset] → exec i s = .next t →
      t.motor.logic = .idle) ∧
    (∀ t, exec .tickTimeout s = .next t → t.motor.logic =
      if s.motor.logic = .timedRun ∧ s.motor.stopDeadlineMs ≤ s.io.now then .idle else s.motor.logic) ∧
    (∀ t, exec .tickWatchdog s = .next t → t.motor.logic =
      if s.cfg.watchdogMs < s.io.now - s.sup.lastFrameMs then .idle else s.motor.logic) ∧
    (∀ i t, i ∈ [Instr.dclear, .dstatus, .sping, .startRefresh, .dispStep, .clearBuffer, .crcInit, .crcCheck] →
      exec i s = .next t → t.motor.logic = s.motor.logic) ∧
    (∀ data t, exec (.dimg data) s = .next t ∨ exec (.dispReceive data) s = .next t → t.motor.logic = s.motor.logic)

/-! ### Display -/

/-- `DIMG` (44_display_commands.md R101, R104, 42_dispatcher.md R86, R87): a wrong length is answered `ERR`; then an absent buffer is
answered `ERR`; otherwise the whole buffer is replaced, the cursor at capacity (D37: log 28), ready set, the refresh started,
no response yet, and everything else kept. The length check stands before the guard (D41: log 28). Each error also makes
60_exceptions.md R143's return to header phase, from every state (log 29; in a run the parser is there already). -/
def Obligations.DimgReplacesTheImage : Prop :=
  ∀ (s : Machine.State) (data : List Byte), BufferInv s →
    (data.length ≠ s.cfg.displayCapacity →
      exec (.dimg data) s = .next { s with
        codec := { s.codec with phase := .hdr, hdrLen := 0 }
        io.txStream := s.io.txStream ++ encRsp .err (msgLength s.cfg.displayCapacity data.length) }) ∧
    (data.length = s.cfg.displayCapacity → s.cfg.displayPresent = false →
      exec (.dimg data) s = .next { s with
        codec := { s.codec with phase := .hdr, hdrLen := 0 }
        io.txStream := s.io.txStream ++ encRsp .err msgUnavailable }) ∧
    (data.length = s.cfg.displayCapacity → s.cfg.displayPresent = true →
      ∃ t, exec (.dimg data) s = .next t ∧
        t = { s with disp :=
          { buf := t.disp.buf, cursor := s.cfg.displayCapacity, ready := true, seq := .reset } } ∧
        t.bytes .disp s.cfg.displayCapacity = data ∧
        ∀ a, s.cfg.displayCapacity ≤ a → t.readByte .disp a = s.readByte .disp a)

/-- `DCLEAR`, `CLEAR_BUFFER` and `START_REFRESH` (44_display_commands.md R102, R104, R106, R113): the buffer blank, cursor 0, ready
false (D37: log 28); `DCLEAR` also starts the refresh and answers nothing yet; without a buffer `DCLEAR` is answered `ERR` (D41:
log 28) with 60_exceptions.md R143's return to header phase, from every state (log 29), and the clear changes nothing. -/
def Obligations.DclearBlanksAndRefreshes : Prop :=
  ∀ s : Machine.State,
    (s.cfg.displayPresent = true → ∃ t, exec .dclear s = .next t ∧
      t = { s with disp := { buf := t.disp.buf, cursor := 0, ready := false, seq := .reset } } ∧
      ∀ a, t.readByte .disp a = s.cfg.blankByte) ∧
    (s.cfg.displayPresent = false → exec .dclear s = .next { s with
      codec := { s.codec with phase := .hdr, hdrLen := 0 }
      io.txStream := s.io.txStream ++ encRsp .err msgUnavailable }) ∧
    (s.cfg.displayPresent = true → ∃ t, exec .clearBuffer s = .next t ∧
      t = { s with disp := { buf := t.disp.buf, cursor := 0, ready := false, seq := s.disp.seq } } ∧
      ∀ a, t.readByte .disp a = s.cfg.blankByte) ∧
    (s.cfg.displayPresent = false → exec .clearBuffer s = .next s) ∧
    exec .startRefresh s = .next { s with disp.seq := .reset }

/-- `DSTATUS` (44_display_commands.md R103, R104): one `OK` with the fill level and the ready flag (text M8, log 9) and nothing else; without a
buffer `ERR` (D41: log 28), with 60_exceptions.md R143's return to header phase, from every state (log 29), and nothing else. -/
def Obligations.DstatusReportsTheFill : Prop :=
  ∀ s : Machine.State,
    (s.cfg.displayPresent = true → exec .dstatus s = .next { s with
      io.txStream := s.io.txStream ++ encRsp .ok
        ([0x66, 0x69, 0x6C, 0x6C, 0x3D] ++ dec s.disp.cursor ++ [0x20, 0x72, 0x65, 0x61, 0x64, 0x79, 0x3D] ++
          (if s.disp.ready = true then [0x31] else [0x30])) }) ∧
    (s.cfg.displayPresent = false → exec .dstatus s = .next { s with
      codec := { s.codec with phase := .hdr, hdrLen := 0 }
      io.txStream := s.io.txStream ++ encRsp .err msgUnavailable })

/-- `DISP_STEP` (44_display_commands.md R107, R108) in each state of the sequence: the action (abstract, D38: log 32), the next state, and
nothing else; a waiting state with the panel busy has no step (R110, log 3), and `D_IDLE` has no row (log 15). -/
def Obligations.RefreshStepsInOrder : Prop :=
  ∀ s : Machine.State,
    let put (as : List PanelAction) (q : DispState) : Machine.State :=
      { s with disp.seq := q, io.panelStream := s.io.panelStream ++ as }
    (s.disp.seq = .reset → exec .dispStep s = .next (put [.reset] .waitBusy)) ∧
    (s.disp.seq = .waitBusy → exec .dispStep s = .next (if s.io.panelBusy = true then s else put [] .write)) ∧
    (s.disp.seq = .write → s.cfg.displayPresent = true →
      exec .dispStep s = .next (put [.init, .data (s.bytes .disp s.cfg.displayCapacity)] .refresh)) ∧
    (s.disp.seq = .refresh → exec .dispStep s = .next (put [.refresh] .waitDone)) ∧
    (s.disp.seq = .waitDone → exec .dispStep s = .next (if s.io.panelBusy = true then s else put [] .sleep)) ∧
    (s.disp.seq = .sleep → exec .dispStep s = .next
      { put [.sleep] .idle with
        io := { (put [.sleep] .idle).io with txStream := s.io.txStream ++ [0x4F, 0x4B, 0x30, 0x0A, 0x0A] } }) ∧
    (s.disp.seq = .idle → exec .dispStep s = .next s)

/-- `DISP_RECEIVE` (44_display_commands.md R111, R104): accepted in the running loop, it stores the chunk from the cursor on, ignores what
exceeds capacity, sets ready on reaching capacity, and changes nothing else; a call that is not accepted, or without a
buffer, changes nothing (log 16; the operation's details, D40: log 28). -/
def Obligations.DispReceiveFillsFromTheCursor : Prop :=
  ∀ (s : Machine.State) (chunk : List Byte), BufferInv s →
    (s.sup.mode = .run → s.disp.seq = .idle → s.cfg.displayPresent = true → s.disp.cursor ≤ s.cfg.displayCapacity →
      let k := min chunk.length (s.cfg.displayCapacity - s.disp.cursor)
      ∃ t, exec (.dispReceive chunk) s = .next t ∧
        t = { s with disp :=
          { buf := t.disp.buf
            cursor := s.disp.cursor + k
            ready := if s.disp.cursor + k = s.cfg.displayCapacity then true else s.disp.ready
            seq := s.disp.seq } } ∧
        (∀ i, i < k → t.readByte .disp (s.disp.cursor + i) = chunk.getD i 0) ∧
        ∀ a, (a < s.disp.cursor ∨ s.disp.cursor + k ≤ a) → t.readByte .disp a = s.readByte .disp a) ∧
    (s.sup.mode ≠ .run ∨ s.disp.seq ≠ .idle ∨ s.cfg.displayPresent = false → exec (.dispReceive chunk) s = .next s)

/-- One whole refresh with the panel never busy (44_display_commands.md R107, R108): six steps put the five actions in order with the
buffer as it stands, send the deferred `OK`, and change nothing else. -/
def Obligations.RefreshRunsToItsResponse : Prop :=
  ∀ s : Machine.State, s.env = [] → s.sup.mode = .run → s.disp.seq = .reset → s.cfg.displayPresent = true →
    s.io.panelBusy = false →
    runSteps 6 s = .next { s with
      disp.seq := .idle
      io := { s.io with
        panelStream := s.io.panelStream ++
          [.reset, .init, .data (s.bytes .disp s.cfg.displayCapacity), .refresh, .sleep]
        txStream := s.io.txStream ++ [0x4F, 0x4B, 0x30, 0x0A, 0x0A] } }

/-- The hang (44_display_commands.md R110, 60_exceptions.md R137): while the panel stays busy in a waiting state, no number of steps changes
anything (no timeout, D39: log 32; a turn without an enabled step changes nothing, log 3). -/
def Obligations.BusyPanelHangs : Prop :=
  ∀ (k : Nat) (s : Machine.State), s.env = [] → s.disp.seq = .waitBusy ∨ s.disp.seq = .waitDone →
    s.io.panelBusy = true → runSteps k s = .next s

/-! ### Supervisor and reset -/

/-- `SRESET` (45_system_commands.md R114, R115): one `OK`, one `restart_req` event, and the reset values of 10_state.md R29 with the
watchdog reference at `now`; without a buffer the reset raises one `boot_diag` event (70_reset_and_hazards.md R155; that every reset
raises it is the model's choice, log 8); the inputs, the other histories and event counts, and the parameters are kept (log 7;
the restart, D42, D43: log 26; the reset values of D52: log 31). -/
def Obligations.SresetRestartsAfterItsResponse : Prop :=
  ∀ s : Machine.State, ∃ t, exec .sreset s = .next t ∧ ResetValues s.cfg s.io.now t ∧
    t.io = { s.io with
      rxQueue := [], txStream := s.io.txStream ++ [0x4F, 0x4B, 0x30, 0x0A, 0x0A]
      restartReq := s.io.restartReq + 1
      bootDiag := s.io.bootDiag + (if s.cfg.displayPresent = true then 0 else 1) } ∧
    t.cfg = s.cfg ∧ t.env = s.env

/-- `RESTART` and `RESET` (45_system_commands.md R115, 70_reset_and_hazards.md R153): the reset values, the queue discarded (D43: log 26),
no response and no panel action, one `restart_req` event for the restart; without a buffer one `boot_diag` event, which R155
gives for boot and the model raises at every reset (log 8); the rest kept (log 7; the reset values of D52: log 31). -/
def Obligations.ResetLeavesTheResetValues : Prop :=
  ∀ s : Machine.State,
    (∃ t, exec .reset s = .next t ∧ ResetValues s.cfg s.io.now t ∧
      t.io = { s.io with
        rxQueue := [], bootDiag := s.io.bootDiag + (if s.cfg.displayPresent = true then 0 else 1) } ∧
      t.cfg = s.cfg ∧ t.env = s.env) ∧
    (∃ t, exec .restart s = .next t ∧ ResetValues s.cfg s.io.now t ∧
      t.io = { s.io with
        rxQueue := [], restartReq := s.io.restartReq + 1
        bootDiag := s.io.bootDiag + (if s.cfg.displayPresent = true then 0 else 1) } ∧
      t.cfg = s.cfg ∧ t.env = s.env)

/-- `SHALT` (45_system_commands.md R116): the stop action, one `OK`, `mode` halted and one `sleep_req` event; the display and everything
else kept. -/
def Obligations.ShaltStopsAndSleeps : Prop :=
  ∀ s : Machine.State, ∃ t, exec .shalt s = .next t ∧ t.motor.stopped ∧
    t = { s with
      motor := t.motor
      sup.mode := .halted
      io := { s.io with
        txStream := s.io.txStream ++ [0x4F, 0x4B, 0x30, 0x0A, 0x0A], sleepReq := s.io.sleepReq + 1 } }

/-- `SPING` (45_system_commands.md R118): `OK` with `PONG` (text M11, log 9) and no state change. -/
def Obligations.SpingOnlyAnswers : Prop :=
  ∀ s : Machine.State,
    exec .sping s = .next { s with
      io.txStream := s.io.txStream ++ [0x4F, 0x4B, 0x34, 0x0A, 0x50, 0x4F, 0x4E, 0x47, 0x0A] }

/-- The reset state (10_state.md R29; the values of D52: log 31) and, of the model's own choices, the parameters T0 (log 1), `now` and
`panel_busy` 0 (log 6), the histories empty with no event raised (log 8), and nothing scheduled (log 2). Of the contents of `hdr_buf`
and `pay_buf` and of `stopDeadlineMs` nothing is said. -/
def Obligations.ResetStateHoldsTheResetValues : Prop :=
  ResetValues Machine.State.reset.cfg 0 Machine.State.reset ∧ Machine.State.reset.cfg = Config.t0 ∧
  Machine.State.reset.io.now = 0 ∧ Machine.State.reset.io.panelBusy = false ∧
  Machine.State.reset.io.txStream = [] ∧ Machine.State.reset.io.panelStream = [] ∧
  Machine.State.reset.io.restartReq = 0 ∧ Machine.State.reset.io.sleepReq = 0 ∧ Machine.State.reset.io.bootDiag = 0 ∧
  Machine.State.reset.env = [] ∧ core.reset = Machine.State.reset

/-! ### The step -/

/-- The device step (46_polling_loop.md R123 to R126): by `mode`, then `disp_state`, then `loop_phase`; a step runs the operation selected,
with the pop and the move of `loop_phase` done (atomic, D4: log 33; whose turn it is, log 2; a halted device's turn changes nothing, log 3). -/
def Obligations.DeviceStepRunsTheSelectedOperation : Prop :=
  ∀ (s : Machine.State) (rest : List EnvStep), (s.env = [] ∧ rest = []) ∨ s.env = .device :: rest →
    let u : Machine.State := { s with env := rest }
    (s.sup.mode = .halted → step s = .next u) ∧
    (s.sup.mode = .run → s.disp.seq ≠ .idle → step s = exec .dispStep u) ∧
    (s.sup.mode = .run → s.disp.seq = .idle → s.loopPhase = .drain → s.io.rxQueue = [] →
      step s = .next { u with loopPhase := .timeout }) ∧
    (∀ b bs, s.sup.mode = .run → s.disp.seq = .idle → s.loopPhase = .drain → s.io.rxQueue = b :: bs →
      step s = exec (.rxByte b) { u with io.rxQueue := bs }) ∧
    (s.sup.mode = .run → s.disp.seq = .idle → s.loopPhase = .timeout →
      step s = exec .tickTimeout { u with loopPhase := .watchdog }) ∧
    (s.sup.mode = .run → s.disp.seq = .idle → s.loopPhase = .watchdog →
      step s = exec .tickWatchdog { u with loopPhase := .drain })

/-- The environment steps (46_polling_loop.md R128, 44_display_commands.md R111, 70_reset_and_hazards.md R154): each entry of the script does exactly its agent's move
(the script is the model's, log 2). -/
def Obligations.EnvironmentMovesOnlyItsInputs : Prop :=
  ∀ (s : Machine.State) (rest : List EnvStep),
    (∀ bs, s.env = .host bs :: rest → step s = .next { s with env := rest, io.rxQueue := s.io.rxQueue ++ bs }) ∧
    (∀ ms, s.env = .clock ms :: rest → step s = .next { s with env := rest, io.now := s.io.now + ms }) ∧
    (∀ b, s.env = .panel b :: rest → step s = .next { s with env := rest, io.panelBusy := b }) ∧
    (∀ c, s.env = .chunk c :: rest → step s = exec (.dispReceive c) { s with env := rest }) ∧
    (s.env = .extReset :: rest → step s = exec .reset { s with env := rest })

/-- A table word placed for the fetch is run by the very next step as its command with operands of zeros (log 17): for `MVEL`, `MSTOP`
and `SPING`, from the reset state. -/
def Obligations.PlacedCommandsRunNext : Prop :=
  ∀ (i : Instr) (nbits w : Nat),
    (i, nbits, w) ∈ [(Instr.mvel 0 0 0, 32, 0x4C45564D), (.mstop, 40, 0x504F54534D), (.sping, 40, 0x474E495053)] →
    decodeTableWord nbits w = some i ∧
    ∃ u, step (Machine.State.reset.withFetchWord nbits w) = exec i u ∧
      u.motor = Machine.State.reset.motor ∧ u.disp = Machine.State.reset.disp ∧ u.io = Machine.State.reset.io ∧
      u.codec.phase = .hdr

/-- The reset state meets the invariant (10_state.md R29, with the choices of logs 1, 4, 5 and 6). -/
def Obligations.ResetMeetsTheInvariant : Prop := Inv Machine.State.reset

/-- Every step, of the device or of the environment, keeps the invariant of the machine: register ranges (10_state.md R13 to R17), the
running CRC (40_crc_validator.md R66), MotorState (43_motor_commands.md R99), cursor and ready (44_display_commands.md R105), the
sequencing registers, and the canonical bounded buffers. -/
def Obligations.StepKeepsTheInvariant : Prop := ∀ s t : Machine.State, Inv s → step s = .next t → Inv t

/-- From every state that meets the invariant a step answers a next state: no frame, tick, refresh, environment move or reset ends
in a fault or a refusal (41_frame_codec.md R69, 60_exceptions.md R136). -/
def Obligations.StepNeverStops : Prop := ∀ s : Machine.State, Inv s → ∃ t, step s = .next t

/-- A step sends nothing or exactly one whole response, `OK` or `ERR`, never `PENDING`, of at most `MSG_MAX` bytes (20_memory.md R35,
30_encoding.md R55, R59, 41_frame_codec.md R81, 00_scope.md R6 with D8). -/
def Obligations.StepSendsAtMostOneResponse : Prop :=
  ∀ s t : Machine.State, Inv s → step s = .next t →
    t.io.txStream = s.io.txStream ∨
    ∃ (st : Status) (msg : List Byte), (st = .ok ∨ st = .err) ∧ msg.length ≤ s.cfg.msgMax ∧
      t.io.txStream = s.io.txStream ++ encRsp st msg

/-- The histories only grow and the clock never goes back (10_state.md R24, R27, 00_scope.md R9, 20_memory.md R44; the event counts: log 8),
no step writes the parameters, over a reset too (the model's choice, log 7), and each step consumes one entry of the model's script, if
there is one (log 2). -/
def Obligations.HistoriesOnlyGrow : Prop :=
  ∀ s t : Machine.State, step s = .next t →
    s.io.txStream <+: t.io.txStream ∧ s.io.panelStream <+: t.io.panelStream ∧ s.io.now ≤ t.io.now ∧
    s.io.restartReq ≤ t.io.restartReq ∧ s.io.sleepReq ≤ t.io.sleepReq ∧ s.io.bootDiag ≤ t.io.bootDiag ∧
    t.cfg = s.cfg ∧ t.env = s.env.tail

/-- Who may write MotorState (43_motor_commands.md R95, marked derived there): a step that changes it leaves the motors stopped, or is the hand-off of an `MVEL` of
six bytes. -/
def Obligations.OnlyMvelStartsTheMotors : Prop :=
  ∀ s t : Machine.State, step s = .next t → t.motor ≠ s.motor →
    t.motor.stopped ∨ (AtHandOff s ∧ s.codec.cmdName = nameBytes .mvel ∧ s.codec.expLen = 6)

/-- Which steps stamp the watchdog (45_system_commands.md R119): a hand-off always does, with the `now` of the step; besides it only an external
reset writes the reference time (D28, D29: log 24). -/
def Obligations.OnlyHandOffsAndResetsStampTheWatchdog : Prop :=
  ∀ s t : Machine.State, step s = .next t →
    (AtHandOff s → t.sup.lastFrameMs = s.io.now) ∧
    (t.sup.lastFrameMs ≠ s.sup.lastFrameMs →
      t.sup.lastFrameMs = s.io.now ∧ (AtHandOff s ∨ ∃ rest, s.env = .extReset :: rest))

/-- A halted device does nothing until an external reset (45_system_commands.md R117), over any number of steps: its registers and its
outputs keep their values (D44: log 25; its turns change nothing, log 3), and the host's bytes pile up unread. -/
def Obligations.HaltedUntilExternalReset : Prop :=
  ∀ (k : Nat) (s : Machine.State), s.sup.mode = .halted → .extReset ∉ s.env →
    ∃ t, runSteps k s = .next t ∧
      t = { s with env := t.env, io := { s.io with rxQueue := t.io.rxQueue, now := t.io.now, panelBusy := t.io.panelBusy } } ∧
      s.io.rxQueue <+: t.io.rxQueue

/-- An external reset acts at once in every state, a refresh in progress, a hang and `HALTED` among them (70_reset_and_hazards.md R154,
D45: log 26; the reset values of D52: log 31). -/
def Obligations.ExternalResetActsInEveryState : Prop :=
  ∀ (s : Machine.State) (rest : List EnvStep), s.env = .extReset :: rest →
    ∃ t, step s = .next t ∧ ResetValues s.cfg s.io.now t ∧ t.env = rest ∧
      t.io.txStream = s.io.txStream ∧ t.io.panelStream = s.io.panelStream

/-- While a refresh runs, no step but an external reset reads the queue, parses, stamps, ticks or writes the buffer (44_display_commands.md
R109, 46_polling_loop.md R127). -/
def Obligations.RefreshBlocksAllService : Prop :=
  ∀ s t : Machine.State, s.sup.mode = .run → s.disp.seq ≠ .idle → (∀ rest, s.env ≠ .extReset :: rest) → step s = .next t →
    t.codec = s.codec ∧ t.motor = s.motor ∧ t.sup = s.sup ∧ t.loopPhase = s.loopPhase ∧
    t.disp = { s.disp with seq := t.disp.seq } ∧ s.io.rxQueue <+: t.io.rxQueue

/-- A due stop happens within one iteration (43_motor_commands.md R96, 45_system_commands.md R120, R122): with nothing queued, nothing scheduled and
no refresh, a run whose deadline is reached or whose link has been silent too long is stopped after three steps from any
loop phase, and no response is sent. -/
def Obligations.DueStopsHappenWithinAnIteration : Prop :=
  ∀ s : Machine.State, s.env = [] → s.sup.mode = .run → s.disp.seq = .idle → s.io.rxQueue = [] → s.motor.running = true →
    (s.cfg.watchdogMs < s.io.now - s.sup.lastFrameMs ∨
      (s.motor.deadlineValid = true ∧ s.motor.stopDeadlineMs ≤ s.io.now)) →
    ∃ t, runSteps 3 s = .next t ∧ t.motor.stopped ∧ t.io = s.io ∧ t.sup = s.sup ∧ t.loopPhase = s.loopPhase

/-- A well-formed command's frame is executed (41_frame_codec.md R82 item 7, 30_encoding.md R60, R61): fed byte by byte from a line start,
it reaches its hand-off, where the command runs with the watchdog stamped (D28: log 24), the parser at a line start, the bytes after
the frame still queued, and everything outside the codec as it was. Frames of other names or lengths: the last statement. -/
def Obligations.ConformingFrameIsExecuted : Prop :=
  ∀ (s : Machine.State) (i : Instr) (c : CommandName) (rest : List Byte),
    Inv s → i.wf s.cfg = true → commandOf i = some c →
    s.env = [] → s.sup.mode = .run → s.disp.seq = .idle → s.loopPhase = .drain →
    s.codec.phase = .hdr → s.codec.hdrLen = 0 → s.io.rxQueue = encode i ++ rest →
    ∃ u, runSteps (encode i).length s = exec i u ∧
      u = { s with codec := u.codec, sup.lastFrameMs := s.io.now, io.rxQueue := rest } ∧
      u.codec.phase = .hdr ∧ u.codec.hdrLen = 0 ∧ u.codec.cmdName = nameBytes c

/-- A frame corrupted in one payload byte on the way is answered `ERR` and runs no handler (41_frame_codec.md R80, 40_crc_validator.md R68):
at the terminator of a checksum field made for another payload that differs in one byte, motor, display and supervisor
registers stay as they are. -/
def Obligations.CorruptedPayloadRunsNoHandler : Prop :=
  ∀ (s : Machine.State) (p q : List Byte) (b b' : Byte), Inv s → s.codec.phase = .ck → s.codec.ckCnt = 4 → b ≠ b' →
    s.bytes .pay s.codec.expLen = p ++ [b] ++ q → s.codec.ckAcc = crc16 (p ++ [b'] ++ q) →
    ∃ t, exec (.rxByte 0x0A) s = .next t ∧ t.motor = s.motor ∧ t.disp = s.disp ∧ t.sup = s.sup ∧
      t.codec.phase = .hdr ∧ ∃ msg, t.io.txStream = s.io.txStream ++ encRsp .err msg

/-- Every conforming frame reaches its hand-off (41_frame_codec.md R82 item 7, 30_encoding.md R60): `ENC_CMD(name, P)` for every name
without a digit or `TERM` and every payload, within the two buffers' bounds, also an unknown name, an empty one (D20: log 23) or a
length the command does not take. Fed byte by byte from a line start it ends in the `DISPATCH` of that name and payload, with the
watchdog stamped (D28: log 24), the parser at a line start, the payload in its buffer, the bytes after the frame still queued, and
everything outside the codec as it was. -/
def Obligations.EveryConformingFrameIsDispatched : Prop :=
  ∀ (s : Machine.State) (name p rest : List Byte), Inv s →
    (∀ b ∈ name, isDigit b = false ∧ b ≠ 0x0A) → name.length + (dec p.length).length ≤ s.cfg.cmdBufMax →
    p.length ≤ s.cfg.payloadMax →
    s.env = [] → s.sup.mode = .run → s.disp.seq = .idle → s.loopPhase = .drain →
    s.codec.phase = .hdr → s.codec.hdrLen = 0 → s.io.rxQueue = encCmd name p ++ rest →
    ∃ u, runSteps (encCmd name p).length s = exec (.dispatch name p) u ∧
      u = { s with codec := u.codec, sup.lastFrameMs := s.io.now, io.rxQueue := rest } ∧
      u.codec.phase = .hdr ∧ u.codec.hdrLen = 0 ∧ u.codec.cmdName = name ∧ u.codec.expLen = p.length ∧
      u.bytes .pay p.length = p
end

