-- ==== Sys2Proof/Laws/State.lean ====
section
/-! SUPPORT. The fields of a state after each named update: one lemma per field per update, so that no proof unfolds a record
update. -/

namespace Sys2Proof.Machine

/-! ### txPut -/

@[simp] theorem txPut_codec (bs : List Byte) (s : State) : (txPut bs s).codec = s.codec := rfl
@[simp] theorem txPut_motor (bs : List Byte) (s : State) : (txPut bs s).motor = s.motor := rfl
@[simp] theorem txPut_sup (bs : List Byte) (s : State) : (txPut bs s).sup = s.sup := rfl
@[simp] theorem txPut_disp (bs : List Byte) (s : State) : (txPut bs s).disp = s.disp := rfl
@[simp] theorem txPut_loopPhase (bs : List Byte) (s : State) : (txPut bs s).loopPhase = s.loopPhase := rfl
@[simp] theorem txPut_io (bs : List Byte) (s : State) : (txPut bs s).io = { s.io with txStream := s.io.txStream ++ bs } := rfl
@[simp] theorem txPut_cfg (bs : List Byte) (s : State) : (txPut bs s).cfg = s.cfg := rfl
@[simp] theorem txPut_env (bs : List Byte) (s : State) : (txPut bs s).env = s.env := rfl

/-! ### respond -/

@[simp] theorem respond_codec (st : Status) (msg : List Byte) (s : State) : (respond st msg s).codec = s.codec := rfl
@[simp] theorem respond_motor (st : Status) (msg : List Byte) (s : State) : (respond st msg s).motor = s.motor := rfl
@[simp] theorem respond_sup (st : Status) (msg : List Byte) (s : State) : (respond st msg s).sup = s.sup := rfl
@[simp] theorem respond_disp (st : Status) (msg : List Byte) (s : State) : (respond st msg s).disp = s.disp := rfl
@[simp] theorem respond_loopPhase (st : Status) (msg : List Byte) (s : State) : (respond st msg s).loopPhase = s.loopPhase := rfl
@[simp] theorem respond_io (st : Status) (msg : List Byte) (s : State) : (respond st msg s).io = { s.io with txStream := s.io.txStream ++ encRsp st msg } := rfl
@[simp] theorem respond_cfg (st : Status) (msg : List Byte) (s : State) : (respond st msg s).cfg = s.cfg := rfl
@[simp] theorem respond_env (st : Status) (msg : List Byte) (s : State) : (respond st msg s).env = s.env := rfl

/-! ### panelPut -/

@[simp] theorem panelPut_codec (as : List PanelAction) (s : State) : (panelPut as s).codec = s.codec := rfl
@[simp] theorem panelPut_motor (as : List PanelAction) (s : State) : (panelPut as s).motor = s.motor := rfl
@[simp] theorem panelPut_sup (as : List PanelAction) (s : State) : (panelPut as s).sup = s.sup := rfl
@[simp] theorem panelPut_disp (as : List PanelAction) (s : State) : (panelPut as s).disp = s.disp := rfl
@[simp] theorem panelPut_loopPhase (as : List PanelAction) (s : State) : (panelPut as s).loopPhase = s.loopPhase := rfl
@[simp] theorem panelPut_io (as : List PanelAction) (s : State) : (panelPut as s).io = { s.io with panelStream := s.io.panelStream ++ as } := rfl
@[simp] theorem panelPut_cfg (as : List PanelAction) (s : State) : (panelPut as s).cfg = s.cfg := rfl
@[simp] theorem panelPut_env (as : List PanelAction) (s : State) : (panelPut as s).env = s.env := rfl

/-! ### toHeader -/

@[simp] theorem toHeader_codec (s : State) : (toHeader s).codec = { s.codec with phase := .hdr, hdrLen := 0 } := rfl
@[simp] theorem toHeader_motor (s : State) : (toHeader s).motor = s.motor := rfl
@[simp] theorem toHeader_sup (s : State) : (toHeader s).sup = s.sup := rfl
@[simp] theorem toHeader_disp (s : State) : (toHeader s).disp = s.disp := rfl
@[simp] theorem toHeader_loopPhase (s : State) : (toHeader s).loopPhase = s.loopPhase := rfl
@[simp] theorem toHeader_io (s : State) : (toHeader s).io = s.io := rfl
@[simp] theorem toHeader_cfg (s : State) : (toHeader s).cfg = s.cfg := rfl
@[simp] theorem toHeader_env (s : State) : (toHeader s).env = s.env := rfl

/-! ### stopMotors -/

@[simp] theorem stopMotors_codec (s : State) : (stopMotors s).codec = s.codec := rfl
@[simp] theorem stopMotors_motor (s : State) : (stopMotors s).motor =
    { s.motor with leftDuty := 0, rightDuty := 0, running := false, deadlineValid := false } := rfl
@[simp] theorem stopMotors_sup (s : State) : (stopMotors s).sup = s.sup := rfl
@[simp] theorem stopMotors_disp (s : State) : (stopMotors s).disp = s.disp := rfl
@[simp] theorem stopMotors_loopPhase (s : State) : (stopMotors s).loopPhase = s.loopPhase := rfl
@[simp] theorem stopMotors_io (s : State) : (stopMotors s).io = s.io := rfl
@[simp] theorem stopMotors_cfg (s : State) : (stopMotors s).cfg = s.cfg := rfl
@[simp] theorem stopMotors_env (s : State) : (stopMotors s).env = s.env := rfl

/-! ### beginRefresh -/

@[simp] theorem beginRefresh_codec (s : State) : (beginRefresh s).codec = s.codec := rfl
@[simp] theorem beginRefresh_motor (s : State) : (beginRefresh s).motor = s.motor := rfl
@[simp] theorem beginRefresh_sup (s : State) : (beginRefresh s).sup = s.sup := rfl
@[simp] theorem beginRefresh_disp (s : State) : (beginRefresh s).disp = { s.disp with seq := .reset } := rfl
@[simp] theorem beginRefresh_loopPhase (s : State) : (beginRefresh s).loopPhase = s.loopPhase := rfl
@[simp] theorem beginRefresh_io (s : State) : (beginRefresh s).io = s.io := rfl
@[simp] theorem beginRefresh_cfg (s : State) : (beginRefresh s).cfg = s.cfg := rfl
@[simp] theorem beginRefresh_env (s : State) : (beginRefresh s).env = s.env := rfl

/-! ### setSeq -/

@[simp] theorem setSeq_codec (q : DispState) (s : State) : (setSeq q s).codec = s.codec := rfl
@[simp] theorem setSeq_motor (q : DispState) (s : State) : (setSeq q s).motor = s.motor := rfl
@[simp] theorem setSeq_sup (q : DispState) (s : State) : (setSeq q s).sup = s.sup := rfl
@[simp] theorem setSeq_disp (q : DispState) (s : State) : (setSeq q s).disp = { s.disp with seq := q } := rfl
@[simp] theorem setSeq_loopPhase (q : DispState) (s : State) : (setSeq q s).loopPhase = s.loopPhase := rfl
@[simp] theorem setSeq_io (q : DispState) (s : State) : (setSeq q s).io = s.io := rfl
@[simp] theorem setSeq_cfg (q : DispState) (s : State) : (setSeq q s).cfg = s.cfg := rfl
@[simp] theorem setSeq_env (q : DispState) (s : State) : (setSeq q s).env = s.env := rfl

/-! ### stampFrame -/

@[simp] theorem stampFrame_codec (s : State) : (stampFrame s).codec = s.codec := rfl
@[simp] theorem stampFrame_motor (s : State) : (stampFrame s).motor = s.motor := rfl
@[simp] theorem stampFrame_sup (s : State) : (stampFrame s).sup = { s.sup with lastFrameMs := s.io.now } := rfl
@[simp] theorem stampFrame_disp (s : State) : (stampFrame s).disp = s.disp := rfl
@[simp] theorem stampFrame_loopPhase (s : State) : (stampFrame s).loopPhase = s.loopPhase := rfl
@[simp] theorem stampFrame_io (s : State) : (stampFrame s).io = s.io := rfl
@[simp] theorem stampFrame_cfg (s : State) : (stampFrame s).cfg = s.cfg := rfl
@[simp] theorem stampFrame_env (s : State) : (stampFrame s).env = s.env := rfl

/-! ### resetState -/

@[simp] theorem resetState_codec (s : State) : (resetState s).codec = State.reset.codec := rfl
@[simp] theorem resetState_motor (s : State) : (resetState s).motor = State.reset.motor := rfl
@[simp] theorem resetState_sup (s : State) : (resetState s).sup = { lastFrameMs := s.io.now, mode := .run } := rfl
@[simp] theorem resetState_disp (s : State) : (resetState s).disp = State.reset.disp := rfl
@[simp] theorem resetState_loopPhase (s : State) : (resetState s).loopPhase = .drain := rfl
@[simp] theorem resetState_io (s : State) : (resetState s).io =
    { s.io with
      rxQueue := [], bootDiag := if s.cfg.displayPresent then s.io.bootDiag else s.io.bootDiag + 1 } := rfl
@[simp] theorem resetState_cfg (s : State) : (resetState s).cfg = s.cfg := rfl
@[simp] theorem resetState_env (s : State) : (resetState s).env = s.env := rfl

/-! ### restartState -/

@[simp] theorem restartState_codec (s : State) : (restartState s).codec = State.reset.codec := rfl
@[simp] theorem restartState_motor (s : State) : (restartState s).motor = State.reset.motor := rfl
@[simp] theorem restartState_sup (s : State) : (restartState s).sup = { lastFrameMs := s.io.now, mode := .run } := rfl
@[simp] theorem restartState_disp (s : State) : (restartState s).disp = State.reset.disp := rfl
@[simp] theorem restartState_loopPhase (s : State) : (restartState s).loopPhase = .drain := rfl
@[simp] theorem restartState_io (s : State) : (restartState s).io =
    { s.io with
      rxQueue := [], restartReq := s.io.restartReq + 1,
      bootDiag := if s.cfg.displayPresent then s.io.bootDiag else s.io.bootDiag + 1 } := rfl
@[simp] theorem restartState_cfg (s : State) : (restartState s).cfg = s.cfg := rfl
@[simp] theorem restartState_env (s : State) : (restartState s).env = s.env := rfl

/-! ### setVelocity -/

@[simp] theorem setVelocity_codec (l r d : Word16) (s : State) : (setVelocity l r d s).codec = s.codec := rfl
@[simp] theorem setVelocity_motor (l r d : Word16) (s : State) : (setVelocity l r d s).motor =
    { leftDuty := clampDuty l.toInt, rightDuty := clampDuty r.toInt, running := runningFlag l.toInt r.toInt,
      deadlineValid := deadlineFlag d.toNat,
      stopDeadlineMs := if 0 < d.toNat then s.io.now + d.toNat else s.motor.stopDeadlineMs } := rfl
@[simp] theorem setVelocity_sup (l r d : Word16) (s : State) : (setVelocity l r d s).sup = s.sup := rfl
@[simp] theorem setVelocity_disp (l r d : Word16) (s : State) : (setVelocity l r d s).disp = s.disp := rfl
@[simp] theorem setVelocity_loopPhase (l r d : Word16) (s : State) : (setVelocity l r d s).loopPhase = s.loopPhase := rfl
@[simp] theorem setVelocity_io (l r d : Word16) (s : State) : (setVelocity l r d s).io = s.io := rfl
@[simp] theorem setVelocity_cfg (l r d : Word16) (s : State) : (setVelocity l r d s).cfg = s.cfg := rfl
@[simp] theorem setVelocity_env (l r d : Word16) (s : State) : (setVelocity l r d s).env = s.env := rfl

/-! ### enterSleep -/

@[simp] theorem enterSleep_codec (s : State) : (enterSleep s).codec = s.codec := rfl
@[simp] theorem enterSleep_motor (s : State) : (enterSleep s).motor = s.motor := rfl
@[simp] theorem enterSleep_sup (s : State) : (enterSleep s).sup = { s.sup with mode := .halted } := rfl
@[simp] theorem enterSleep_disp (s : State) : (enterSleep s).disp = s.disp := rfl
@[simp] theorem enterSleep_loopPhase (s : State) : (enterSleep s).loopPhase = s.loopPhase := rfl
@[simp] theorem enterSleep_io (s : State) : (enterSleep s).io = { s.io with sleepReq := s.io.sleepReq + 1 } := rfl
@[simp] theorem enterSleep_cfg (s : State) : (enterSleep s).cfg = s.cfg := rfl
@[simp] theorem enterSleep_env (s : State) : (enterSleep s).env = s.env := rfl

/-! ### crcStart -/

@[simp] theorem crcStart_codec (s : State) : (crcStart s).codec = { s.codec with crcReg := crcInitial } := rfl
@[simp] theorem crcStart_motor (s : State) : (crcStart s).motor = s.motor := rfl
@[simp] theorem crcStart_sup (s : State) : (crcStart s).sup = s.sup := rfl
@[simp] theorem crcStart_disp (s : State) : (crcStart s).disp = s.disp := rfl
@[simp] theorem crcStart_loopPhase (s : State) : (crcStart s).loopPhase = s.loopPhase := rfl
@[simp] theorem crcStart_io (s : State) : (crcStart s).io = s.io := rfl
@[simp] theorem crcStart_cfg (s : State) : (crcStart s).cfg = s.cfg := rfl
@[simp] theorem crcStart_env (s : State) : (crcStart s).env = s.env := rfl

/-! ### crcStep -/

@[simp] theorem crcStep_codec (b : Byte) (s : State) : (crcStep b s).codec = { s.codec with crcReg := crcUpdate s.codec.crcReg b } := rfl
@[simp] theorem crcStep_motor (b : Byte) (s : State) : (crcStep b s).motor = s.motor := rfl
@[simp] theorem crcStep_sup (b : Byte) (s : State) : (crcStep b s).sup = s.sup := rfl
@[simp] theorem crcStep_disp (b : Byte) (s : State) : (crcStep b s).disp = s.disp := rfl
@[simp] theorem crcStep_loopPhase (b : Byte) (s : State) : (crcStep b s).loopPhase = s.loopPhase := rfl
@[simp] theorem crcStep_io (b : Byte) (s : State) : (crcStep b s).io = s.io := rfl
@[simp] theorem crcStep_cfg (b : Byte) (s : State) : (crcStep b s).cfg = s.cfg := rfl
@[simp] theorem crcStep_env (b : Byte) (s : State) : (crcStep b s).env = s.env := rfl

/-! ### acceptHeader -/

@[simp] theorem acceptHeader_codec (name : List Byte) (n : Nat) (s : State) : (acceptHeader name n s).codec =
    { s.codec with
      cmdName := name, expLen := n, payCnt := 0, hdrLen := 0, crcReg := crcInitial,
      phase := if 0 < n then .pay else .payterm } := rfl
@[simp] theorem acceptHeader_motor (name : List Byte) (n : Nat) (s : State) : (acceptHeader name n s).motor = s.motor := rfl
@[simp] theorem acceptHeader_sup (name : List Byte) (n : Nat) (s : State) : (acceptHeader name n s).sup = s.sup := rfl
@[simp] theorem acceptHeader_disp (name : List Byte) (n : Nat) (s : State) : (acceptHeader name n s).disp = s.disp := rfl
@[simp] theorem acceptHeader_loopPhase (name : List Byte) (n : Nat) (s : State) : (acceptHeader name n s).loopPhase = s.loopPhase := rfl
@[simp] theorem acceptHeader_io (name : List Byte) (n : Nat) (s : State) : (acceptHeader name n s).io = s.io := rfl
@[simp] theorem acceptHeader_cfg (name : List Byte) (n : Nat) (s : State) : (acceptHeader name n s).cfg = s.cfg := rfl
@[simp] theorem acceptHeader_env (name : List Byte) (n : Nat) (s : State) : (acceptHeader name n s).env = s.env := rfl

/-! ### setMem: a buffer and nothing else -/

@[simp] theorem setMem_motor (s : State) (sp : Space) (m : Mem) : (s.setMem sp m).motor = s.motor := by cases sp <;> rfl
@[simp] theorem setMem_sup (s : State) (sp : Space) (m : Mem) : (s.setMem sp m).sup = s.sup := by cases sp <;> rfl
@[simp] theorem setMem_loopPhase (s : State) (sp : Space) (m : Mem) : (s.setMem sp m).loopPhase = s.loopPhase := by cases sp <;> rfl
@[simp] theorem setMem_io (s : State) (sp : Space) (m : Mem) : (s.setMem sp m).io = s.io := by cases sp <;> rfl
@[simp] theorem setMem_cfg (s : State) (sp : Space) (m : Mem) : (s.setMem sp m).cfg = s.cfg := by cases sp <;> rfl
@[simp] theorem setMem_env (s : State) (sp : Space) (m : Mem) : (s.setMem sp m).env = s.env := by cases sp <;> rfl
@[simp] theorem setMem_hdr (s : State) (m : Mem) : s.setMem .hdr m = { s with codec.hdrBuf := m } := rfl
@[simp] theorem setMem_pay (s : State) (m : Mem) : s.setMem .pay m = { s with codec.payBuf := m } := rfl
@[simp] theorem setMem_disp (s : State) (m : Mem) : s.setMem .disp m = { s with disp.buf := m } := rfl
@[simp] theorem mem_hdr (s : State) : s.mem .hdr = s.codec.hdrBuf := rfl
@[simp] theorem mem_pay (s : State) : s.mem .pay = s.codec.payBuf := rfl
@[simp] theorem mem_disp (s : State) : s.mem .disp = s.disp.buf := rfl

/-! ### clearDisplay -/

@[simp] theorem clearDisplay_codec (s : State) : (clearDisplay s).codec = s.codec := by unfold clearDisplay; split <;> rfl
@[simp] theorem clearDisplay_motor (s : State) : (clearDisplay s).motor = s.motor := by unfold clearDisplay; split <;> rfl
@[simp] theorem clearDisplay_sup (s : State) : (clearDisplay s).sup = s.sup := by unfold clearDisplay; split <;> rfl
@[simp] theorem clearDisplay_loopPhase (s : State) : (clearDisplay s).loopPhase = s.loopPhase := by unfold clearDisplay; split <;> rfl
@[simp] theorem clearDisplay_io (s : State) : (clearDisplay s).io = s.io := by unfold clearDisplay; split <;> rfl
@[simp] theorem clearDisplay_cfg (s : State) : (clearDisplay s).cfg = s.cfg := by unfold clearDisplay; split <;> rfl
@[simp] theorem clearDisplay_env (s : State) : (clearDisplay s).env = s.env := by unfold clearDisplay; split <;> rfl
theorem clearDisplay_disp (s : State) :
    (clearDisplay s).disp =
      if s.cfg.displayPresent then { s.disp with buf := [], cursor := 0, ready := false } else s.disp := by
  unfold clearDisplay; split <;> rfl

/-! ### raiseError: the response, the return to header phase, nothing else (60_exceptions.md R143) -/

@[simp] theorem raiseError_codec (e : FrameError) (s : State) :
    (raiseError e s).codec = { s.codec with phase := .hdr, hdrLen := 0 } := by cases e <;> rfl
@[simp] theorem raiseError_motor (e : FrameError) (s : State) : (raiseError e s).motor = s.motor := by cases e <;> rfl
@[simp] theorem raiseError_sup (e : FrameError) (s : State) : (raiseError e s).sup = s.sup := by cases e <;> rfl
@[simp] theorem raiseError_disp (e : FrameError) (s : State) : (raiseError e s).disp = s.disp := by cases e <;> rfl
@[simp] theorem raiseError_loopPhase (e : FrameError) (s : State) : (raiseError e s).loopPhase = s.loopPhase := by cases e <;> rfl
@[simp] theorem raiseError_cfg (e : FrameError) (s : State) : (raiseError e s).cfg = s.cfg := by cases e <;> rfl
@[simp] theorem raiseError_env (e : FrameError) (s : State) : (raiseError e s).env = s.env := by cases e <;> rfl
theorem raiseError_io (e : FrameError) (s : State) :
    (raiseError e s).io =
      { s.io with
        txStream := s.io.txStream ++ ((errorMessage e).map (encRsp .err)).getD [] } := by
  cases e <;> simp [raiseError, errorMessage, toHeader, respond, txPut]

end Sys2Proof.Machine
end

