-- ==== Sys2Proof/Laws/Memory.lean ====
section
/-! SUPPORT. The laws of the byte buffers: read after write, and that every operation keeps the canonical form. -/

namespace Sys2Proof.Machine

theorem memRead_of_lt {d : Byte} {m : Mem} {a : Nat} (h : ∀ c ∈ m, a < c.1) : memRead d m a = d := by
  induction m with
  | nil => rfl
  | cons c t ih =>
    obtain ⟨k, v⟩ := c
    have hk : a < k := h (k, v) (by simp)
    simp only [memRead, if_neg (Nat.ne_of_gt hk)]
    exact ih fun c hc => h c (by simp [hc])

/-- A write changes no other byte, whatever the form of the list. -/
theorem memRead_memWrite_ne (d : Byte) (m : Mem) {a a' : Nat} (b : Byte) (h : a' ≠ a) :
    memRead d (memWrite d m a b) a' = memRead d m a' := by
  induction m with
  | nil => by_cases hb : b = d <;> simp [memWrite, memRead, hb, Ne.symm h]
  | cons c t ih =>
    obtain ⟨k, v⟩ := c
    simp only [memWrite]
    split
    · by_cases hb : b = d <;> simp [memRead, hb, Ne.symm h]
    · split
      · subst_vars
        by_cases hb : b = d <;> simp [memRead, hb, Ne.symm h]
      · simp only [memRead, ih]

/-- A read after a write to the same index gives the byte written. -/
theorem memRead_memWrite_eq {d : Byte} {m : Mem} (hm : m.Pairwise fun x y => x.1 < y.1) (a : Nat) (b : Byte) :
    memRead d (memWrite d m a b) a = b := by
  induction m with
  | nil => by_cases hb : b = d <;> simp [memWrite, memRead, hb]
  | cons c t ih =>
    obtain ⟨k, v⟩ := c
    rw [List.pairwise_cons] at hm
    simp only [memWrite]
    split
    · next hlt =>
      by_cases hb : b = d
      · rw [if_pos hb, hb]
        refine memRead_of_lt fun c hc => ?_
        rcases List.mem_cons.1 hc with rfl | hc
        · exact hlt
        · exact Nat.lt_trans hlt (hm.1 c hc)
      · simp [memRead, hb]
    · split
      · next heq =>
        subst heq
        by_cases hb : b = d
        · rw [if_pos hb, hb]
          exact memRead_of_lt fun c hc => hm.1 c hc
        · simp [memRead, hb]
      · next hne =>
        simp only [memRead, if_neg (Ne.symm hne), ih hm.2]

theorem mem_memWrite {d : Byte} {m : Mem} {a : Nat} {b : Byte} {c : Host.Cell} (h : c ∈ memWrite d m a b) :
    (c = (a, b) ∧ b ≠ d) ∨ c ∈ m := by
  induction m with
  | nil =>
    by_cases hb : b = d <;> simp [memWrite, hb] at h
    exact .inl ⟨h, hb⟩
  | cons x t ih =>
    obtain ⟨k, v⟩ := x
    simp only [memWrite] at h
    split at h
    · by_cases hb : b = d <;> simp only [hb, if_true, if_false, List.mem_cons] at h
      · exact .inr (List.mem_cons.2 h)
      · rcases h with h | h
        · exact .inl ⟨h, hb⟩
        · exact .inr (List.mem_cons.2 h)
    · split at h
      · by_cases hb : b = d <;> simp only [hb, if_true, if_false, List.mem_cons] at h
        · exact .inr (List.mem_cons_of_mem _ h)
        · rcases h with h | h
          · exact .inl ⟨h, hb⟩
          · exact .inr (List.mem_cons_of_mem _ h)
      · rcases List.mem_cons.1 h with h | h
        · exact .inr (h ▸ List.mem_cons_self)
        · rcases ih h with h | h
          · exact .inl h
          · exact .inr (List.mem_cons_of_mem _ h)

/-- A write keeps the canonical form. -/
theorem memWrite_wf {d : Byte} {m : Mem} (hm : Mem.wf d m) (a : Nat) (b : Byte) : Mem.wf d (memWrite d m a b) := by
  refine ⟨?_, fun c hc => ?_⟩
  · replace hm := hm.1
    induction m with
    | nil => by_cases hb : b = d <;> simp [memWrite, hb]
    | cons x t ih =>
      obtain ⟨k, v⟩ := x
      have hm' := List.pairwise_cons.1 hm
      simp only [memWrite]
      split
      · next hlt =>
        by_cases hb : b = d
        · rwa [if_pos hb]
        · rw [if_neg hb]
          refine List.pairwise_cons.2 ⟨fun c hc => ?_, hm⟩
          rcases List.mem_cons.1 hc with rfl | hc
          · exact hlt
          · exact Nat.lt_trans hlt (hm'.1 c hc)
      · split
        · next heq =>
          subst heq
          by_cases hb : b = d
          · rw [if_pos hb]; exact hm'.2
          · rw [if_neg hb]; exact List.pairwise_cons.2 ⟨fun c hc => hm'.1 c hc, hm'.2⟩
        · next hnlt hne =>
          refine List.pairwise_cons.2 ⟨fun c hc => ?_, ih hm'.2⟩
          rcases mem_memWrite hc with ⟨rfl, -⟩ | hc
          · show k < a
            omega
          · exact hm'.1 c hc
  · rcases mem_memWrite hc with ⟨rfl, hb⟩ | hc
    · exact hb
    · exact hm.2 c hc

/-- A write below a bound keeps the bound. -/
theorem memWrite_below {d : Byte} {m : Mem} {n a : Nat} {b : Byte} (hm : Mem.below n m) (ha : a < n) :
    Mem.below n (memWrite d m a b) := fun c hc => by
  rcases mem_memWrite hc with ⟨rfl, -⟩ | hc
  · exact ha
  · exact hm c hc

theorem memWriteN_wf {d : Byte} {bs : List Byte} : ∀ {m : Mem} (a : Nat), Mem.wf d m → Mem.wf d (memWriteN d m a bs) := by
  induction bs with
  | nil => exact fun _ h => h
  | cons b bs ih => exact fun a h => ih (a + 1) (memWrite_wf h a b)

theorem memWriteN_below {d : Byte} {bs : List Byte} {n : Nat} :
    ∀ {m : Mem} {a : Nat}, Mem.below n m → a + bs.length ≤ n → Mem.below n (memWriteN d m a bs) := by
  induction bs with
  | nil => exact fun h _ => h
  | cons b bs ih =>
    intro m a h hn
    simp only [List.length_cons] at hn
    exact ih (memWrite_below h (by omega)) (by omega)

theorem memRead_memWriteN_of_lt {d : Byte} {bs : List Byte} :
    ∀ {m : Mem} {a x : Nat}, x < a → memRead d (memWriteN d m a bs) x = memRead d m x := by
  induction bs with
  | nil => exact fun _ => rfl
  | cons b bs ih =>
    intro m a x h
    rw [memWriteN, ih (by omega), memRead_memWrite_ne _ _ _ (by omega)]

/-- Outside the bytes of a string a string write changes nothing. -/
theorem memRead_memWriteN_ne {d : Byte} {bs : List Byte} :
    ∀ {m : Mem} {a x : Nat}, x < a ∨ a + bs.length ≤ x → memRead d (memWriteN d m a bs) x = memRead d m x := by
  induction bs with
  | nil => exact fun _ => rfl
  | cons b bs ih =>
    intro m a x h
    simp only [List.length_cons] at h
    rw [memWriteN, ih (by omega), memRead_memWrite_ne _ _ _ (by omega)]

/-- Inside the bytes of a string a string write gives the string's byte. -/
theorem memRead_memWriteN {d : Byte} {bs : List Byte} :
    ∀ {m : Mem} {a i : Nat}, Mem.wf d m → i < bs.length →
      memRead d (memWriteN d m a bs) (a + i) = bs.getD i 0 := by
  induction bs with
  | nil => intro m a i _ h; simp at h
  | cons b bs ih =>
    intro m a i hm h
    cases i with
    | zero =>
      rw [memWriteN, memRead_memWriteN_of_lt (by omega), Nat.add_zero, memRead_memWrite_eq hm.1]
      rfl
    | succ i =>
      have := ih (a := a + 1) (i := i) (memWrite_wf hm a b) (by simpa using h)
      rw [memWriteN, show a + (i + 1) = a + 1 + i by omega, this]
      rfl

/-- A range read is the bytes in order. -/
theorem memReadN_eq_map (d : Byte) (m : Mem) (n : Nat) :
    ∀ a, memReadN d m a n = (List.range n).map fun i => memRead d m (a + i) := by
  induction n with
  | zero => exact fun _ => rfl
  | succ n ih =>
    intro a
    rw [memReadN, ih, List.range_succ_eq_map]
    simp [List.map_map, Function.comp_def, Nat.add_assoc, Nat.add_comm 1]

@[simp] theorem memReadN_length (d : Byte) (m : Mem) (a n : Nat) : (memReadN d m a n).length = n := by
  simp [memReadN_eq_map]

/-- The bytes a buffer read from index 0 gives. -/
theorem memReadN_eq_bytes (s : State) (sp : Space) (n : Nat) :
    memReadN (unlisted s.cfg sp) (s.mem sp) 0 n = s.bytes sp n := by
  simp [memReadN_eq_map, State.bytes, State.readByte]

@[simp] theorem bytes_length (s : State) (sp : Space) (n : Nat) : (s.bytes sp n).length = n := by simp [State.bytes]

theorem bytes_succ (s : State) (sp : Space) (n : Nat) : s.bytes sp (n + 1) = s.bytes sp n ++ [s.readByte sp n] := by
  simp [State.bytes, List.range_succ]

/-- Two states whose buffer reads alike below `n` have the same first `n` bytes. -/
theorem bytes_congr {s t : State} {sp : Space} {n : Nat} (h : ∀ a, a < n → t.readByte sp a = s.readByte sp a) :
    t.bytes sp n = s.bytes sp n := by
  simp only [State.bytes]
  exact List.map_congr_left fun a ha => h a (List.mem_range.1 ha)

/-- The read of a buffer depends on the parameters and that buffer only. -/
theorem readByte_congr {s t : State} {sp : Space} (hc : t.cfg = s.cfg) (hm : t.mem sp = s.mem sp) (a : Nat) :
    t.readByte sp a = s.readByte sp a := by rw [State.readByte, State.readByte, hc, hm]

/-- Reset's buffers are canonical and list nothing. -/
theorem reset_mem_wf (sp : Space) : Mem.wf (unlisted State.reset.cfg sp) (State.reset.mem sp) := by
  cases sp <;> simp [State.reset, State.mem, Mem.wf]

/-- `setMem` with a canonical list keeps every buffer canonical. -/
theorem setMem_wf {s : State} {sp : Space} {m : Mem} (hs : ∀ q, Mem.wf (unlisted s.cfg q) (s.mem q))
    (hm : Mem.wf (unlisted s.cfg sp) m) : ∀ q, Mem.wf (unlisted (s.setMem sp m).cfg q) ((s.setMem sp m).mem q) := by
  intro q
  cases sp <;> cases q <;> first | exact hm | exact hs _

end Sys2Proof.Machine
end

