-- ==== Sys2Proof/Laws/Ops.lean ====
section
/-! SUPPORT. One lemma per shared operation that says everything it can do; provers cite it instead of unfolding. -/

namespace Sys2Proof.Machine

/-- A range read goes on with the buffer's bytes, or faults where the range leaves the buffer. -/
theorem readThen_cases (sp : Space) (i n : Nat) (s : State) (k : List Byte → Result) :
    (i + n ≤ capacity s.cfg sp ∧ readThen sp i n s k = k (memReadN (unlisted s.cfg sp) (s.mem sp) i n)) ∨
    (capacity s.cfg sp < i + n ∧ readThen sp i n s k = .fault (.bufferBounds sp)) := by
  by_cases h : i + n ≤ capacity s.cfg sp
  · exact .inl ⟨h, by simp [readThen, bufRead, h]⟩
  · exact .inr ⟨by omega, by simp [readThen, bufRead, h]⟩

/-- A range read inside the buffer, from index 0. -/
theorem readThen_zero {sp : Space} {n : Nat} {s : State} (h : n ≤ capacity s.cfg sp) (k : List Byte → Result) :
    readThen sp 0 n s k = k (s.bytes sp n) := by
  simp [readThen, bufRead, h, memReadN_eq_bytes]

/-- A range write goes on with the buffer written, or faults where the range leaves the buffer. -/
theorem writeThen_cases (sp : Space) (i : Nat) (v : List Byte) (s : State) (k : State → Result) :
    (i + v.length ≤ capacity s.cfg sp ∧
      writeThen sp i v s k = k (s.setMem sp (memWriteN (unlisted s.cfg sp) (s.mem sp) i v))) ∨
    (capacity s.cfg sp < i + v.length ∧ writeThen sp i v s k = .fault (.bufferBounds sp)) := by
  by_cases h : i + v.length ≤ capacity s.cfg sp
  · exact .inl ⟨h, by simp [writeThen, bufWrite, h]⟩
  · exact .inr ⟨by omega, by simp [writeThen, bufWrite, h]⟩

theorem writeThen_eq {sp : Space} {i : Nat} {v : List Byte} {s : State} (h : i + v.length ≤ capacity s.cfg sp)
    (k : State → Result) :
    writeThen sp i v s k = k (s.setMem sp (memWriteN (unlisted s.cfg sp) (s.mem sp) i v)) := by
  simp [writeThen, bufWrite, h]

/-- The null-guard runs its continuation or raises E10. -/
theorem withDisplay_cases (s : State) (k : Result) :
    (s.cfg.displayPresent = true ∧ withDisplay s k = k) ∨
    (s.cfg.displayPresent = false ∧ withDisplay s k = .next (raiseError .displayUnavailable s)) := by
  cases h : s.cfg.displayPresent <;> simp [withDisplay, h]

/-- What `TX_RESPONSE` answers. -/
theorem sendResponse_next {st : Status} {msg : List Byte} {s t : State} (h : sendResponse st msg s = .next t) :
    st ≠ .pending ∧ msg.length ≤ s.cfg.msgMax ∧ t = respond st msg s := by
  unfold sendResponse at h
  split at h
  · cases h
  · split at h
    · cases h
    · cases h
      exact ⟨‹_›, by omega, rfl⟩

/-- What `DIMG` answers: a length error, the null-guard's error, or the replaced image with its refresh started. -/
theorem execDimg_next {data : List Byte} {s t : State} (h : execDimg data s = .next t) :
    (data.length ≠ s.cfg.displayCapacity ∧ t = raiseError (.length s.cfg.displayCapacity data.length) s) ∨
    (data.length = s.cfg.displayCapacity ∧ s.cfg.displayPresent = false ∧ t = raiseError .displayUnavailable s) ∨
    (data.length = s.cfg.displayCapacity ∧ s.cfg.displayPresent = true ∧
      t = { s with disp :=
        { buf := memWriteN s.cfg.blankByte s.disp.buf 0 data, cursor := s.cfg.displayCapacity, ready := true,
          seq := .reset } }) := by
  unfold execDimg at h
  split at h
  · cases h; exact .inl ⟨‹_›, rfl⟩
  · next hl =>
    simp only [ne_eq, not_not] at hl
    refine .inr ?_
    rcases withDisplay_cases s _ with ⟨hp, hw⟩ | ⟨hp, hw⟩ <;> rw [hw] at h
    · rcases writeThen_cases .disp 0 data s _ with ⟨-, hk⟩ | ⟨-, hk⟩ <;> rw [hk] at h <;> cases h
      exact .inr ⟨hl, hp, rfl⟩
    · cases h; exact .inl ⟨hl, hp, rfl⟩

/-- What `DISP_RECEIVE` answers: the state itself, or the chunk stored from the cursor on. -/
theorem execDispReceive_next {chunk : List Byte} {s t : State} (h : execDispReceive chunk s = .next t) :
    t = s ∨
    (receiveAccepted s = true ∧ s.disp.cursor + receiveCount chunk s ≤ s.cfg.displayCapacity ∧
      t = { s with disp :=
        { buf := memWriteN s.cfg.blankByte s.disp.buf s.disp.cursor (chunk.take (receiveCount chunk s))
          cursor := s.disp.cursor + receiveCount chunk s
          ready := readyFlag s.cfg.displayCapacity (s.disp.cursor + receiveCount chunk s) s.disp.ready
          seq := s.disp.seq } }) := by
  unfold execDispReceive at h
  split at h
  · next ha =>
    have hp : s.cfg.displayPresent = true := by simp only [receiveAccepted, Bool.and_eq_true] at ha; exact ha.2
    have hk : (chunk.take (receiveCount chunk s)).length = receiveCount chunk s := by simp [receiveCount]
    rcases writeThen_cases .disp s.disp.cursor (chunk.take (receiveCount chunk s)) s
      (fun s' => .next { s' with
        disp.cursor := s.disp.cursor + receiveCount chunk s
        disp.ready := readyFlag s.cfg.displayCapacity (s.disp.cursor + receiveCount chunk s) s.disp.ready })
      with ⟨hb, hw⟩ | ⟨-, hw⟩ <;> simp only [] at h <;> rw [hw] at h <;> cases h
    refine .inr ⟨ha, ?_, rfl⟩
    simpa [hk, capacity, hp] using hb
  · cases h; exact .inl rfl

/-- What `DISP_STEP` answers, by the state of the sequence. -/
theorem execDispStep_next {s t : State} (h : execDispStep s = .next t) :
    t = s ∨
    (s.disp.seq = .reset ∧ t = setSeq .waitBusy (panelPut [.reset] s)) ∨
    (s.disp.seq = .waitBusy ∧ s.io.panelBusy = false ∧ t = setSeq .write s) ∨
    (s.disp.seq = .write ∧ s.cfg.displayCapacity ≤ capacity s.cfg .disp ∧
      t = setSeq .refresh (panelPut [.init, .data (s.bytes .disp s.cfg.displayCapacity)] s)) ∨
    (s.disp.seq = .refresh ∧ t = setSeq .waitDone (panelPut [.refresh] s)) ∨
    (s.disp.seq = .waitDone ∧ s.io.panelBusy = false ∧ t = setSeq .sleep s) ∨
    (s.disp.seq = .sleep ∧ t = respond .ok msgEmpty (setSeq .idle (panelPut [.sleep] s))) := by
  cases hq : s.disp.seq <;> simp only [execDispStep, hq, waitPanel] at h
  case idle => cases h; exact .inl rfl
  case reset => cases h; simp
  case waitBusy => cases hb : s.io.panelBusy <;> simp [hb] at h <;> simp [← h]
  case write =>
    rcases readThen_cases .disp 0 s.cfg.displayCapacity s
      (fun bs => .next (setSeq .refresh (panelPut [.init, .data bs] s))) with ⟨hn, hk⟩ | ⟨-, hk⟩ <;> rw [hk] at h <;> cases h
    rw [memReadN_eq_bytes]
    simp only [Nat.zero_add] at hn
    simp [hn]
  case refresh => cases h; simp
  case waitDone => cases hb : s.io.panelBusy <;> simp [hb] at h <;> simp [← h]
  case sleep => cases h; simp

/-- What `DISPATCH` answers: an unknown name, a wrong length, or the handler's own answer. -/
theorem execDispatch_cases (name payload : List Byte) (s : State) :
    (lookupName name = none ∧ execDispatch name payload s = .next (raiseError (.unknownCommand name) s)) ∨
    (∃ c, lookupName name = some c ∧ payload.length ≠ expectedLength s.cfg c ∧
      execDispatch name payload s = .next (raiseError (.length (expectedLength s.cfg c) payload.length) s)) ∨
    (∃ c, lookupName name = some c ∧ payload.length = expectedLength s.cfg c ∧
      execDispatch name payload s = handler c payload s) := by
  unfold execDispatch
  cases hn : lookupName name with
  | none => simp
  | some c =>
    by_cases hl : payload.length = expectedLength s.cfg c <;> simp [hl]

/-- A name the table finds is that command's name. -/
theorem lookupName_eq_some {name : List Byte} {c : CommandName} (h : lookupName name = some c) : name = nameBytes c := by
  have := List.find?_some h
  simpa using (beq_iff_eq.1 this).symm

@[simp] theorem lookupName_nameBytes (c : CommandName) : lookupName (nameBytes c) = some c := by cases c <;> decide

/-- A handler is the meaning of the instruction its name and payload stand for. -/
theorem handler_eq_exec (c : CommandName) (payload : List Byte) (s : State) :
    handler c payload s = exec (commandInstr c payload) s := by cases c <;> rfl

/-- What the next operation can be, and on which state: the sequencer's and the environment's moves, once. -/
theorem nextOp_cases (s : State) :
    (∃ rest, ((s.env = [] ∧ rest = []) ∨ s.env = .device :: rest) ∧ nextOp s = deviceOp { s with env := rest }) ∨
    (∃ bs rest, s.env = .host bs :: rest ∧ nextOp s = (none, { s with env := rest, io.rxQueue := s.io.rxQueue ++ bs })) ∨
    (∃ ms rest, s.env = .clock ms :: rest ∧ nextOp s = (none, { s with env := rest, io.now := s.io.now + ms })) ∨
    (∃ b rest, s.env = .panel b :: rest ∧ nextOp s = (none, { s with env := rest, io.panelBusy := b })) ∨
    (∃ c rest, s.env = .chunk c :: rest ∧ nextOp s = (some (.dispReceive c), { s with env := rest })) ∨
    (∃ rest, s.env = .extReset :: rest ∧ nextOp s = (some .reset, { s with env := rest })) := by
  cases he : s.env with
  | nil =>
    refine .inl ⟨[], .inl ⟨rfl, rfl⟩, ?_⟩
    have : s = { s with env := [] } := by rw [← he]
    rw [← this]; simp [nextOp, he]
  | cons e rest => cases e <;> simp [nextOp, he]

/-- What the device agent can choose, once. -/
theorem deviceOp_cases (s : State) :
    (s.sup.mode = .halted ∧ deviceOp s = (none, s)) ∨
    (s.sup.mode = .run ∧ s.disp.seq ≠ .idle ∧ deviceOp s = (some .dispStep, s)) ∨
    (s.sup.mode = .run ∧ s.disp.seq = .idle ∧ s.loopPhase = .drain ∧ s.io.rxQueue = [] ∧
      deviceOp s = (none, { s with loopPhase := .timeout })) ∨
    (∃ b rest, s.sup.mode = .run ∧ s.disp.seq = .idle ∧ s.loopPhase = .drain ∧ s.io.rxQueue = b :: rest ∧
      deviceOp s = (some (.rxByte b), { s with io.rxQueue := rest })) ∨
    (s.sup.mode = .run ∧ s.disp.seq = .idle ∧ s.loopPhase = .timeout ∧
      deviceOp s = (some .tickTimeout, { s with loopPhase := .watchdog })) ∨
    (s.sup.mode = .run ∧ s.disp.seq = .idle ∧ s.loopPhase = .watchdog ∧
      deviceOp s = (some .tickWatchdog, { s with loopPhase := .drain })) := by
  cases hm : s.sup.mode with
  | halted => simp [deviceOp, hm]
  | run =>
    by_cases hq : s.disp.seq = .idle
    · cases hl : s.loopPhase with
      | drain => cases hr : s.io.rxQueue <;> simp [deviceOp, hm, hq, hl, hr]
      | timeout => simp [deviceOp, hm, hq, hl]
      | watchdog => simp [deviceOp, hm, hq, hl]
    · simp [deviceOp, hm, hq]

/-- A step with no operation selected. -/
theorem step_none {s u : State} (h : nextOp s = (none, u)) : step s = .next u := by simp [step, h]

/-- A step runs the operation selected. -/
theorem step_some {s u : State} {i : Instr} (h : nextOp s = (some i, u)) : step s = exec i u := by simp [step, h]

/-- A run goes on from its first step's state. -/
theorem run_succ {k : Nat} {s t : State} (h : step s = .next t) : runSteps (k + 1) s = runSteps k t := by
  rw [runSteps, h]

/-- A run of one step is the step. -/
theorem run_one (s : State) : runSteps 1 s = step s := by
  simp only [runSteps]
  cases step s <;> rfl

/-- Two runs one after the other. -/
theorem run_add {k m : Nat} : ∀ {s t : State}, runSteps k s = .next t → runSteps (k + m) s = runSteps m t := by
  induction k with
  | zero => intro s t h; cases h; rw [Nat.zero_add]
  | succ k ih =>
    intro s t h
    cases hs : step s with
    | next u => rw [run_succ hs] at h; rw [Nat.succ_add, run_succ hs, ih h]
    | fault r => simp [runSteps, hs] at h
    | refused r => simp [runSteps, hs] at h

/-- A run is the run of the host's interface. -/
theorem runSteps_eq_core (k : Nat) : ∀ s : State, runSteps k s = core.run k s := by
  induction k with
  | zero => exact fun _ => rfl
  | succ k ih =>
    intro s
    have h : core.step s = step s := rfl
    simp only [runSteps, Host.Core.run, h]
    cases step s with
    | next u => exact ih u
    | fault r => rfl
    | refused r => rfl

/-- The device agent's move when nothing is scheduled. -/
theorem nextOp_quiet {s : State} (h : s.env = []) : nextOp s = deviceOp s := by simp [nextOp, h]

end Sys2Proof.Machine
end

