-- ==== Sys2Proof/Laws/Spelling.lean ====
section
/-! SUPPORT. The spellings of 00_scope.md R8: decimal and hexadecimal text reads back as the number it spells, and its characters are
digits. -/

namespace Sys2Proof.Machine

theorem isDigit_decDigit {n : Nat} (h : n < 10) : isDigit (decDigit n) = true := by
  interval_cases n <;> decide

theorem digitVal_decDigit {n : Nat} (h : n < 10) : digitVal (decDigit n) = n := by
  interval_cases n <;> decide

theorem decDigits_digits {f n : Nat} : ∀ {acc : List Byte}, (∀ b ∈ acc, isDigit b = true) →
    ∀ b ∈ decDigits f n acc, isDigit b = true := by
  induction f generalizing n with
  | zero => exact fun h => h
  | succ f ih =>
    intro acc h
    unfold decDigits
    split
    · next hn =>
      intro b hb
      rcases List.mem_cons.1 hb with rfl | hb
      · exact isDigit_decDigit hn
      · exact h b hb
    · refine ih fun b hb => ?_
      rcases List.mem_cons.1 hb with rfl | hb
      · exact isDigit_decDigit (by omega)
      · exact h b hb

/-- Every character of a decimal spelling is a digit. -/
theorem dec_digits (n : Nat) : ∀ b ∈ dec n, isDigit b = true := decDigits_digits (by simp)

theorem decDigits_append {f n : Nat} : ∀ {acc : List Byte}, decDigits f n acc = decDigits f n [] ++ acc := by
  induction f generalizing n with
  | zero => simp [decDigits]
  | succ f ih =>
    intro acc
    unfold decDigits
    split
    · simp
    · rw [ih, ih (acc := [_])]; simp

theorem decVal_append (s t : List Byte) :
    decVal (s ++ t) = t.foldl (fun n b => 10 * n + digitVal b) (decVal s) := by simp [decVal]

theorem decVal_decDigits {f n : Nat} (h : n < f) : decVal (decDigits f n []) = n := by
  induction f generalizing n with
  | zero => omega
  | succ f ih =>
    unfold decDigits
    split
    · next hn => simp [decVal, digitVal_decDigit hn]
    · rw [decDigits_append, decVal_append, ih (by omega)]
      simp [digitVal_decDigit (show n % 10 < 10 by omega)]
      omega

/-- `decval(DEC(n)) = n`. -/
@[simp] theorem decVal_dec (n : Nat) : decVal (dec n) = n := decVal_decDigits (by omega)

theorem decDigits_ne_nil {f n : Nat} {acc : List Byte} (h : 0 < f) : decDigits f n acc ≠ [] := by
  induction f generalizing n acc with
  | zero => omega
  | succ f ih =>
    unfold decDigits
    split
    · simp
    · next hn =>
      cases f with
      | zero => simp [decDigits]
      | succ f => exact ih (by omega)

/-- A decimal spelling has a first digit. -/
theorem dec_ne_nil (n : Nat) : dec n ≠ [] := decDigits_ne_nil (by omega)

theorem decDigits_length_fuel {f g n : Nat} (hf : n < f) (hg : n < g) :
    (decDigits f n []).length = (decDigits g n []).length := by
  induction f generalizing g n with
  | zero => omega
  | succ f ih =>
    cases g with
    | zero => omega
    | succ g =>
      unfold decDigits
      split
      · rfl
      · rw [decDigits_append, decDigits_append (f := g)]
        simp [ih (g := g) (n := n / 10) (by omega) (by omega)]

theorem decDigits_length_mono {f g m n : Nat} (h : m ≤ n) (hf : m < f) (hg : n < g) :
    (decDigits f m []).length ≤ (decDigits g n []).length := by
  induction g generalizing f m n with
  | zero => omega
  | succ g ih =>
    cases f with
    | zero => omega
    | succ f =>
      unfold decDigits
      split
      · split
        · rfl
        · rw [decDigits_append]; simp
      · rw [if_neg (by omega), decDigits_append, decDigits_append (f := g)]
        simpa using ih (f := f) (m := m / 10) (n := n / 10) (by omega) (by omega) (by omega)

/-- A larger number has no shorter spelling. -/
theorem dec_length_mono {m n : Nat} (h : m ≤ n) : (dec m).length ≤ (dec n).length :=
  decDigits_length_mono h (by omega) (by omega)

theorem dec_length_of_lt_ten {n : Nat} (h : n < 10) : (dec n).length = 1 := by
  interval_cases n <;> decide

theorem isDigit_term : isDigit term = false := by decide

theorem isHexDigit_term (lower : Bool) : isHexDigit lower term = false := by cases lower <;> decide

/-- The character of a nibble is a hex digit whatever `CK_ACCEPT_LOWER`. -/
theorem isHexDigit_hexChar {n : Nat} (lower : Bool) (h : n < 16) : isHexDigit lower (hexChar n) = true := by
  cases lower <;> interval_cases n <;> decide

/-- `hexval` reads the character of a nibble. -/
theorem hexVal_hexChar {n : Nat} (h : n < 16) : hexVal (hexChar n) = n := by
  interval_cases n <;> decide

@[simp] theorem hex4_length (v : Word16) : (hex4 v).length = 4 := rfl

@[simp] theorem leBytes_length (w : Word16) : (leBytes w).length = 2 := rfl

theorem setWidth_append_setWidth (w : Word16) : ((w >>> 8).setWidth 8 ++ w.setWidth 8 : BitVec (8 + 8)) = w := by
  apply BitVec.eq_of_toNat_eq
  have := w.isLt
  rw [BitVec.toNat_append, ← Nat.shiftLeft_add_eq_or_of_lt (by simp; omega)]
  simp [Nat.shiftRight_eq_div_pow, Nat.shiftLeft_eq]
  omega

/-- `LE16` reads back the bytes of `LE` wherever they stand. -/
theorem le16_leBytes (p q : List Byte) (w : Word16) : le16 (p ++ leBytes w ++ q) p.length = w := by
  have h0 : (p ++ leBytes w ++ q).getD p.length 0 = w.setWidth 8 := by simp [leBytes, List.getD]
  have h1 : (p ++ leBytes w ++ q).getD (p.length + 1) 0 = (w >>> 8).setWidth 8 := by
    simp [leBytes, List.getD]
  unfold le16
  rw [h0, h1]
  exact setWidth_append_setWidth w

end Sys2Proof.Machine
end

