-- ==== Sys2Proof/Laws/Codec.lean ====
section
/-! SUPPORT. What one byte can do: the spec lemma of RX_BYTE. -/

namespace Sys2Proof.Machine
/-- Everything `RX_BYTE` can do, by phase and byte: 41_frame_codec.md R70 to R80. -/
theorem execRxByte_cases (b : Byte) (s : State) :
    (s.codec.phase = .hdr ∧ b ≠ term ∧ s.codec.hdrLen < s.cfg.cmdBufMax ∧ execRxByte b s =
      .next { s with codec.hdrBuf := memWrite 0 s.codec.hdrBuf s.codec.hdrLen b, codec.hdrLen := s.codec.hdrLen + 1 }) ∨
    (s.codec.phase = .hdr ∧ b ≠ term ∧ s.cfg.cmdBufMax ≤ s.codec.hdrLen ∧
      execRxByte b s = .next (raiseError .headerOverflow s)) ∨
    (s.codec.phase = .hdr ∧ b = term ∧ s.cfg.cmdBufMax < s.codec.hdrLen ∧ execRxByte b s = .fault (.bufferBounds .hdr)) ∨
    (∃ e, s.codec.phase = .hdr ∧ b = term ∧ s.codec.hdrLen ≤ s.cfg.cmdBufMax ∧
      splitHeader s.cfg.payloadMax (s.bytes .hdr s.codec.hdrLen) = .error e ∧ execRxByte b s = .next (raiseError e s)) ∨
    (∃ name n, s.codec.phase = .hdr ∧ b = term ∧ s.codec.hdrLen ≤ s.cfg.cmdBufMax ∧
      splitHeader s.cfg.payloadMax (s.bytes .hdr s.codec.hdrLen) = .ok (name, n) ∧
      execRxByte b s = .next (acceptHeader name n s)) ∨
    (s.codec.phase = .pay ∧ s.codec.payCnt < s.cfg.payloadMax ∧ execRxByte b s =
      .next (crcStep b { s with
        codec.payBuf := memWrite 0 s.codec.payBuf s.codec.payCnt b, codec.payCnt := s.codec.payCnt + 1,
        codec.phase := if s.codec.payCnt + 1 = s.codec.expLen then .payterm else .pay })) ∨
    (s.codec.phase = .pay ∧ s.cfg.payloadMax ≤ s.codec.payCnt ∧ execRxByte b s = .fault (.bufferBounds .pay)) ∨
    (s.codec.phase = .payterm ∧ b = term ∧
      execRxByte b s = .next { s with codec.ckAcc := 0, codec.ckCnt := 0, codec.phase := .ck }) ∨
    (s.codec.phase = .payterm ∧ b ≠ term ∧ execRxByte b s = .next (raiseError .payloadTerminator s)) ∨
    (s.codec.phase = .ck ∧ isHexDigit s.cfg.ckAcceptLower b = true ∧ s.codec.ckCnt < 4 ∧ execRxByte b s =
      .next { s with
        codec.ckAcc := (s.codec.ckAcc <<< 4) ||| BitVec.ofNat 16 (hexVal b), codec.ckCnt := s.codec.ckCnt + 1 }) ∨
    (s.codec.phase = .ck ∧ b = term ∧ s.codec.ckCnt = 4 ∧ s.codec.crcReg = s.codec.ckAcc ∧
      s.codec.expLen ≤ s.cfg.payloadMax ∧ execRxByte b s =
        execDispatch s.codec.cmdName (s.bytes .pay s.codec.expLen) { stampFrame s with codec.phase := .hdr }) ∨
    (s.codec.phase = .ck ∧ b = term ∧ s.codec.ckCnt = 4 ∧ s.codec.crcReg = s.codec.ckAcc ∧
      s.cfg.payloadMax < s.codec.expLen ∧ execRxByte b s = .fault (.bufferBounds .pay)) ∨
    (s.codec.phase = .ck ∧ b = term ∧ s.codec.ckCnt = 4 ∧ s.codec.crcReg ≠ s.codec.ckAcc ∧
      execRxByte b s = .next (raiseError (.checksum s.codec.crcReg s.codec.ckAcc) s)) ∨
    (s.codec.phase = .ck ∧ ¬(isHexDigit s.cfg.ckAcceptLower b = true ∧ s.codec.ckCnt < 4) ∧ ¬(b = term ∧ s.codec.ckCnt = 4) ∧
      execRxByte b s = .next (raiseError .checksumField s)) := by
  have hcase : s.codec.phase = .hdr ∨ s.codec.phase = .pay ∨ s.codec.phase = .payterm ∨ s.codec.phase = .ck := by
    cases s.codec.phase <;> simp
  rcases hcase with hp | hp | hp | hp
  · by_cases hb : b = term
    · by_cases hl : s.codec.hdrLen ≤ s.cfg.cmdBufMax
      · have hx : execRxByte b s = match splitHeader s.cfg.payloadMax (s.bytes .hdr s.codec.hdrLen) with
            | .error e => .next (raiseError e s)
            | .ok (name, n) => .next (acceptHeader name n s) := by
          simp only [execRxByte, hp, hb, if_true, rxHeaderTerm]
          exact readThen_zero (sp := .hdr) (by simpa [capacity] using hl) _
        cases hs : splitHeader s.cfg.payloadMax (s.bytes .hdr s.codec.hdrLen) with
        | error e => exact .inr (.inr (.inr (.inl ⟨e, hp, hb, hl, rfl, by rw [hx, hs]⟩)))
        | ok p => exact .inr (.inr (.inr (.inr (.inl ⟨p.1, p.2, hp, hb, hl, rfl, by rw [hx, hs]⟩))))
      · exact .inr (.inr (.inl ⟨hp, hb, by omega, by simp [execRxByte, hp, hb, rxHeaderTerm, readThen, bufRead, capacity, hl]⟩))
    · by_cases hl : s.codec.hdrLen < s.cfg.cmdBufMax
      · refine .inl ⟨hp, hb, hl, ?_⟩
        simp only [execRxByte, hp, hb, if_false, rxHeaderByte, hl, if_true]
        rw [writeThen_eq (by simpa [capacity] using hl), setMem_hdr, hp]
        rfl
      · exact .inr (.inl ⟨hp, hb, by omega, by simp [execRxByte, hp, hb, rxHeaderByte, hl]⟩)
  · by_cases hl : s.codec.payCnt < s.cfg.payloadMax
    · refine .inr (.inr (.inr (.inr (.inr (.inl ⟨hp, hl, ?_⟩)))))
      simp only [execRxByte, hp, rxPayload]
      rw [writeThen_eq (by simpa [capacity] using hl)]
      rfl
    · refine .inr (.inr (.inr (.inr (.inr (.inr (.inl ⟨hp, by omega, ?_⟩))))))
      simp [execRxByte, hp, rxPayload, writeThen, bufWrite, capacity, hl]
  · by_cases hb : b = term
    · exact .inr (.inr (.inr (.inr (.inr (.inr (.inr (.inl ⟨hp, hb, by simp [execRxByte, hp, rxPayloadTerm, hb]⟩)))))))
    · exact .inr (.inr (.inr (.inr (.inr (.inr (.inr (.inr (.inl ⟨hp, hb, by simp [execRxByte, hp, rxPayloadTerm, hb]⟩))))))))
  · by_cases hh : isHexDigit s.cfg.ckAcceptLower b = true ∧ s.codec.ckCnt < 4
    · exact .inr (.inr (.inr (.inr (.inr (.inr (.inr (.inr (.inr (.inl ⟨hp, hh.1, hh.2, by simp [execRxByte, hp, rxChecksum, hh]⟩)))))))))
    · by_cases ht : b = term ∧ s.codec.ckCnt = 4
      · have hx : execRxByte b s =
            if crcMatch s.codec then handOff s else .next (raiseError (.checksum s.codec.crcReg s.codec.ckAcc) s) := by
          simp [execRxByte, hp, rxChecksum, ht, isHexDigit_term]
        by_cases hm : s.codec.crcReg = s.codec.ckAcc
        · rw [show crcMatch s.codec = true by simp [crcMatch, hm], if_pos rfl] at hx
          by_cases hl : s.codec.expLen ≤ s.cfg.payloadMax
          · refine .inr (.inr (.inr (.inr (.inr (.inr (.inr (.inr (.inr (.inr (.inl ⟨hp, ht.1, ht.2, hm, hl, ?_⟩))))))))))
            rw [hx]
            exact readThen_zero (sp := .pay) (by simpa [capacity] using hl) _
          · refine .inr (.inr (.inr (.inr (.inr (.inr (.inr (.inr (.inr (.inr (.inr (.inl ⟨hp, ht.1, ht.2, hm, by omega, ?_⟩)))))))))))
            simp [hx, handOff, readThen, bufRead, capacity, hl]
        · exact .inr (.inr (.inr (.inr (.inr (.inr (.inr (.inr (.inr (.inr (.inr (.inr (.inl ⟨hp, ht.1, ht.2, hm, by simp [hx, crcMatch, hm]⟩))))))))))))
      · refine .inr (.inr (.inr (.inr (.inr (.inr (.inr (.inr (.inr (.inr (.inr (.inr (.inr (⟨hp, hh, ht, ?_⟩)))))))))))))
        simp only [execRxByte, hp, rxChecksum]
        rw [if_neg (by simpa using hh), if_neg ht]
end Sys2Proof.Machine
end

