-- ==== Sys2Proof/Laws/Frames.lean ====
section
/-! SUPPORT. The pieces of the frame decoder on the pieces of the encoder, each used by the machine's codec too. -/

namespace Sys2Proof.Machine

/-- A line is what stands before the first `TERM`. -/
theorem takeLine_append {p : List Byte} (r : List Byte) (h : term ∉ p) : takeLine (p ++ term :: r) = some (p, r) := by
  induction p with
  | nil => simp [takeLine]
  | cons b p ih =>
    simp only [List.mem_cons, not_or] at h
    simp [takeLine, Ne.symm h.1, ih h.2]

theorem takeWhile_split {name rest : List Byte} (hn : ∀ b ∈ name, isDigit b = false)
    (hr : ∀ b, rest.head? = some b → isDigit b = true) :
    (name ++ rest).takeWhile (fun b => !isDigit b) = name ∧ (name ++ rest).dropWhile (fun b => !isDigit b) = rest := by
  induction name with
  | nil => cases rest with
    | nil => simp
    | cons b r => simp [hr b rfl]
  | cons b p ih =>
    have hb := hn b (by simp)
    have := ih fun x hx => hn x (by simp [hx])
    simp [hb, this]

/-- The split of a header line, by its two parts (41_frame_codec.md R71). -/
theorem splitHeader_split {name rest : List Byte} (pm : Nat) (hn : ∀ b ∈ name, isDigit b = false)
    (hr : ∀ b, rest.head? = some b → isDigit b = true) :
    splitHeader pm (name ++ rest) =
      if rest.isEmpty then .error .noDigit
      else if !rest.all isDigit then .error .trailing
      else if pm < decVal rest then .error .payloadTooLong
      else .ok (name, decVal rest) := by
  simp only [splitHeader, (takeWhile_split hn hr).1, (takeWhile_split hn hr).2]

/-- Every line has such parts. -/
theorem header_split (h : List Byte) : ∃ name rest, h = name ++ rest ∧ (∀ b ∈ name, isDigit b = false) ∧
    ∀ b, rest.head? = some b → isDigit b = true := by
  refine ⟨h.takeWhile fun b => !isDigit b, h.dropWhile fun b => !isDigit b, (List.takeWhile_append_dropWhile).symm,
    fun b hb => ?_, fun b hb => ?_⟩
  · simpa using List.mem_takeWhile_imp hb
  · have := List.head?_dropWhile_not (fun b => !isDigit b) h
    rw [hb] at this
    simpa using this

/-- What an accepted header line gives (41_frame_codec.md R71). -/
theorem splitHeader_ok {pm : Nat} {h name : List Byte} {n : Nat} (hs : splitHeader pm h = .ok (name, n)) :
    (∀ b ∈ name, isDigit b = false) ∧ name.length < h.length ∧ n ≤ pm ∧ ∀ b ∈ name, b ∈ h := by
  obtain ⟨nm, rest, rfl, hn, hr⟩ := header_split h
  rw [splitHeader_split pm hn hr] at hs
  split at hs
  · cases hs
  · split at hs
    · cases hs
    · split at hs
      · cases hs
      · cases hs
        refine ⟨hn, ?_, by omega, by simp +contextual⟩
        have : rest ≠ [] := by rintro rfl; simp at *
        have := List.length_pos_iff.2 this
        simp; omega

theorem dec_head_digit (n : Nat) : ∀ b, (dec n).head? = some b → isDigit b = true := fun b hb =>
  dec_digits n b (List.mem_of_mem_head? hb)

/-- A header built with `DEC` splits into its name and its number. -/
theorem splitHeader_dec {name : List Byte} {pm n : Nat} (hn : ∀ b ∈ name, isDigit b = false) (hp : n ≤ pm) :
    splitHeader pm (name ++ dec n) = .ok (name, n) := by
  rw [splitHeader_split pm hn (dec_head_digit n)]
  have h1 : (dec n).isEmpty = false := by cases h : dec n with
    | nil => exact absurd h (dec_ne_nil n)
    | cons => rfl
  have h2 : (dec n).all isDigit = true := List.all_eq_true.2 (dec_digits n)
  simp [h1, h2, decVal_dec, Nat.not_lt.2 hp]

theorem toNat_sixteen : (16 : Word16).toNat = 16 := rfl

theorem toNat_zero : (0 : Word16).toNat = 0 := rfl

/-- Shifting in a nibble is multiplying by 16 and adding it. -/
theorem nibble_shift (a : Word16) {n : Nat} (h : n < 16) :
    ((a <<< 4) ||| BitVec.ofNat 16 n) = a * 16 + BitVec.ofNat 16 n := by
  apply BitVec.eq_of_toNat_eq
  have ha := a.isLt
  have : (a.toNat <<< 4 % 65536) ||| n = a.toNat <<< 4 % 65536 + n := by
    have h4 : a.toNat <<< 4 % 65536 = (a.toNat % 4096) <<< 4 := by
      simp only [Nat.shiftLeft_eq]; omega
    rw [h4, ← Nat.shiftLeft_add_eq_or_of_lt (by omega)]
  simp only [BitVec.toNat_or, BitVec.toNat_shiftLeft, BitVec.toNat_add, BitVec.toNat_mul, BitVec.toNat_ofNat,
    toNat_sixteen]
  norm_num
  rw [Nat.mod_eq_of_lt (show n < 65536 by omega)]
  rw [this, Nat.shiftLeft_eq]
  omega

/-- The four nibbles of `HEX4`, shifted in most significant first, are the value. -/
theorem hex4_acc (v : Word16) :
    (((((0 : Word16) <<< 4 ||| BitVec.ofNat 16 (v.toNat / 4096 % 16)) <<< 4 ||| BitVec.ofNat 16 (v.toNat / 256 % 16)) <<< 4 |||
      BitVec.ofNat 16 (v.toNat / 16 % 16)) <<< 4 ||| BitVec.ofNat 16 (v.toNat % 16)) = v := by
  rw [nibble_shift _ (by omega), nibble_shift _ (by omega), nibble_shift _ (by omega), nibble_shift _ (by omega)]
  apply BitVec.eq_of_toNat_eq
  have := v.isLt
  simp only [BitVec.toNat_add, BitVec.toNat_mul, BitVec.toNat_ofNat,
    toNat_sixteen, toNat_zero]
  norm_num
  omega

/-- The checksum field `HEX4(v)` reads back as `v` (30_encoding.md R50). -/
theorem takeChecksum_hex4 (lower : Bool) (v : Word16) (r : List Byte) :
    takeChecksum lower 0 0 (hex4 v ++ term :: r) = .ok (v, r) := by
  have e := hex4_acc v
  simp only [hex4, List.cons_append, List.nil_append, takeChecksum]
  repeat rw [isHexDigit_hexChar lower (by omega)]
  repeat rw [hexVal_hexChar (by omega)]
  rw [isHexDigit_term]
  rw [e]
  simp

end Sys2Proof.Machine
end

