-- ==== Sys2Proof/Laws/Feed.lean ====
section
/-! SUPPORT. What a run of bytes does: one lemma per field of a frame, fed from `rx_queue` to a device in the drain phase. -/

namespace Sys2Proof.Machine

/-- The state with another codec and another queue: what feeding bytes changes. -/
def feed (s : State) (q : List Byte) (c : Codec) : State := { s with codec := c, io.rxQueue := q }

/-- The device agent takes bytes: nothing scheduled, running, no refresh, drain phase. -/
structure Draining (s : State) : Prop where
  env : s.env = []
  mode : s.sup.mode = .run
  seq : s.disp.seq = .idle
  loop : s.loopPhase = .drain

theorem step_feed {s : State} (h : Draining s) (b : Byte) (q : List Byte) (c : Codec) :
    step (feed s (b :: q) c) = execRxByte b (feed s q c) :=
  step_some (i := .rxByte b) (by simp [nextOp, feed, h.env, deviceOp, h.mode, h.seq, h.loop])

theorem memRead_feed_hdr (s : State) (q : List Byte) (c : Codec) (a : Nat) :
    (feed s q c).readByte .hdr a = memRead 0 c.hdrBuf a := rfl

theorem memRead_feed_pay (s : State) (q : List Byte) (c : Codec) (a : Nat) :
    (feed s q c).readByte .pay a = memRead 0 c.payBuf a := rfl

/-- The codec has accumulated the header bytes `p`. -/
structure HoldsHeader (s : State) (p : List Byte) (c : Codec) : Prop where
  phase : c.phase = .hdr
  len : c.hdrLen = p.length
  line : (feed s [] c).bytes .hdr p.length = p
  wf : Mem.wf 0 c.hdrBuf

/-- The codec has copied the bytes `p` of a payload of `n` bytes for the command `name`. -/
structure HoldsPayload (s : State) (name : List Byte) (n : Nat) (p : List Byte) (c : Codec) : Prop where
  phase : c.phase = if p.length = n then .payterm else .pay
  hdrLen : c.hdrLen = 0
  name_eq : c.cmdName = name
  expLen : c.expLen = n
  cnt : c.payCnt = p.length
  crc : c.crcReg = crc16 p
  payload : (feed s [] c).bytes .pay p.length = p
  wf : Mem.wf 0 c.payBuf

/-- Header bytes are accumulated one a step (41_frame_codec.md R70). -/
theorem feed_header {s : State} (hd : Draining s) (q : List Byte) : ∀ (h p : List Byte) (c : Codec),
    HoldsHeader s p c → term ∉ h → p.length + h.length ≤ s.cfg.cmdBufMax →
    ∃ c', runSteps h.length (feed s (h ++ q) c) = .next (feed s q c') ∧ HoldsHeader s (p ++ h) c' ∧ c'.payBuf = c.payBuf := by
  intro h
  induction h with
  | nil => intro p c hc _ _; exact ⟨c, rfl, by simpa using hc, rfl⟩
  | cons b h ih =>
    intro p c hc ht hl
    simp only [List.mem_cons, not_or] at ht
    simp only [List.length_cons] at hl
    have hb : b ≠ term := fun e => ht.1 e.symm
    have hlt : c.hdrLen < s.cfg.cmdBufMax := by rw [hc.len]; omega
    let c1 : Codec := { c with hdrBuf := memWrite 0 c.hdrBuf c.hdrLen b, hdrLen := c.hdrLen + 1 }
    have e1 : step (feed s (b :: (h ++ q)) c) = .next (feed s (h ++ q) c1) := by
      rw [step_feed hd]
      simp only [execRxByte, feed, hc.phase, hb, if_false, rxHeaderByte, hlt, if_true]
      rw [writeThen_eq (by simpa [capacity] using hlt)]
      rfl
    have hk : HoldsHeader s (p ++ [b]) c1 := by
      refine ⟨hc.phase, by simp [c1, hc.len], ?_, memWrite_wf hc.wf _ _⟩
      rw [List.length_append, List.length_singleton, bytes_succ, memRead_feed_hdr]
      simp only [c1, hc.len, memRead_memWrite_eq hc.wf.1]
      congr 1
      conv_rhs => rw [← hc.line]
      exact bytes_congr fun a ha => memRead_memWrite_ne _ _ _ (by omega)
    obtain ⟨c', h1, h2, h3⟩ := ih (p ++ [b]) c1 hk ht.2 (by simp; omega)
    exact ⟨c', by rw [List.length_cons, List.cons_append, run_succ e1, h1], by simpa using h2, h3⟩

/-- The terminator of an accepted header line (41_frame_codec.md R71, R73). -/
theorem feed_accept {s : State} (hd : Draining s) {name line : List Byte} {n : Nat} {c : Codec} (q : List Byte)
    (hc : HoldsHeader s line c) (hl : line.length ≤ s.cfg.cmdBufMax) (hs : splitHeader s.cfg.payloadMax line = .ok (name, n))
    (hw : Mem.wf 0 c.payBuf) :
    ∃ c', step (feed s (term :: q) c) = .next (feed s q c') ∧ HoldsPayload s name n [] c' := by
  refine ⟨(acceptHeader name n (feed s q c)).codec, ?_, ?_⟩
  · rw [step_feed hd]
    have hb : (feed s q c).bytes .hdr (feed s q c).codec.hdrLen = line := by
      simp only [feed, hc.len]; exact hc.line
    have hr : execRxByte term (feed s q c) = rxHeaderTerm (feed s q c) := by
      simp [execRxByte, feed, hc.phase]
    rw [hr, rxHeaderTerm, readThen_zero (by simp [feed, capacity, hc.len, hl]), hb]
    simp only [show (feed s q c).cfg = s.cfg from rfl, hs]
    rfl
  · refine ⟨?_, rfl, rfl, rfl, rfl, rfl, rfl, hw⟩
    by_cases h : 0 < n
    · simp [acceptHeader, crcStart, h, show 0 ≠ n by omega]
    · simp [acceptHeader, crcStart, show n = 0 by omega]

/-- Payload bytes are copied and fed to the CRC one a step (41_frame_codec.md R74). -/
theorem feed_payload {s : State} (hd : Draining s) {name : List Byte} {n : Nat} (hn : n ≤ s.cfg.payloadMax) (q : List Byte) :
    ∀ (h p : List Byte) (c : Codec), HoldsPayload s name n p c → p.length + h.length = n →
    ∃ c', runSteps h.length (feed s (h ++ q) c) = .next (feed s q c') ∧ HoldsPayload s name n (p ++ h) c' := by
  intro h
  induction h with
  | nil => intro p c hc _; exact ⟨c, rfl, by simpa using hc⟩
  | cons b h ih =>
    intro p c hc hl
    simp only [List.length_cons] at hl
    have hlt : c.payCnt < s.cfg.payloadMax := by rw [hc.cnt]; omega
    have hp : c.phase = .pay := by rw [hc.phase, if_neg (by omega)]
    let c1 : Codec := { c with
      payBuf := memWrite 0 c.payBuf c.payCnt b, payCnt := c.payCnt + 1, crcReg := crcUpdate c.crcReg b,
      phase := if c.payCnt + 1 = c.expLen then .payterm else .pay }
    have e1 : step (feed s (b :: (h ++ q)) c) = .next (feed s (h ++ q) c1) := by
      rw [step_feed hd]
      simp only [execRxByte, feed, hp, rxPayload]
      rw [writeThen_eq (by simpa [capacity] using hlt)]
      rfl
    have hk : HoldsPayload s name n (p ++ [b]) c1 := by
      refine ⟨by simp [c1, hc.cnt, hc.expLen], hc.hdrLen, hc.name_eq, hc.expLen, by simp [c1, hc.cnt],
        by simp [c1, hc.crc, crc16, crcFeed], ?_, memWrite_wf hc.wf _ _⟩
      rw [List.length_append, List.length_singleton, bytes_succ, memRead_feed_pay]
      simp only [c1, hc.cnt, memRead_memWrite_eq hc.wf.1]
      congr 1
      conv_rhs => rw [← hc.payload]
      exact bytes_congr fun a ha => memRead_memWrite_ne _ _ _ (by omega)
    obtain ⟨c', h1, h2⟩ := ih (p ++ [b]) c1 hk (by simp; omega)
    exact ⟨c', by rw [List.length_cons, List.cons_append, run_succ e1, h1], by simpa using h2⟩

/-- One digit of the checksum field (41_frame_codec.md R76). -/
theorem feed_digit {s : State} (hd : Draining s) (q : List Byte) {c : Codec} {n : Nat} (hn : n < 16) (hp : c.phase = .ck)
    (hc : c.ckCnt < 4) :
    step (feed s (hexChar n :: q) c) =
      .next (feed s q { c with ckAcc := (c.ckAcc <<< 4) ||| BitVec.ofNat 16 n, ckCnt := c.ckCnt + 1 }) := by
  rw [step_feed hd]
  simp only [execRxByte, feed, hp, rxChecksum, isHexDigit_hexChar _ hn, hc, hexVal_hexChar hn, decide_true, Bool.and_self, if_true]

/-- A whole checksum field spelling `v` (41_frame_codec.md R76). -/
theorem feed_checksum {s : State} (hd : Draining s) (q : List Byte) (v : Word16) {c : Codec} (hp : c.phase = .ck)
    (ha : c.ckAcc = 0) (hc : c.ckCnt = 0) :
    runSteps 4 (feed s (hex4 v ++ q) c) = .next (feed s q { c with ckAcc := v, ckCnt := 4 }) := by
  have e1 := feed_digit hd (hexChar (v.toNat / 256 % 16) :: hexChar (v.toNat / 16 % 16) :: hexChar (v.toNat % 16) :: q)
    (n := v.toNat / 4096 % 16) (by omega) hp (by omega)
  have e2 := fun a => feed_digit hd (hexChar (v.toNat / 16 % 16) :: hexChar (v.toNat % 16) :: q)
    (c := { c with ckAcc := a, ckCnt := c.ckCnt + 1 }) (n := v.toNat / 256 % 16) (by omega) hp (by simp [hc])
  have e3 := fun a => feed_digit hd (hexChar (v.toNat % 16) :: q)
    (c := { c with ckAcc := a, ckCnt := c.ckCnt + 1 + 1 }) (n := v.toNat / 16 % 16) (by omega) hp (by simp [hc])
  have e4 := fun a => feed_digit hd q
    (c := { c with ckAcc := a, ckCnt := c.ckCnt + 1 + 1 + 1 }) (n := v.toNat % 16) (by omega) hp (by simp [hc])
  rw [show hex4 v ++ q = hexChar (v.toNat / 4096 % 16) :: hexChar (v.toNat / 256 % 16) :: hexChar (v.toNat / 16 % 16) ::
    hexChar (v.toNat % 16) :: q from rfl, run_succ e1, run_succ (e2 _), run_succ (e3 _), run_succ (e4 _)]
  simp only [ha, hc, hex4_acc]
  rfl

/-- The final terminator of a frame whose checksum matches: the hand-off (41_frame_codec.md R77, R79). -/
theorem feed_handOff {s : State} (hd : Draining s) {name p : List Byte} (hp : p.length ≤ s.cfg.payloadMax) (q : List Byte)
    {c : Codec} (hph : c.phase = .ck) (hc : c.ckCnt = 4) (hb : (feed s [] c).bytes .pay p.length = p) (hn : c.cmdName = name)
    (he : c.expLen = p.length) (hm : c.crcReg = c.ckAcc) :
    step (feed s (term :: q) c) =
      execDispatch name p { feed s q c with sup.lastFrameMs := s.io.now, codec.phase := .hdr } := by
  rw [step_feed hd]
  simp only [execRxByte, feed, hph, rxChecksum, isHexDigit_term, Bool.false_and, Bool.false_eq_true, if_false, hc, and_self, if_true,
    crcMatch, hm, beq_self_eq_true, handOff, he]
  rw [readThen_zero (by simpa [capacity] using hp)]
  change execDispatch c.cmdName ((feed s [] c).bytes .pay p.length) _ = _
  rw [hb, hn]
  simp only [stampFrame, hc, hn, he, hm]

end Sys2Proof.Machine
end

