-- ==== Sys2Proof/Laws/PerInstr.lean ====
section
/-! SUPPORT. Per-instruction families: what holds of each constructor of Instr as syntax. -/

namespace Sys2Proof.Laws.EncodingStartsWithMatch

open Sys2Proof

/-- The row's `match` bytes in opcode_table.json, in the order they stand on the wire; none for an internal operation. -/
def matchBytes : Instr → List Byte
  | .mvel _ _ _ => [0x4D, 0x56, 0x45, 0x4C]
  | .mstop => [0x4D, 0x53, 0x54, 0x4F, 0x50]
  | .dimg _ => [0x44, 0x49, 0x4D, 0x47]
  | .dclear => [0x44, 0x43, 0x4C, 0x45, 0x41, 0x52]
  | .dstatus => [0x44, 0x53, 0x54, 0x41, 0x54, 0x55, 0x53]
  | .sreset => [0x53, 0x52, 0x45, 0x53, 0x45, 0x54]
  | .shalt => [0x53, 0x48, 0x41, 0x4C, 0x54]
  | .sping => [0x53, 0x50, 0x49, 0x4E, 0x47]
  | .ok _ => [0x4F, 0x4B]
  | .err _ => [0x45, 0x52, 0x52]
  | .pending _ => [0x50, 0x45, 0x4E, 0x44, 0x49, 0x4E, 0x47]
  | .rxByte _ => []
  | .crcInit => []
  | .crcUpdate _ => []
  | .crcCheck => []
  | .dispatch _ _ => []
  | .txResponse _ _ => []
  | .stopAction => []
  | .tickTimeout => []
  | .tickWatchdog => []
  | .startRefresh => []
  | .dispStep => []
  | .dispReceive _ => []
  | .clearBuffer => []
  | .restart => []
  | .reset => []

/-- The encoding of an instruction starts with its row's `match` bytes, and an internal operation has none. -/
def Statement (i : Instr) : Prop := matchBytes i <+: encode i ∧ (i.onWire = false → encode i = [])

/-- What stands in front of a string is its own start. -/
theorem of_append {m r : List Byte} (i : Instr) (hm : matchBytes i = m) (he : encode i = m ++ r) (hw : i.onWire = true) :
    Statement i := ⟨⟨r, by rw [hm, he]⟩, fun h => by rw [hw] at h; cases h⟩

theorem mvel (l r d : Word16) : Statement (.mvel l r d) := of_append _ rfl (by simp only [encode, encCmd, List.append_assoc]; rfl) rfl
theorem mstop : Statement .mstop := of_append _ rfl (by simp only [encode, encCmd, List.append_assoc]; rfl) rfl
theorem dimg (data : List Byte) : Statement (.dimg data) := of_append _ rfl (by simp only [encode, encCmd, List.append_assoc]; rfl) rfl
theorem dclear : Statement .dclear := of_append _ rfl (by simp only [encode, encCmd, List.append_assoc]; rfl) rfl
theorem dstatus : Statement .dstatus := of_append _ rfl (by simp only [encode, encCmd, List.append_assoc]; rfl) rfl
theorem sreset : Statement .sreset := of_append _ rfl (by simp only [encode, encCmd, List.append_assoc]; rfl) rfl
theorem shalt : Statement .shalt := of_append _ rfl (by simp only [encode, encCmd, List.append_assoc]; rfl) rfl
theorem sping : Statement .sping := of_append _ rfl (by simp only [encode, encCmd, List.append_assoc]; rfl) rfl
theorem ok (msg : List Byte) : Statement (.ok msg) := of_append _ rfl (by simp only [encode, Machine.encRsp, List.append_assoc]; rfl) rfl
theorem err (msg : List Byte) : Statement (.err msg) := of_append _ rfl (by simp only [encode, Machine.encRsp, List.append_assoc]; rfl) rfl
theorem pending (msg : List Byte) : Statement (.pending msg) := of_append _ rfl (by simp only [encode, Machine.encRsp, List.append_assoc]; rfl) rfl
theorem rxByte (b : Byte) : Statement (.rxByte b) := ⟨List.nil_prefix, fun _ => rfl⟩
theorem crcInit : Statement .crcInit := ⟨List.nil_prefix, fun _ => rfl⟩
theorem crcUpdate (b : Byte) : Statement (.crcUpdate b) := ⟨List.nil_prefix, fun _ => rfl⟩
theorem crcCheck : Statement .crcCheck := ⟨List.nil_prefix, fun _ => rfl⟩
theorem dispatch (name payload : List Byte) : Statement (.dispatch name payload) := ⟨List.nil_prefix, fun _ => rfl⟩
theorem txResponse (st : Status) (msg : List Byte) : Statement (.txResponse st msg) := ⟨List.nil_prefix, fun _ => rfl⟩
theorem stopAction : Statement .stopAction := ⟨List.nil_prefix, fun _ => rfl⟩
theorem tickTimeout : Statement .tickTimeout := ⟨List.nil_prefix, fun _ => rfl⟩
theorem tickWatchdog : Statement .tickWatchdog := ⟨List.nil_prefix, fun _ => rfl⟩
theorem startRefresh : Statement .startRefresh := ⟨List.nil_prefix, fun _ => rfl⟩
theorem dispStep : Statement .dispStep := ⟨List.nil_prefix, fun _ => rfl⟩
theorem dispReceive (chunk : List Byte) : Statement (.dispReceive chunk) := ⟨List.nil_prefix, fun _ => rfl⟩
theorem clearBuffer : Statement .clearBuffer := ⟨List.nil_prefix, fun _ => rfl⟩
theorem restart : Statement .restart := ⟨List.nil_prefix, fun _ => rfl⟩
theorem reset : Statement .reset := ⟨List.nil_prefix, fun _ => rfl⟩

end Sys2Proof.Laws.EncodingStartsWithMatch
end

