-- ==== Sys2Proof/Tests/Slice0.lean ====
section
/-! SUPPORT. The model's own tests: ill-formed terms refused, written-out words decoded, one step of each instruction against the
values of 95_test_vectors.md (each test names its vector), and a witness for the hypotheses of each obligation. -/

namespace Sys2Proof.Tests

set_option Elab.async false

open Sys2Proof Sys2Proof.Machine

/-- The answer is a next state of which `p` holds. -/
def answers (o : Result) (p : State → Bool) : Bool :=
  match o with
  | .next t => p t
  | .fault _ => false
  | .refused _ => false

/-- The answer is that refusal. -/
def refuses (o : Result) (r : Refusal) : Bool :=
  match o with
  | .next _ => false
  | .fault _ => false
  | .refused r' => decide (r' = r)

/-- `OK` with an empty message, `4F 4B 30 0A 0A`. -/
def okEmpty : List Byte := [0x4F, 0x4B, 0x30, 0x0A, 0x0A]

/-- The reset state at a time, the start of the vectors. -/
def at_ (ms : Nat) : State := { State.reset with io.now := ms }

/-- Motors running as vector D1 leaves them at `now = 0`, at a time. -/
def runningD1 (ms : Nat) : State :=
  { at_ ms with
    motor := { leftDuty := 100, rightDuty := 100, running := true, deadlineValid := true, stopDeadlineMs := 500 } }

/-- Motors running without a deadline, as vector D3 leaves them at `now = 0`, at a time. -/
def runningD3 (ms : Nat) : State :=
  { at_ ms with
    motor := { leftDuty := 100, rightDuty := 100, running := true, deadlineValid := false, stopDeadlineMs := 0 } }

/-- The display sequence in a state. -/
def seqAt (q : DispState) (busy : Bool) : State := { State.reset with disp.seq := q, io.panelBusy := busy }

/-- T0 without a display buffer, as vector F6. -/
def noDisplay : State := { State.reset with cfg.displayPresent := false }

/-- The parser in the payload phase of `MVEL6`, five bytes of A11 taken (row 11 of the trace). -/
def fiveTaken : State :=
  { State.reset with
    codec := { State.reset.codec with
      phase := .pay, cmdName := nameBytes .mvel, expLen := 6, payCnt := 5, crcReg := 0x69E6
      payBuf := [(0, 0x64), (2, 0x64), (4, 0xF4)] } }

/-- The parser at the last `TERM` of `MVEL` with payload A11 and a checksum field (row 18 of the trace, vector B15). -/
def lastTerm (ck : Word16) : State :=
  { State.reset with
    codec := { State.reset.codec with
      phase := .ck, cmdName := nameBytes .mvel, expLen := 6, payCnt := 6, crcReg := 0x0BAE, ckAcc := ck, ckCnt := 4
      payBuf := [(0, 0x64), (2, 0x64), (4, 0xF4), (5, 0x01)] } }

/-! ### WellFormed -/

theorem test_t0_wf : Config.t0.wf = true := by decide +kernel
theorem test_wf_cmdBufMax : ({ Config.t0 with cmdBufMax := 7, displayW := 8, displayH := 1 } : Config).wf = false := by decide +kernel
theorem test_wf_cmdBufMax_dimg :
    ({ Config.t0 with cmdBufMax := 8, displayW := 800, displayH := 480, msgMax := 99 } : Config).wf = false := by decide +kernel
theorem test_wf_payloadMax : ({ Config.t0 with payloadMax := 5 } : Config).wf = false := by decide +kernel
theorem test_wf_msgMax : ({ Config.t0 with msgMax := 30, cmdBufMax := 8 } : Config).wf = false := by decide +kernel
theorem test_wf_msgMax_name : ({ Config.t0 with msgMax := 40, cmdBufMax := 26 } : Config).wf = false := by decide +kernel
theorem test_wf_msgMax_length :
    ({ Config.t0 with msgMax := 31, payloadMax := 10000 } : Config).wf = false := by decide +kernel
theorem test_wf_display_bytes : ({ Config.t0 with displayW := 9 , displayH := 7 } : Config).wf = false := by decide +kernel
theorem test_wf_display_empty : ({ Config.t0 with displayW := 0 } : Config).wf = false := by decide +kernel
theorem test_wf_watchdog : ({ Config.t0 with watchdogMs := 0 } : Config).wf = false := by decide +kernel
theorem test_wf_dimg_length : (Instr.dimg (List.replicate 15 0x55)).wf Config.t0 = false := by decide +kernel
theorem test_wf_dimg_payloadMax :
    (Instr.dimg (List.replicate 16 0)).wf { Config.t0 with payloadMax := 15 } = false := by decide +kernel
theorem test_wf_ok : (Instr.ok (List.replicate 65 0x41)).wf Config.t0 = false := by decide +kernel
theorem test_wf_err : (Instr.err (List.replicate 65 0x41)).wf Config.t0 = false := by decide +kernel
theorem test_wf_pending : (Instr.pending []).wf Config.t0 = false := by decide +kernel
theorem test_wf_dispatch_digit : (Instr.dispatch [0x4D, 0x32] []).wf Config.t0 = false := by decide +kernel
theorem test_wf_dispatch_term : (Instr.dispatch [0x4D, 0x0A] []).wf Config.t0 = false := by decide +kernel
theorem test_wf_dispatch_name : (Instr.dispatch (List.replicate 16 0x41) []).wf Config.t0 = false := by decide +kernel
theorem test_wf_dispatch_payload : (Instr.dispatch [0x41] (List.replicate 33 0)).wf Config.t0 = false := by decide +kernel
theorem test_wf_txResponse_pending : (Instr.txResponse .pending []).wf Config.t0 = false := by decide +kernel
theorem test_wf_txResponse_length : (Instr.txResponse .ok (List.replicate 65 0x41)).wf Config.t0 = false := by decide +kernel

/-! ### The CRC function: vectors A1, A4, A5, A9, A13, A16 -/

theorem test_crc_check_value : crc16 [0x31, 0x32, 0x33, 0x34, 0x35, 0x36, 0x37, 0x38, 0x39] = 0x29B1 := by decide +kernel
theorem test_crc_empty : crc16 [] = 0xFFFF := by decide +kernel
theorem test_crc_ones : crc16 [0xFF, 0xFF] = 0x0000 := by decide +kernel
theorem test_crc_image : crc16 (List.replicate 16 0xAA) = 0x6A74 := by decide +kernel
theorem test_crc_residue : crc16 [0x00, 0x00, 0x1D, 0x0F] = 0x0000 := by decide +kernel
theorem test_crc_serial : crcUpdateSerial 0xFFFF 0x41 = 0xB915 := by decide +kernel

/-! ### Decode: words written out from 30_encoding.md R45 to R55, as the vectors list them -/

/-- Vector D2. -/
theorem test_decode_mvel :
    decode Config.t0 [0x4D, 0x56, 0x45, 0x4C, 0x36, 0x0A, 0xD4, 0xFE, 0x2C, 0x01, 0xE8, 0x03, 0x0A, 0x42, 0x41, 0x43, 0x46, 0x0A] =
      .ok (.mvel (BitVec.ofInt 16 (-300)) 300 1000, []) := by decide +kernel
/-- Vector B1, with a byte after the frame. -/
theorem test_decode_mstop :
    decode Config.t0 [0x4D, 0x53, 0x54, 0x4F, 0x50, 0x30, 0x0A, 0x0A, 0x46, 0x46, 0x46, 0x46, 0x0A, 0x99] = .ok (.mstop, [0x99]) := by
  decide +kernel
/-- Vector F2. -/
theorem test_decode_dimg :
    decode Config.t0 ([0x44, 0x49, 0x4D, 0x47, 0x31, 0x36, 0x0A] ++ List.replicate 16 0xAA ++ [0x0A, 0x36, 0x41, 0x37, 0x34, 0x0A]) =
      .ok (.dimg (List.replicate 16 0xAA), []) := by decide +kernel
/-- Vector F4. -/
theorem test_decode_dclear :
    decode Config.t0 [0x44, 0x43, 0x4C, 0x45, 0x41, 0x52, 0x30, 0x0A, 0x0A, 0x46, 0x46, 0x46, 0x46, 0x0A] = .ok (.dclear, []) := by
  decide +kernel
/-- Vector F1. -/
theorem test_decode_dstatus :
    decode Config.t0 [0x44, 0x53, 0x54, 0x41, 0x54, 0x55, 0x53, 0x30, 0x0A, 0x0A, 0x46, 0x46, 0x46, 0x46, 0x0A] = .ok (.dstatus, []) := by
  decide +kernel
/-- Program P5. -/
theorem test_decode_sreset :
    decode Config.t0 [0x53, 0x52, 0x45, 0x53, 0x45, 0x54, 0x30, 0x0A, 0x0A, 0x46, 0x46, 0x46, 0x46, 0x0A] = .ok (.sreset, []) := by
  decide +kernel
/-- Vector G2. -/
theorem test_decode_shalt :
    decode Config.t0 [0x53, 0x48, 0x41, 0x4C, 0x54, 0x30, 0x0A, 0x0A, 0x46, 0x46, 0x46, 0x46, 0x0A] = .ok (.shalt, []) := by
  decide +kernel
/-- Vector G1. -/
theorem test_decode_sping :
    decode Config.t0 [0x53, 0x50, 0x49, 0x4E, 0x47, 0x30, 0x0A, 0x0A, 0x46, 0x46, 0x46, 0x46, 0x0A] = .ok (.sping, []) := by
  decide +kernel
/-- The response of vector G1. -/
theorem test_decode_ok :
    decode Config.t0 [0x4F, 0x4B, 0x34, 0x0A, 0x50, 0x4F, 0x4E, 0x47, 0x0A] = .ok (.ok [0x50, 0x4F, 0x4E, 0x47], []) := by
  decide +kernel
/-- The response of vector C1 with its message shortened to `FOO`. -/
theorem test_decode_err :
    decode Config.t0 [0x45, 0x52, 0x52, 0x33, 0x0A, 0x46, 0x4F, 0x4F, 0x0A] = .ok (.err [0x46, 0x4F, 0x4F], []) := by
  decide +kernel
/-- The status bytes of 30_encoding.md R55. -/
theorem test_decode_pending :
    decode Config.t0 [0x50, 0x45, 0x4E, 0x44, 0x49, 0x4E, 0x47, 0x30, 0x0A, 0x0A] = .ok (.pending [], []) := by decide +kernel
/-- Vector B2. -/
theorem test_decode_noDigit :
    decode Config.t0 [0x4D, 0x56, 0x45, 0x4C, 0x0A] = .error (.malformed .noDigit) := by decide +kernel
/-- Vector B4. -/
theorem test_decode_trailing :
    decode Config.t0 [0x4D, 0x56, 0x45, 0x4C, 0x36, 0x78, 0x0A] = .error (.malformed .trailing) := by decide +kernel
/-- Vector B8. -/
theorem test_decode_payloadTooLong :
    decode Config.t0 [0x44, 0x49, 0x4D, 0x47, 0x33, 0x33, 0x0A] = .error (.malformed .payloadTooLong) := by decide +kernel
/-- Vector B6. -/
theorem test_decode_headerOverflow :
    decode Config.t0 (List.replicate 17 0x41) = .error (.malformed .headerOverflow) := by decide +kernel
/-- Vector B10. -/
theorem test_decode_payloadTerminator :
    decode Config.t0 [0x4D, 0x56, 0x45, 0x4C, 0x36, 0x0A, 0x64, 0x00, 0x64, 0x00, 0xF4, 0x01, 0x58] =
      .error (.malformed .payloadTerminator) := by decide +kernel
/-- Vector B11. -/
theorem test_decode_checksumField :
    decode Config.t0 [0x4D, 0x56, 0x45, 0x4C, 0x36, 0x0A, 0x64, 0x00, 0x64, 0x00, 0xF4, 0x01, 0x0A, 0x42, 0x41, 0x45, 0x0A] =
      .error (.malformed .checksumField) := by decide +kernel
/-- Vectors B13 and B14. -/
theorem test_decode_lowerCase :
    let frame : List Byte :=
      [0x4D, 0x56, 0x45, 0x4C, 0x36, 0x0A, 0x64, 0x00, 0x64, 0x00, 0xF4, 0x01, 0x0A, 0x30, 0x62, 0x61, 0x65, 0x0A]
    decode Config.t0 frame = .error (.malformed .checksumField) ∧
      decode { Config.t0 with ckAcceptLower := true } frame = .ok (.mvel 100 100 500, []) := by decide +kernel
/-- Vector C1. -/
theorem test_decode_unknownCommand :
    decode Config.t0 [0x46, 0x4F, 0x4F, 0x30, 0x0A, 0x0A, 0x46, 0x46, 0x46, 0x46, 0x0A] =
      .error (.malformed (.unknownCommand [0x46, 0x4F, 0x4F])) := by decide +kernel
/-- Vector C4. -/
theorem test_decode_length :
    decode Config.t0 [0x4D, 0x56, 0x45, 0x4C, 0x35, 0x0A, 0x64, 0x00, 0x64, 0x00, 0xF4, 0x0A, 0x36, 0x39, 0x45, 0x36, 0x0A] =
      .error (.malformed (.length 6 5)) := by decide +kernel
/-- A frame cut short. -/
theorem test_decode_incomplete :
    decode Config.t0 [0x53, 0x50, 0x49, 0x4E, 0x47, 0x30, 0x0A, 0x0A, 0x46, 0x46] = .error .incomplete := by decide +kernel
/-- Vector D11, from the command to its frame. -/
theorem test_encode_mvel :
    encode (.mvel 50 (BitVec.ofInt 16 (-50)) 3000) =
      [0x4D, 0x56, 0x45, 0x4C, 0x36, 0x0A, 0x32, 0x00, 0xCE, 0xFF, 0xB8, 0x0B, 0x0A, 0x35, 0x32, 0x38, 0x45, 0x0A] := by
  decide +kernel
/-- A row's word, its first byte in bits 7..0, and the same word with its first byte most significant (log 17). -/
theorem test_decodeTableWord :
    decodeTableWord 32 0x4C45564D = some (.mvel 0 0 0) ∧ decodeTableWord 32 0x4D56454C = some (.mvel 0 0 0) ∧
      decodeTableWord 16 0x4B4F = some (.ok []) ∧ decodeTableWord 0 0 = none := by decide +kernel

/-! ### One step of each instruction -/

/-- Vector D5. -/
theorem test_mvel_extremes : answers (exec (.mvel 0x8000 0x7FFF 0xFFFF) (at_ 1000)) (fun t =>
    decide (t.motor = { leftDuty := -255, rightDuty := 255, running := true, deadlineValid := true, stopDeadlineMs := 66535 }) &&
    decide (t.leftPins = { pwm := 255, fwd := false, rev := true }) &&
    decide (t.rightPins = { pwm := 255, fwd := true, rev := false })) = true := by decide +kernel
/-- Vector D4: no speed, a deadline all the same, and its response text. -/
theorem test_mvel_zero : answers (exec (.mvel 0 0 500) (at_ 1000)) (fun t =>
    decide (t.motor.running = false ∧ t.motor.deadlineValid = true ∧ t.motor.stopDeadlineMs = 1500) &&
    decide (t.io.txStream = [0x4F, 0x4B, 0x31, 0x33, 0x0A, 0x4C, 0x3D, 0x30, 0x20, 0x52, 0x3D, 0x30, 0x20, 0x54, 0x3D, 0x35, 0x30, 0x30, 0x0A]))
    = true := by decide +kernel
/-- Vector D12. -/
theorem test_mstop : answers (exec .mstop (runningD1 0)) (fun t =>
    decide (t.motor.leftDuty = 0 ∧ t.motor.rightDuty = 0 ∧ t.motor.running = false ∧ t.motor.deadlineValid = false) &&
    decide (t.io.txStream = okEmpty)) = true := by decide +kernel
/-- Vector F2, at its last byte: the image stored, nothing sent yet. -/
theorem test_dimg : answers (exec (.dimg (List.replicate 16 0xAA)) State.reset) (fun t =>
    decide (t.bytes .disp 16 = List.replicate 16 0xAA ∧ t.disp.cursor = 16 ∧ t.disp.ready = true ∧ t.disp.seq = .reset) &&
    decide (t.io.txStream = [])) = true := by decide +kernel
/-- Vector F3. -/
theorem test_dimg_length : answers (exec (.dimg (List.replicate 15 0x55)) State.reset) (fun t =>
    decide (t.disp = State.reset.disp) &&
    decide (t.io.txStream =
      [0x45, 0x52, 0x52, 0x32, 0x38, 0x0A, 0x6C, 0x65, 0x6E, 0x67, 0x74, 0x68, 0x20, 0x65, 0x78, 0x70, 0x65, 0x63, 0x74, 0x65,
       0x64, 0x20, 0x31, 0x36, 0x20, 0x61, 0x63, 0x74, 0x75, 0x61, 0x6C, 0x20, 0x31, 0x35, 0x0A])) = true := by decide +kernel
/-- Vector F4: a filled buffer goes blank. -/
theorem test_dclear :
    answers (exec .dclear { State.reset with disp := { buf := [(0, 0xAA), (9, 0x00)], cursor := 16, ready := true, seq := .idle } }) (fun t =>
      decide (t.bytes .disp 16 = List.replicate 16 0xFF ∧ t.disp.cursor = 0 ∧ t.disp.ready = false ∧ t.disp.seq = .reset))
    = true := by decide +kernel
/-- Vector F6. -/
theorem test_dclear_unavailable : answers (exec .dclear noDisplay) (fun t =>
    decide (t.disp = State.reset.disp) &&
    decide (t.io.txStream =
      [0x45, 0x52, 0x52, 0x31, 0x39, 0x0A, 0x64, 0x69, 0x73, 0x70, 0x6C, 0x61, 0x79, 0x20, 0x75, 0x6E, 0x61, 0x76, 0x61, 0x69,
       0x6C, 0x61, 0x62, 0x6C, 0x65, 0x0A])) = true := by decide +kernel
/-- Vector F1. -/
theorem test_dstatus : answers (exec .dstatus State.reset) (fun t =>
    decide (t.io.txStream =
      [0x4F, 0x4B, 0x31, 0x34, 0x0A, 0x66, 0x69, 0x6C, 0x6C, 0x3D, 0x30, 0x20, 0x72, 0x65, 0x61, 0x64, 0x79, 0x3D, 0x30, 0x0A]))
    = true := by decide +kernel
/-- Program P5 at 700: the queue is discarded, one `restart_req`, the reference time at 700. -/
theorem test_sreset : answers (exec .sreset { runningD1 700 with io.rxQueue := [0x53, 0x50] }) (fun t =>
    decide (t.io.rxQueue = [] ∧ t.io.restartReq = 1 ∧ t.sup.lastFrameMs = 700 ∧ t.motor.running = false) &&
    decide (t.io.txStream = okEmpty)) = true := by decide +kernel
/-- Vector G2. -/
theorem test_shalt : answers (exec .shalt (runningD1 50)) (fun t =>
    decide (t.sup.mode = .halted ∧ t.io.sleepReq = 1 ∧ t.motor.leftDuty = 0 ∧ t.motor.deadlineValid = false) &&
    decide (t.io.txStream = okEmpty)) = true := by decide +kernel
/-- Vector G1. -/
theorem test_sping : answers (exec .sping (at_ 42)) (fun t =>
    decide (t = { at_ 42 with io.txStream := [0x4F, 0x4B, 0x34, 0x0A, 0x50, 0x4F, 0x4E, 0x47, 0x0A] })) = true := by decide +kernel
/-- 30_encoding.md R59. -/
theorem test_ok : answers (exec (.ok [0x50, 0x4F, 0x4E, 0x47]) State.reset) (fun t =>
    decide (t.io.txStream = [0x4F, 0x4B, 0x34, 0x0A, 0x50, 0x4F, 0x4E, 0x47, 0x0A])) = true := by decide +kernel
theorem test_ok_too_long : refuses (exec (.ok (List.replicate 65 0)) State.reset) .messageTooLong = true := by decide +kernel
/-- 30_encoding.md R59. -/
theorem test_err : answers (exec (.err [0x46]) State.reset) (fun t =>
    decide (t.io.txStream = [0x45, 0x52, 0x52, 0x31, 0x0A, 0x46, 0x0A])) = true := by decide +kernel
theorem test_pending : refuses (exec (.pending []) State.reset) .pendingReserved = true := by decide +kernel
/-- Row 12 of the byte-by-byte trace. -/
theorem test_rxByte_payload : answers (exec (.rxByte 0x01) fiveTaken) (fun t =>
    decide (t.codec.payCnt = 6 ∧ t.codec.crcReg = 0x0BAE ∧ t.codec.phase = .payterm) &&
    decide (t.bytes .pay 6 = [0x64, 0x00, 0x64, 0x00, 0xF4, 0x01])) = true := by decide +kernel
/-- Vector B15 at its last byte. -/
theorem test_rxByte_mismatch : answers (exec (.rxByte 0x0A) (lastTerm 0x0000)) (fun t =>
    decide (t.codec.phase = .hdr ∧ t.motor = State.reset.motor ∧ t.sup = State.reset.sup) &&
    decide (t.io.txStream =
      [0x45, 0x52, 0x52, 0x33, 0x31, 0x0A, 0x43, 0x52, 0x43, 0x20, 0x65, 0x78, 0x70, 0x65, 0x63, 0x74, 0x65, 0x64, 0x20, 0x30,
       0x42, 0x41, 0x45, 0x20, 0x72, 0x65, 0x63, 0x65, 0x69, 0x76, 0x65, 0x64, 0x20, 0x30, 0x30, 0x30, 0x30, 0x0A])) = true := by
  decide +kernel
theorem test_crcInit : answers (exec .crcInit fiveTaken) (fun t => decide (t.codec.crcReg = 0xFFFF)) = true := by decide +kernel
/-- Vector A4. -/
theorem test_crcUpdate : answers (exec (.crcUpdate 0x41) State.reset) (fun t => decide (t.codec.crcReg = 0xB915)) = true := by
  decide +kernel
theorem test_crcCheck : crcMatch (lastTerm 0x0BAE).codec = true ∧ crcMatch (lastTerm 0x0000).codec = false ∧
    answers (exec .crcCheck (lastTerm 0x0000)) (fun t => decide (t = lastTerm 0x0000)) = true := by decide +kernel
/-- Vector C1. -/
theorem test_dispatch_unknown : answers (exec (.dispatch [0x46, 0x4F, 0x4F] []) State.reset) (fun t =>
    decide (t.io.txStream =
      [0x45, 0x52, 0x52, 0x31, 0x39, 0x0A, 0x75, 0x6E, 0x6B, 0x6E, 0x6F, 0x77, 0x6E, 0x20, 0x63, 0x6F, 0x6D, 0x6D, 0x61, 0x6E,
       0x64, 0x20, 0x46, 0x4F, 0x4F, 0x0A])) = true := by decide +kernel
/-- Vector C4. -/
theorem test_dispatch_length :
    answers (exec (.dispatch (nameBytes .mvel) [0x64, 0x00, 0x64, 0x00, 0xF4]) State.reset) (fun t =>
      decide (t.motor = State.reset.motor) &&
      decide (t.io.txStream =
        [0x45, 0x52, 0x52, 0x32, 0x36, 0x0A, 0x6C, 0x65, 0x6E, 0x67, 0x74, 0x68, 0x20, 0x65, 0x78, 0x70, 0x65, 0x63, 0x74, 0x65,
         0x64, 0x20, 0x36, 0x20, 0x61, 0x63, 0x74, 0x75, 0x61, 0x6C, 0x20, 0x35, 0x0A])) = true := by decide +kernel
theorem test_txResponse : answers (exec (.txResponse .ok []) State.reset) (fun t => decide (t.io.txStream = okEmpty)) = true ∧
    refuses (exec (.txResponse .pending []) State.reset) .pendingReserved = true := by decide +kernel
theorem test_stopAction : answers (exec .stopAction (runningD1 0)) (fun t =>
    decide (t.motor.leftDuty = 0 ∧ t.motor.rightDuty = 0 ∧ t.motor.running = false ∧ t.motor.deadlineValid = false) &&
    decide (t.io.txStream = [])) = true := by decide +kernel
/-- Vector E1. -/
theorem test_tickTimeout : answers (exec .tickTimeout (runningD1 499)) (fun t => decide (t = runningD1 499)) = true ∧
    answers (exec .tickTimeout (runningD1 500)) (fun t => decide (t.motor.leftDuty = 0 ∧ t.motor.running = false)) = true := by
  decide +kernel
/-- Vector E2. -/
theorem test_tickWatchdog : answers (exec .tickWatchdog (runningD3 2000)) (fun t => decide (t = runningD3 2000)) = true ∧
    answers (exec .tickWatchdog (runningD3 2001)) (fun t => decide (t.motor.leftDuty = 0 ∧ t.motor.running = false)) = true := by
  decide +kernel
theorem test_startRefresh : answers (exec .startRefresh State.reset) (fun t => decide (t.disp.seq = .reset)) = true := by
  decide +kernel
/-- Vector F7, step 32. -/
theorem test_dispStep_write : answers (exec .dispStep (seqAt .write true)) (fun t =>
    decide (t.io.panelStream = [.init, .data (List.replicate 16 0xFF)] ∧ t.disp.seq = .refresh)) = true := by decide +kernel
/-- Vector F7, step 35. -/
theorem test_dispStep_sleep : answers (exec .dispStep (seqAt .sleep false)) (fun t =>
    decide (t.io.panelStream = [.sleep] ∧ t.disp.seq = .idle ∧ t.io.txStream = okEmpty)) = true := by decide +kernel
/-- Vector F5, the second chunk: nine of its bytes are ignored. -/
theorem test_dispReceive :
    answers (exec (.dispReceive (List.ofFn fun i : Fin 20 => BitVec.ofNat 8 (0x10 + i)))
      { State.reset with disp := { buf := [(0, 1), (1, 2), (2, 3), (3, 4), (4, 5)], cursor := 5, ready := false, seq := .idle } }) (fun t =>
        decide (t.bytes .disp 16 =
          [0x01, 0x02, 0x03, 0x04, 0x05, 0x10, 0x11, 0x12, 0x13, 0x14, 0x15, 0x16, 0x17, 0x18, 0x19, 0x1A]) &&
        decide (t.disp.cursor = 16 ∧ t.disp.ready = true)) = true := by decide +kernel
theorem test_dispReceive_halted :
    answers (exec (.dispReceive [0x01]) { State.reset with sup.mode := .halted }) (fun t =>
      decide (t.disp = State.reset.disp)) = true := by decide +kernel
theorem test_clearBuffer :
    answers (exec .clearBuffer { State.reset with disp := { buf := [(3, 0)], cursor := 4, ready := false, seq := .idle } }) (fun t =>
      decide (t.bytes .disp 16 = List.replicate 16 0xFF ∧ t.disp.cursor = 0 ∧ t.io = State.reset.io)) = true := by decide +kernel
theorem test_restart : answers (exec .restart (runningD1 7)) (fun t =>
    decide (t.io.restartReq = 1 ∧ t.sup.lastFrameMs = 7 ∧ t.motor = State.reset.motor ∧ t.io.txStream = [])) = true := by
  decide +kernel
/-- 70_reset_and_hazards.md R155: a boot without a display buffer is reported once. -/
theorem test_reset : answers (exec .reset { noDisplay with io.now := 9, sup.mode := .halted }) (fun t =>
    decide (t.io.bootDiag = 1 ∧ t.io.restartReq = 0 ∧ t.sup = { lastFrameMs := 9, mode := .run })) = true := by decide +kernel

/-! ### The step -/

/-- Program P1's frame, fed whole, and one iteration later. -/
theorem test_step_takes_host_bytes :
    answers (step { State.reset with env := [.host [0x4D, 0x56]] }) (fun t => decide (t.io.rxQueue = [0x4D, 0x56] ∧ t.env = [])) = true := by
  decide +kernel
/-- Row 1 of the trace. -/
theorem test_step_drains : answers (step { State.reset with io.rxQueue := [0x4D, 0x56] }) (fun t =>
    decide (t.io.rxQueue = [0x56] ∧ t.codec.hdrLen = 1 ∧ t.loopPhase = .drain)) = true := by decide +kernel
/-- Row 18 of the trace: the hand-off runs the command. -/
theorem test_step_hands_off :
    answers (step { lastTerm 0x0BAE with io := { State.reset.io with now := 5, rxQueue := [0x0A] } }) (fun t =>
      decide (t.sup.lastFrameMs = 5 ∧ t.codec.phase = .hdr ∧ t.motor.leftDuty = 100 ∧ t.motor.stopDeadlineMs = 505)) = true := by
  decide +kernel
/-- The placed row `DSTATUS` runs as the very next step. -/
theorem test_step_runs_placed_word :
    answers (step (State.reset.withFetchWord 56 0x53555441545344)) (fun t =>
      decide (t.io.txStream =
        [0x4F, 0x4B, 0x31, 0x34, 0x0A, 0x66, 0x69, 0x6C, 0x6C, 0x3D, 0x30, 0x20, 0x72, 0x65, 0x61, 0x64, 0x79, 0x3D, 0x30, 0x0A]))
    = true := by decide +kernel

/-! ### The invariant of a written-out state, as a computation -/

/-- Every clause of `Inv`, decided. -/
def invChecks (s : State) : Bool :=
  (s.cfg.wf && decide (s.codec.hdrLen ≤ s.cfg.cmdBufMax) && decide (s.codec.phase ≠ .hdr → s.codec.hdrLen = 0) &&
    decide (∀ a ∈ List.range s.codec.hdrLen, s.readByte .hdr a ≠ term) && nameWf s.cfg s.codec.cmdName &&
    decide (s.codec.expLen ≤ s.cfg.payloadMax) && decide (s.codec.payCnt ≤ s.codec.expLen) &&
    decide (s.codec.phase = .pay → s.codec.payCnt < s.codec.expLen) &&
    decide (s.codec.phase = .payterm ∨ s.codec.phase = .ck → s.codec.payCnt = s.codec.expLen) &&
    decide (s.codec.crcReg = crc16 (s.bytes .pay s.codec.payCnt)) && decide (s.codec.ckCnt ≤ 4) &&
    decide (s.codec.ckAcc.toNat < 16 ^ s.codec.ckCnt)) &&
  (decide (-255 ≤ s.motor.leftDuty ∧ s.motor.leftDuty ≤ 255) && decide (-255 ≤ s.motor.rightDuty ∧ s.motor.rightDuty ≤ 255) &&
    decide (s.motor.running = true ↔ (s.motor.leftDuty ≠ 0 ∨ s.motor.rightDuty ≠ 0)) &&
    decide (s.motor.deadlineValid = true → s.motor.stopDeadlineMs ≤ s.io.now + 65535)) &&
  (decide (s.disp.cursor ≤ capacity s.cfg .disp) && decide (s.disp.ready = true ↔ s.disp.cursor = s.cfg.displayCapacity) &&
    decide (s.disp.seq ≠ .idle → s.cfg.displayPresent = true)) &&
  (decide (s.disp.seq ≠ .idle → s.sup.mode = .run ∧ s.loopPhase = .drain ∧ s.codec.phase = .hdr ∧ s.codec.hdrLen = 0) &&
    decide (s.sup.mode = .halted →
      (s.motor.leftDuty = 0 ∧ s.motor.rightDuty = 0 ∧ s.motor.running = false ∧ s.motor.deadlineValid = false) ∧
        s.disp.seq = .idle ∧ s.loopPhase = .drain) &&
    decide (s.sup.lastFrameMs ≤ s.io.now)) &&
  (decide (Mem.wf 0 s.codec.hdrBuf) && decide (Mem.wf 0 s.codec.payBuf) && decide (Mem.wf s.cfg.blankByte s.disp.buf) &&
    decide (Mem.below (capacity s.cfg .hdr) s.codec.hdrBuf) && decide (Mem.below (capacity s.cfg .pay) s.codec.payBuf) &&
    decide (Mem.below (capacity s.cfg .disp) s.disp.buf))

theorem inv_of_checks {s : State} (h : invChecks s = true) : Inv s := by
  simp only [invChecks, Bool.and_eq_true, decide_eq_true_eq] at h
  obtain ⟨⟨⟨⟨⟨⟨⟨⟨⟨⟨⟨⟨⟨⟨⟨c0, c1⟩, c2⟩, c3⟩, c4⟩, c5⟩, c6⟩, c7⟩, c8⟩, c9⟩, c10⟩, c11⟩, ⟨⟨m1, m2⟩, m3⟩, m4⟩, ⟨d1, d2⟩, d3⟩, ⟨l1, l2⟩, l3⟩,
    ⟨⟨⟨⟨b1, b2⟩, b3⟩, b4⟩, b5⟩, b6⟩ := h
  refine ⟨c0, ⟨c1, c2, fun a ha => c3 a (List.mem_range.2 ha), c4, c5, c6, c7, c8, c9, c10, c11⟩, ⟨m1, m2, m3, m4⟩, ⟨d1, d2, d3⟩,
    ⟨l1, l2, l3⟩, ⟨fun sp => ?_, fun sp => ?_⟩⟩
  · cases sp
    · exact b1
    · exact b2
    · exact b3
  · cases sp
    · exact b4
    · exact b5
    · exact b6

/-- A next state of which `p` holds, from the computation. -/
theorem of_answers {o : Result} {p : State → Bool} (h : answers o p = true) : ∃ t, o = .next t ∧ p t = true := by
  cases o with
  | next t => exact ⟨t, rfl, h⟩
  | fault r => cases h
  | refused r => cases h

/-! ### Witnesses: a state and operands that meet each obligation's hypotheses together -/

/-- A header buffer holding a line, the parser in header phase. -/
def headerLine (line : List Byte) : State :=
  { State.reset with codec := { State.reset.codec with hdrBuf := memWriteN 0 [] 0 line, hdrLen := line.length } }

/-- The device at the last byte of that frame, the byte in the queue, running, nothing scheduled. -/
def atHandOff : State := { lastTerm 0x0BAE with io := { State.reset.io with now := 5, rxQueue := [0x0A] } }

/-- A halted device. -/
def halted : State := { State.reset with sup.mode := .halted }

/-- One payload byte `58` received where the checksum field stands for `59`. -/
def corrupted : State :=
  { State.reset with
    codec := { State.reset.codec with
      phase := .ck, cmdName := nameBytes .mstop, expLen := 1, payCnt := 1, crcReg := 0x3A0D, ckCnt := 4
      ckAcc := crc16 [0x59], payBuf := [(0, 0x58)] } }

theorem witness_DecodeOfEncodeIsIdentity :
    Config.t0.wf = true ∧
    ((Instr.dimg (List.replicate 16 0x0A)).wf Config.t0 = true ∧ (Instr.dimg (List.replicate 16 0x0A)).onWire = true) ∧
    ((Instr.err (List.replicate 64 0x0A)).wf Config.t0 = true ∧ (Instr.err (List.replicate 64 0x0A)).onWire = true) := by
  decide +kernel
theorem witness_CrcDetectsOneChangedByte : (0x58 : Byte) ≠ 0x59 := by decide
theorem witness_HeaderByteIsAccumulatedOrDropped :
    let s := headerLine (List.replicate 15 0x41); let u := headerLine (List.replicate 16 0x41)
    (BufferInv s ∧ s.codec.phase = .hdr ∧ (0x00 : Byte) ≠ 0x0A ∧ s.codec.hdrLen < s.cfg.cmdBufMax) ∧
    (BufferInv u ∧ u.codec.phase = .hdr ∧ u.cfg.cmdBufMax ≤ u.codec.hdrLen) :=
  ⟨⟨(inv_of_checks (by decide +kernel)).buffers, by decide +kernel⟩, ⟨(inv_of_checks (by decide +kernel)).buffers, by decide +kernel⟩⟩
/-- Lines `MVEL`, `MVEL6x`, `M33` (one above `PAYLOAD_MAX`), `M32` (at it) and `0` (empty name, no payload). -/
theorem witness_HeaderLineIsSplitOrDropped :
    let shape (name rest : List Byte) : Bool :=
      decide ((headerLine (name ++ rest)).codec.phase = .hdr ∧
        (headerLine (name ++ rest)).codec.hdrLen ≤ (headerLine (name ++ rest)).cfg.cmdBufMax ∧
        (headerLine (name ++ rest)).bytes .hdr (headerLine (name ++ rest)).codec.hdrLen = name ++ rest ∧
        (∀ b ∈ name, isDigit b = false) ∧ ∀ b ∈ rest.head?, isDigit b = true)
    shape [0x4D, 0x56, 0x45, 0x4C] [] = true ∧
    shape [0x4D, 0x56, 0x45, 0x4C] [0x36, 0x78] = true ∧ (∃ b ∈ [(0x36 : Byte), 0x78], isDigit b = false) ∧
    shape [0x4D] [0x33, 0x33] = true ∧ State.reset.cfg.payloadMax < decVal [0x33, 0x33] ∧
    shape [0x4D] [0x33, 0x32] = true ∧ (∀ b ∈ [(0x33 : Byte), 0x32], isDigit b = true) ∧
      decVal [0x33, 0x32] = State.reset.cfg.payloadMax ∧
    shape [] [0x30] = true ∧ decVal [0x30] = 0 := by decide +kernel
theorem witness_PayloadByteIsStoredAndFed :
    let s : State :=
      { State.reset with codec := { State.reset.codec with
          phase := .pay, expLen := 32, payCnt := 31, crcReg := crc16 (List.replicate 31 0) } }
    BufferInv s ∧ s.codec.phase = .pay ∧ s.codec.payCnt < s.cfg.payloadMax :=
  ⟨(inv_of_checks (by decide +kernel)).buffers, by decide +kernel⟩
theorem witness_PayloadTerminatorOpensChecksum :
    ({ State.reset with codec.phase := .payterm } : State).codec.phase = .payterm := by decide +kernel
/-- `F` and `f` as the fourth digit, `g` at any count, `TERM` after three digits, a fifth digit. -/
theorem witness_ChecksumDigitsAccumulate :
    let s (n : Nat) (lower : Bool) : State :=
      { lastTerm 0 with codec.ckCnt := n, cfg.ckAcceptLower := lower }
    ((s 3 false).codec.phase = .ck ∧ (0x46 : Byte) = hexChar 15 ∧ (s 3 false).codec.ckCnt < 4) ∧
    ((s 3 true).cfg.ckAcceptLower = true ∧ (0x66 : Byte) = BitVec.ofNat 8 (0x57 + 15)) ∧
    ((∀ n ∈ List.range 16, (0x67 : Byte) ≠ hexChar n) ∧ (∀ n ∈ List.range 16, (0x67 : Byte) ≠ BitVec.ofNat 8 (0x57 + n)) ∧
      (0x67 : Byte) ≠ 0x0A) ∧
    (s 3 false).codec.ckCnt ≠ 4 ∧ 4 ≤ (s 4 false).codec.ckCnt := by decide +kernel
theorem witness_ChecksumCompletionDispatchesOrRejects :
    ((lastTerm 0x0BAE).codec.phase = .ck ∧ (lastTerm 0x0BAE).codec.ckCnt = 4 ∧
      (lastTerm 0x0BAE).codec.crcReg = (lastTerm 0x0BAE).codec.ckAcc ∧
      (lastTerm 0x0BAE).codec.expLen ≤ (lastTerm 0x0BAE).cfg.payloadMax) ∧
    (lastTerm 0).codec.crcReg ≠ (lastTerm 0).codec.ckAcc := by decide +kernel
theorem witness_RxByteAlwaysCompletes : CodecInv (lastTerm 0x0BAE) := (inv_of_checks (by decide +kernel)).codec
theorem witness_FrameErrorsAreLocal :
    (∃ t, exec (.rxByte 0x0A) (lastTerm 0) = .next t) ∧
    ¬((lastTerm 0).codec.phase = .ck ∧ (0x0A : Byte) = 0x0A ∧ (lastTerm 0).codec.ckCnt = 4 ∧
      (lastTerm 0).codec.crcReg = (lastTerm 0).codec.ckAcc) :=
  ⟨⟨_, rfl⟩, by decide +kernel⟩
/-- A full header, the line `MVEL`, a byte that ends no frame and one that does in `PAYTERM` and in `CK`, a payload byte. -/
theorem witness_FrameEndReturnsToHeader :
    let pay (ph : Phase) : State := { State.reset with codec := { State.reset.codec with phase := ph, expLen := 32, payCnt := 31 } }
    let meets (s : State) (b : Byte) : Bool :=
      decide (s.codec.phase ≠ .hdr → s.codec.hdrLen = 0) && answers (exec (.rxByte b) s) fun _ => true
    meets (headerLine (List.replicate 16 0x41)) 0x41 = true ∧ EndsFrame (headerLine (List.replicate 16 0x41)) 0x41 ∧
    meets (headerLine [0x4D, 0x56, 0x45, 0x4C]) 0x0A = true ∧ EndsFrame (headerLine [0x4D, 0x56, 0x45, 0x4C]) 0x0A ∧
    meets (headerLine []) 0x41 = true ∧ ¬EndsFrame (headerLine []) 0x41 ∧
    meets (pay .pay) 0x0A = true ∧ ¬EndsFrame (pay .pay) 0x0A ∧
    meets (pay .payterm) 0x0D = true ∧ EndsFrame (pay .payterm) 0x0D ∧
    meets (pay .payterm) 0x0A = true ∧ ¬EndsFrame (pay .payterm) 0x0A ∧
    meets (lastTerm 0) 0x0A = true ∧ EndsFrame (lastTerm 0) 0x0A ∧
    meets (lastTerm 0x0BAE) 0x0A = true ∧ EndsFrame (lastTerm 0x0BAE) 0x0A := by
  refine ⟨by decide +kernel, (by decide +kernel : 16 ≤ 16), by decide +kernel, .inl (by decide +kernel), by decide +kernel,
    (by decide +kernel : ¬16 ≤ 0), by decide +kernel, fun h => h, by decide +kernel, (by decide +kernel : (0x0D : Byte) ≠ term),
    by decide +kernel, fun h => h rfl, by decide +kernel, ?_, by decide +kernel, ?_⟩
  · exact fun h => absurd h.2 (by decide +kernel)
  · exact fun h => absurd h.2 (by decide +kernel)
theorem witness_UnknownNameIsAnsweredErr : ∀ c : CommandName, [0x46, 0x4F, 0x4F] ≠ nameBytes c := by
  intro c; cases c <;> decide
theorem witness_WrongLengthIsAnsweredErr :
    ([0x64, 0x00, 0x64, 0x00, 0xF4] : List Byte).length ≠ 6 ∧ (List.replicate 15 (0x55 : Byte)).length ≠ State.reset.cfg.displayCapacity ∧
    ([0x58] : List Byte).length ≠ 0 := by decide +kernel
theorem witness_DispatchRunsTheNamedCommand :
    ([0, 0, 0, 0, 0, 0] : List Byte).length = 6 ∧ (List.replicate 16 (0x55 : Byte)).length = State.reset.cfg.displayCapacity ∧
    ([] : List Byte).length = 0 := by decide +kernel
theorem witness_ResponsesAreAppendedWhole : (List.replicate 64 (0x41 : Byte)).length ≤ State.reset.cfg.msgMax := by decide +kernel
theorem witness_PendingAndOverlongMessagesAreRefused : State.reset.cfg.msgMax < (List.replicate 65 (0x41 : Byte)).length := by
  decide +kernel
theorem witness_MvelSetsTheSetpoints : (1 : Word16) ≠ 0 := by decide
theorem witness_MotorPinsFollowTheDuties :
    MotorInv { State.reset with
      motor := { leftDuty := -255, rightDuty := 255, running := true, deadlineValid := true, stopDeadlineMs := 65535 } } :=
  (inv_of_checks (by decide +kernel)).motor
theorem witness_TimeoutTickStopsAtTheDeadline :
    ((runningD1 500).motor.running = true ∧ (runningD1 500).motor.deadlineValid = true ∧
      (runningD1 500).motor.stopDeadlineMs ≤ (runningD1 500).io.now) ∧
    ¬((runningD1 499).motor.running = true ∧ (runningD1 499).motor.deadlineValid = true ∧
      (runningD1 499).motor.stopDeadlineMs ≤ (runningD1 499).io.now) ∧
    let s : State := { runningD1 500 with loopPhase := .timeout }
    s.env = [] ∧ s.sup.mode = .run ∧ s.disp.seq = .idle ∧ s.loopPhase = .timeout := by decide +kernel
theorem witness_WatchdogTickStopsASilentRun :
    ((runningD3 2001).motor.running = true ∧
      (runningD3 2001).cfg.watchdogMs < (runningD3 2001).io.now - (runningD3 2001).sup.lastFrameMs) ∧
    ¬((runningD3 2000).motor.running = true ∧
      (runningD3 2000).cfg.watchdogMs < (runningD3 2000).io.now - (runningD3 2000).sup.lastFrameMs) ∧
    let s : State := { runningD3 2001 with loopPhase := .watchdog }
    s.env = [] ∧ s.sup.mode = .run ∧ s.disp.seq = .idle ∧ s.loopPhase = .watchdog := by decide +kernel
theorem witness_MotorLogicTransitions :
    (∃ t, exec (.mvel 1 0 0) State.reset = .next t) ∧ (∃ t, exec .sreset (runningD1 0) = .next t) ∧
    (∃ t, exec .tickTimeout (runningD1 500) = .next t) ∧ (∃ t, exec .tickWatchdog (runningD3 2001) = .next t) ∧
    (∃ t, exec .dispStep (runningD1 0) = .next t) ∧ ∃ t, exec (.dimg []) (runningD1 0) = .next t :=
  ⟨⟨_, rfl⟩, ⟨_, rfl⟩, ⟨_, rfl⟩, ⟨_, rfl⟩, ⟨_, rfl⟩, ⟨_, rfl⟩⟩
theorem witness_DimgReplacesTheImage :
    BufferInv (seqAt .idle false) ∧ BufferInv { seqAt .idle true with cfg.displayPresent := false } ∧
    (List.replicate 15 (0x55 : Byte)).length ≠ (seqAt .idle false).cfg.displayCapacity ∧
    (List.replicate 16 (0x55 : Byte)).length = (seqAt .idle false).cfg.displayCapacity ∧
    (seqAt .idle false).cfg.displayPresent = true :=
  ⟨(inv_of_checks (by decide +kernel)).buffers, (inv_of_checks (by decide +kernel)).buffers, by decide +kernel⟩
theorem witness_DclearBlanksAndRefreshes :
    State.reset.cfg.displayPresent = true ∧ noDisplay.cfg.displayPresent = false := by decide +kernel
theorem witness_DstatusReportsTheFill :
    State.reset.cfg.displayPresent = true ∧ noDisplay.cfg.displayPresent = false := by decide +kernel
theorem witness_RefreshStepsInOrder :
    (seqAt .reset false).disp.seq = .reset ∧ (seqAt .waitBusy true).disp.seq = .waitBusy ∧
    ((seqAt .write false).disp.seq = .write ∧ (seqAt .write false).cfg.displayPresent = true) ∧
    (seqAt .refresh false).disp.seq = .refresh ∧ (seqAt .waitDone true).disp.seq = .waitDone ∧
    (seqAt .sleep false).disp.seq = .sleep ∧ (seqAt .idle false).disp.seq = .idle := by decide +kernel
/-- The cursor at 0 and at capacity, and each reason not to be accepted. -/
theorem witness_DispReceiveFillsFromTheCursor :
    let s (n : Nat) : State := { at_ 3 with disp := { buf := [], cursor := n, ready := decide (n = 16), seq := .idle } }
    (BufferInv (s 0) ∧ (s 0).sup.mode = .run ∧ (s 0).disp.seq = .idle ∧ (s 0).cfg.displayPresent = true ∧
      (s 0).disp.cursor ≤ (s 0).cfg.displayCapacity) ∧
    (BufferInv (s 16) ∧ (s 16).disp.cursor = (s 16).cfg.displayCapacity) ∧
    halted.sup.mode ≠ .run ∧ (seqAt .reset false).disp.seq ≠ .idle ∧ noDisplay.cfg.displayPresent = false :=
  ⟨⟨(inv_of_checks (by decide +kernel)).buffers, by decide +kernel⟩,
    ⟨(inv_of_checks (by decide +kernel)).buffers, by decide +kernel⟩, by decide +kernel⟩
theorem witness_RefreshRunsToItsResponse :
    (seqAt .reset false).env = [] ∧ (seqAt .reset false).sup.mode = .run ∧ (seqAt .reset false).disp.seq = .reset ∧
    (seqAt .reset false).cfg.displayPresent = true ∧ (seqAt .reset false).io.panelBusy = false := by decide +kernel
theorem witness_BusyPanelHangs :
    (seqAt .waitBusy true).env = [] ∧ (seqAt .waitBusy true).disp.seq = .waitBusy ∧ (seqAt .waitDone true).disp.seq = .waitDone ∧
    (seqAt .waitBusy true).io.panelBusy = true := by decide +kernel
theorem witness_DeviceStepRunsTheSelectedOperation :
    (State.reset.env = [] ∧ ({ State.reset with env := [.device, .panel true] } : State).env = .device :: [.panel true]) ∧
    halted.sup.mode = .halted ∧ (State.reset.sup.mode = .run ∧ State.reset.disp.seq = .idle ∧ State.reset.loopPhase = .drain ∧
      State.reset.io.rxQueue = []) ∧ (seqAt .sleep false).disp.seq ≠ .idle ∧ atHandOff.io.rxQueue = 0x0A :: [] ∧
    ({ State.reset with loopPhase := .timeout } : State).loopPhase = .timeout ∧
    ({ State.reset with loopPhase := .watchdog } : State).loopPhase = .watchdog := by decide +kernel
theorem witness_EnvironmentMovesOnlyItsInputs :
    let s (e : EnvStep) : State := { State.reset with env := [e, .device] }
    (s (.host [1])).env = .host [1] :: [.device] ∧ (s (.clock 3)).env = .clock 3 :: [.device] ∧
    (s (.panel true)).env = .panel true :: [.device] ∧ (s (.chunk [1])).env = .chunk [1] :: [.device] ∧
    (s .extReset).env = .extReset :: [.device] := by decide +kernel
theorem witness_PlacedCommandsRunNext :
    (Instr.mvel 0 0 0, 32, 0x4C45564D) ∈
      [(Instr.mvel 0 0 0, 32, 0x4C45564D), (.mstop, 40, 0x504F54534D), (.sping, 40, 0x474E495053)] := by decide +kernel
theorem witness_StepKeepsTheInvariant : Inv atHandOff ∧ ∃ t, step atHandOff = .next t :=
  ⟨inv_of_checks (by decide +kernel), by
    obtain ⟨t, h, -⟩ := of_answers (o := step atHandOff) (p := fun _ => true) (by decide +kernel)
    exact ⟨t, h⟩⟩
theorem witness_StepNeverStops : Inv (seqAt .write true) := inv_of_checks (by decide +kernel)
theorem witness_StepSendsAtMostOneResponse : Inv (seqAt .sleep false) ∧ ∃ t, step (seqAt .sleep false) = .next t :=
  ⟨inv_of_checks (by decide +kernel), _, rfl⟩
theorem witness_HistoriesOnlyGrow : ∃ t, step (seqAt .sleep false) = .next t := ⟨_, rfl⟩
theorem witness_OnlyMvelStartsTheMotors : ∃ t, step atHandOff = .next t ∧ t.motor ≠ atHandOff.motor := by
  obtain ⟨t, h, hp⟩ := of_answers (o := step atHandOff) (p := fun t => decide (t.motor ≠ atHandOff.motor)) (by decide +kernel)
  exact ⟨t, h, by simpa using hp⟩
theorem witness_OnlyHandOffsAndResetsStampTheWatchdog :
    AtHandOff atHandOff ∧ ∃ t, step atHandOff = .next t ∧ t.sup.lastFrameMs ≠ atHandOff.sup.lastFrameMs := by
  obtain ⟨t, h, hp⟩ :=
    of_answers (o := step atHandOff) (p := fun t => decide (t.sup.lastFrameMs ≠ atHandOff.sup.lastFrameMs)) (by decide +kernel)
  exact ⟨⟨.inl rfl, rfl, rfl, rfl, rfl, rfl, rfl, rfl⟩, t, h, by simpa using hp⟩
theorem witness_HaltedUntilExternalReset :
    halted.sup.mode = .halted ∧ EnvStep.extReset ∉ ({ halted with env := [.host [1], .device, .chunk [2]] } : State).env := by
  decide +kernel
theorem witness_ExternalResetActsInEveryState :
    ({ halted with env := [.extReset] } : State).env = .extReset :: [] := by decide +kernel
theorem witness_RefreshBlocksAllService :
    (seqAt .waitDone false).sup.mode = .run ∧ (seqAt .waitDone false).disp.seq ≠ .idle ∧
    (∀ rest, (seqAt .waitDone false).env ≠ .extReset :: rest) ∧ ∃ t, step (seqAt .waitDone false) = .next t :=
  ⟨rfl, by decide +kernel, fun _ h => (nomatch h), _, rfl⟩
theorem witness_DueStopsHappenWithinAnIteration :
    ((runningD3 2001).env = [] ∧ (runningD3 2001).sup.mode = .run ∧ (runningD3 2001).disp.seq = .idle ∧
      (runningD3 2001).io.rxQueue = [] ∧ (runningD3 2001).motor.running = true ∧
      (runningD3 2001).cfg.watchdogMs < (runningD3 2001).io.now - (runningD3 2001).sup.lastFrameMs) ∧
    ((runningD1 500).motor.deadlineValid = true ∧ (runningD1 500).motor.stopDeadlineMs ≤ (runningD1 500).io.now) := by
  decide +kernel
theorem witness_ConformingFrameIsExecuted :
    let i : Instr := .dimg (List.replicate 16 0x0A)
    let s : State := { State.reset with io.rxQueue := encode i ++ [0x53] }
    Inv s ∧ i.wf s.cfg = true ∧ commandOf i = some .dimg ∧ s.env = [] ∧ s.sup.mode = .run ∧ s.disp.seq = .idle ∧
      s.loopPhase = .drain ∧ s.codec.phase = .hdr ∧ s.codec.hdrLen = 0 ∧ s.io.rxQueue = encode i ++ [0x53] :=
  ⟨inv_of_checks (by decide +kernel), by decide +kernel, rfl, rfl, rfl, rfl, rfl, rfl, rfl, rfl⟩
theorem witness_CorruptedPayloadRunsNoHandler :
    Inv corrupted ∧ corrupted.codec.phase = .ck ∧ corrupted.codec.ckCnt = 4 ∧ (0x58 : Byte) ≠ 0x59 ∧
    corrupted.bytes .pay corrupted.codec.expLen = [] ++ [0x58] ++ [] ∧ corrupted.codec.ckAcc = crc16 ([] ++ [0x59] ++ []) :=
  ⟨inv_of_checks (by decide +kernel), by decide +kernel⟩
/-- The unknown name `FOO`, an empty name, and `MVEL` with 32 bytes, the most `PAYLOAD_MAX` allows. -/
theorem witness_EveryConformingFrameIsDispatched :
    let fed (name p : List Byte) : State := { State.reset with io.rxQueue := encCmd name p ++ [0x53] }
    let meets (name p : List Byte) : Prop :=
      Inv (fed name p) ∧ (∀ b ∈ name, isDigit b = false ∧ b ≠ 0x0A) ∧
      name.length + (dec p.length).length ≤ (fed name p).cfg.cmdBufMax ∧ p.length ≤ (fed name p).cfg.payloadMax ∧
      (fed name p).env = [] ∧ (fed name p).sup.mode = .run ∧ (fed name p).disp.seq = .idle ∧ (fed name p).loopPhase = .drain ∧
      (fed name p).codec.phase = .hdr ∧ (fed name p).codec.hdrLen = 0 ∧ (fed name p).io.rxQueue = encCmd name p ++ [0x53]
    meets [0x46, 0x4F, 0x4F] [] ∧ meets [] [0x0A] ∧ meets (nameBytes .mvel) (List.replicate 32 0x0A) :=
  ⟨⟨inv_of_checks (by decide +kernel), by decide +kernel⟩, ⟨inv_of_checks (by decide +kernel), by decide +kernel⟩,
    inv_of_checks (by decide +kernel), by decide +kernel⟩

end Sys2Proof.Tests
end

/-! SUPPORT. The whole frames of the encoder read back by the decoder: header lines, command frames, response frames (O2). -/

namespace Sys2Proof.Machine

/-! ### Names and statuses in a header -/

theorem nameBytes_not_digit (c : CommandName) : ∀ b ∈ nameBytes c, isDigit b = false := by cases c <;> decide

theorem term_notMem_nameBytes (c : CommandName) : term ∉ nameBytes c := by cases c <;> decide

theorem statusBytes_not_digit (st : Status) : ∀ b ∈ statusBytes st, isDigit b = false := by cases st <;> decide

theorem term_notMem_statusBytes (st : Status) : term ∉ statusBytes st := by cases st <;> decide

@[simp] theorem lookupStatus_statusBytes (st : Status) : lookupStatus (statusBytes st) = some st := by cases st <;> decide

/-- No command name is a status, so the two kinds of frame are told apart by the header. -/
@[simp] theorem lookupStatus_nameBytes (c : CommandName) : lookupStatus (nameBytes c) = none := by cases c <;> decide

theorem term_notMem_dec (n : Nat) : term ∉ dec n := fun h => by
  have := dec_digits n term h
  rw [isDigit_term] at this
  cases this

/-- A header line ends at its own `TERM`: neither the name nor the length spells one. -/
theorem takeLine_header {name : List Byte} (n : Nat) (r : List Byte) (ht : term ∉ name) :
    takeLine (name ++ dec n ++ term :: r) = some (name ++ dec n, r) :=
  takeLine_append r (by simp [ht, term_notMem_dec])

/-- A header announcing more than the bound is refused, whatever its name. -/
theorem splitHeader_dec_tooLong {name : List Byte} {pm n : Nat} (hn : ∀ b ∈ name, isDigit b = false) (hp : pm < n) :
    splitHeader pm (name ++ dec n) = .error .payloadTooLong := by
  have h2 : (dec n).all isDigit = true := List.all_eq_true.2 (dec_digits n)
  rw [splitHeader_split pm hn (dec_head_digit n)]
  simp [dec_ne_nil, h2, hp]

/-! ### What the parameters' constraints give (00_scope.md R6) -/

/-- Every command's header line fits the command buffer. -/
theorem header_length_le {cfg : Config} (h : cfg.wf = true) (c : CommandName) :
    (nameBytes c).length + (dec (expectedLength cfg c)).length ≤ cfg.cmdBufMax := by
  simp only [Config.wf, Bool.and_eq_true, decide_eq_true_eq] at h
  obtain ⟨⟨⟨⟨⟨⟨⟨⟨hbuf, himg⟩, -⟩, -⟩, -⟩, -⟩, -⟩, -⟩, -⟩ := h
  have h0 : (dec 0).length = 1 := dec_length_of_lt_ten (by omega)
  have h6 : (dec 6).length = 1 := dec_length_of_lt_ten (by omega)
  cases c <;> simp only [nameBytes, expectedLength, List.length_cons, List.length_nil, h0, h6] <;> omega

theorem mvel_length_le_payloadMax {cfg : Config} (h : cfg.wf = true) : 6 ≤ cfg.payloadMax := by
  simp only [Config.wf, Bool.and_eq_true, decide_eq_true_eq] at h
  obtain ⟨⟨⟨⟨⟨⟨⟨-, hpay⟩, -⟩, -⟩, -⟩, -⟩, -⟩, -⟩ := h
  exact hpay

/-! ### Response frames -/

/-- A response frame reads back, up to the bound on its message (30_encoding.md R46, R59). -/
theorem decodeResponseFrame_encRsp {cfg : Config} (st : Status) {msg : List Byte} (rest : List Byte)
    (hm : msg.length ≤ cfg.msgMax) :
    decodeResponseFrame cfg (encRsp st msg ++ rest) = some (responseInstr st msg, rest) := by
  have hb : encRsp st msg ++ rest = statusBytes st ++ dec msg.length ++ term :: (msg ++ term :: rest) := by simp [encRsp]
  rw [hb, decodeResponseFrame, takeLine_header _ _ (term_notMem_statusBytes st)]
  simp [splitHeader_dec (statusBytes_not_digit st) hm]

theorem decode_encRsp {cfg : Config} (st : Status) {msg : List Byte} (rest : List Byte) (hm : msg.length ≤ cfg.msgMax) :
    decode cfg (encRsp st msg ++ rest) = .ok (responseInstr st msg, rest) := by
  rw [decode, decodeResponseFrame_encRsp st rest hm]

/-! ### Command frames -/

/-- A command frame, split where its header line ends. -/
theorem encCmd_append (name payload rest : List Byte) : encCmd name payload ++ rest =
    name ++ dec payload.length ++ term :: (payload ++ term :: (hex4 (crc16 payload) ++ term :: rest)) := by simp [encCmd]

/-- A frame whose name is no status is no response, whether or not its payload would fit a message. -/
theorem decodeResponseFrame_encCmd {cfg : Config} {name payload : List Byte} (rest : List Byte)
    (hd : ∀ b ∈ name, isDigit b = false) (ht : term ∉ name) (hs : lookupStatus name = none) :
    decodeResponseFrame cfg (encCmd name payload ++ rest) = none := by
  rw [encCmd_append, decodeResponseFrame, takeLine_header _ _ ht]
  by_cases hl : payload.length ≤ cfg.msgMax
  · simp [splitHeader_dec hd hl, hs]
  · simp [splitHeader_dec_tooLong hd (Nat.lt_of_not_le hl)]

/-- What follows the header line reads back as whatever the dispatcher's checks make of the name and the payload. -/
theorem decodeBody_payload {cfg : Config} {name payload : List Byte} {i : Instr} (rest : List Byte)
    (hi : decodeCommand cfg name payload = .ok i) :
    decodeBody cfg name payload.length (payload ++ term :: (hex4 (crc16 payload) ++ term :: rest)) = .ok (i, rest) := by
  rw [decodeBody, List.drop_left, List.take_left]
  simp only [takeChecksum_hex4, hi, ne_eq, not_true_eq_false, if_false]

/-- A command frame within the codec's bounds reads back (30_encoding.md R45, R60). -/
theorem decodeCommandFrame_encCmd {cfg : Config} {name payload : List Byte} {i : Instr} (rest : List Byte)
    (hd : ∀ b ∈ name, isDigit b = false) (ht : term ∉ name) (hl : name.length + (dec payload.length).length ≤ cfg.cmdBufMax)
    (hp : payload.length ≤ cfg.payloadMax) (hi : decodeCommand cfg name payload = .ok i) :
    decodeCommandFrame cfg (encCmd name payload ++ rest) = .ok (i, rest) := by
  have hfit : ¬ cfg.cmdBufMax < (name ++ dec payload.length).length := by rw [List.length_append]; omega
  rw [encCmd_append, decodeCommandFrame, takeLine_header _ _ ht]
  simp only [hfit, if_false, splitHeader_dec hd hp]
  exact decodeBody_payload rest hi

/-- The frame of any known command with a payload of its expected length decodes to that command. -/
theorem decode_encCmd {cfg : Config} (hw : cfg.wf = true) (c : CommandName) {payload : List Byte} (rest : List Byte)
    (hlen : payload.length = expectedLength cfg c) (hp : payload.length ≤ cfg.payloadMax) :
    decode cfg (encCmd (nameBytes c) payload ++ rest) = .ok (commandInstr c payload, rest) := by
  have hd := nameBytes_not_digit c
  have ht := term_notMem_nameBytes c
  have hi : decodeCommand cfg (nameBytes c) payload = .ok (commandInstr c payload) := by simp [decodeCommand, hlen]
  rw [decode, decodeResponseFrame_encCmd rest hd ht (lookupStatus_nameBytes c)]
  exact decodeCommandFrame_encCmd rest hd ht (hlen ▸ header_length_le hw c) hp hi

/-- The three words of an `MVEL` payload read back (30_encoding.md R52). -/
theorem commandInstr_mvelPayload (l r d : Word16) : commandInstr .mvel (mvelPayload l r d) = .mvel l r d := by
  have hl : le16 (mvelPayload l r d) 0 = l := by simpa [mvelPayload] using le16_leBytes [] (leBytes r ++ leBytes d) l
  have hr : le16 (mvelPayload l r d) 2 = r := by simpa [mvelPayload] using le16_leBytes (leBytes l) (leBytes d) r
  have hd : le16 (mvelPayload l r d) 4 = d := by simpa [mvelPayload] using le16_leBytes (leBytes l ++ leBytes r) [] d
  simp [commandInstr, hl, hr, hd]

/-- Settles O2, by the form of the frame: each command is `decode_encCmd` at its payload, each response `decode_encRsp` at its
message; the reserved `PENDING` is not well formed and an internal operation is not on the wire. -/
theorem decodeOfEncodeIsIdentity : Obligations.DecodeOfEncodeIsIdentity := by
  intro cfg i rest hw hi hwire
  cases i with
  | mvel l r d =>
    have h := decode_encCmd hw .mvel (payload := mvelPayload l r d) rest rfl (mvel_length_le_payloadMax hw)
    rw [commandInstr_mvelPayload] at h
    exact h
  | dimg data =>
    simp only [Instr.wf, Bool.and_eq_true, decide_eq_true_eq] at hi
    exact decode_encCmd hw .dimg rest hi.1 hi.2
  | mstop => exact decode_encCmd hw .mstop rest rfl (Nat.zero_le _)
  | dclear => exact decode_encCmd hw .dclear rest rfl (Nat.zero_le _)
  | dstatus => exact decode_encCmd hw .dstatus rest rfl (Nat.zero_le _)
  | sreset => exact decode_encCmd hw .sreset rest rfl (Nat.zero_le _)
  | shalt => exact decode_encCmd hw .shalt rest rfl (Nat.zero_le _)
  | sping => exact decode_encCmd hw .sping rest rfl (Nat.zero_le _)
  | ok msg => exact decode_encRsp .ok rest (of_decide_eq_true hi)
  | err msg => exact decode_encRsp .err rest (of_decide_eq_true hi)
  | pending msg => cases hi
  | _ => cases hwire

end Sys2Proof.Machine

/-! SUPPORT. The motor pins as functions of the duties (O24), and what reset leaves (O39, O43). -/

namespace Sys2Proof.Machine

/-! ### The motor pins (10_state.md R26) -/

/-- A duty in the range of 43_motor_commands.md R99 has its whole magnitude on the 8 bits of `pwm`. -/
theorem pinsOf_pwm_toNat {duty : Int} (h : -255 ≤ duty ∧ duty ≤ 255) : (pinsOf duty).pwm.toNat = duty.natAbs := by
  have hlt : duty.natAbs < 2 ^ 8 := by omega
  simp only [pinsOf, BitVec.toNat_ofNat, Nat.mod_eq_of_lt hlt]

/-- The pin pair by the sign of the duty. -/
theorem pinsOf_fwd_rev (duty : Int) : ((pinsOf duty).fwd, (pinsOf duty).rev) =
    if 0 < duty then (true, false) else if duty < 0 then (false, true) else (false, false) := by
  rcases lt_trichotomy duty 0 with hneg | rfl | hpos
  · simp [pinsOf, hneg, hneg.not_gt]
  · rfl
  · simp [pinsOf, hpos, hpos.le]

/-- Settles O24: the pins of each side, from its duty in range. -/
theorem motorPinsFollowTheDuties : Obligations.MotorPinsFollowTheDuties := fun _ hm =>
  ⟨pinsOf_pwm_toNat hm.left_range, pinsOf_pwm_toNat hm.right_range, pinsOf_fwd_rev _, pinsOf_fwd_rev _⟩

/-! ### Reset -/

/-- The reset state is what `RESET` makes of it. -/
theorem resetState_reset : resetState State.reset = State.reset := rfl

/-- `RESET` leaves the reset values from every state (10_state.md R29, 70_reset_and_hazards.md R153). -/
theorem resetState_resetValues (s : State) : ResetValues s.cfg s.io.now (resetState s) where
  phase := rfl
  hdrLen := rfl
  cmdName := rfl
  expLen := rfl
  payCnt := rfl
  crcReg := rfl
  ckAcc := rfl
  ckCnt := rfl
  motor := ⟨rfl, rfl, rfl, rfl⟩
  leftPins := rfl
  rightPins := rfl
  lastFrameMs := rfl
  mode := rfl
  blank _ := rfl
  cursor := rfl
  ready := rfl
  seq := rfl
  loopPhase := rfl
  rxQueue := rfl

/-- Settles O39: the reset state is a fixed point of `RESET`, so it holds what every reset leaves; the model's own choices are its
definition. -/
theorem resetStateHoldsTheResetValues : Obligations.ResetStateHoldsTheResetValues :=
  ⟨resetState_resetValues State.reset, rfl, rfl, rfl, rfl, rfl, rfl, rfl, rfl, rfl, rfl⟩

theorem t0_wf : Config.t0.wf = true := by decide

theorem displayCapacity_pos {cfg : Config} (h : cfg.wf = true) : 0 < cfg.displayCapacity := by
  simp only [Config.wf, Bool.and_eq_true, decide_eq_true_eq] at h
  obtain ⟨⟨-, hpix⟩, -⟩ := h
  exact Nat.div_pos hpix (by omega)

/-- The empty name after reset is one the codec can hold. -/
theorem nameWf_nil {cfg : Config} (h : cfg.wf = true) : nameWf cfg [] = true := by
  have hroom := header_length_le h .mstop
  simp only [nameBytes, List.length_cons, List.length_nil] at hroom
  simp only [nameWf, List.all_nil, List.length_nil, Bool.true_and, decide_eq_true_eq]
  omega

/-- Stopped motors meet the invariants of MotorState (43_motor_commands.md R99). -/
theorem motorInv_of_stopped {s : State} (h : s.motor.stopped) : MotorInv s := by
  obtain ⟨hl, hr, hrun, hdl⟩ := h
  constructor <;> simp [hl, hr, hrun, hdl]

/-- What `RESET` leaves meets the invariant, from every state whose parameters meet their constraints: every clause compares the
reset values. -/
theorem inv_resetState {s : State} (h : s.cfg.wf = true) : Inv (resetState s) where
  cfg_wf := h
  codec :=
    { hdrLen_le := Nat.zero_le _
      hdrLen_zero := fun _ => rfl
      hdr_noTerm := fun _ ha => absurd ha (Nat.not_lt_zero _)
      name_wf := nameWf_nil h
      expLen_le := Nat.zero_le _
      payCnt_le := le_rfl
      payCnt_lt := nofun
      payCnt_eq := fun _ => rfl
      crc_eq := rfl
      ckCnt_le := Nat.zero_le _
      ckAcc_lt := Nat.one_pos }
  motor := motorInv_of_stopped ⟨rfl, rfl, rfl, rfl⟩
  display :=
    { cursor_le := Nat.zero_le _
      ready_iff := ⟨nofun, fun hc => absurd hc (displayCapacity_pos h).ne⟩
      seq_present := fun hq => absurd rfl hq }
  loop :=
    { blocked := fun hq => absurd rfl hq
      halted := nofun
      stamp_le := le_rfl }
  buffers :=
    { wf := fun sp => by cases sp <;> exact ⟨.nil, nofun⟩
      below := fun sp => by cases sp <;> exact nofun }

/-- Settles O43: the reset state is what `RESET` leaves, under the parameters T0. -/
theorem resetMeetsTheInvariant : Obligations.ResetMeetsTheInvariant := by
  have h : Inv (resetState State.reset) := inv_resetState t0_wf
  rwa [resetState_reset] at h

end Sys2Proof.Machine

/-! SUPPORT. What a step selects, once (46_polling_loop.md R123, R128), and the answers of the operations a step runs. -/

namespace Sys2Proof.Machine

/-- What a step can select, with the state the operation is performed on: one of the device agent's four operations
(46_polling_loop.md R123 to R126), the portal's chunk (R128) or the external reset. -/
inductive Selected : Instr → State → Prop where
  | dispStep {u : State} (hseq : u.disp.seq ≠ .idle) : Selected .dispStep u
  | rxByte {u : State} (b : Byte) (hmode : u.sup.mode = .run) (hseq : u.disp.seq = .idle) (hloop : u.loopPhase = .drain) :
      Selected (.rxByte b) u
  | tickTimeout {u : State} : Selected .tickTimeout u
  | tickWatchdog {u : State} : Selected .tickWatchdog u
  | dispReceive {u : State} (chunk : List Byte) : Selected (.dispReceive chunk) u
  | reset {u : State} : Selected .reset u

theorem deviceOp_selected {s u : State} {i : Instr} (h : deviceOp s = (some i, u)) : Selected i u := by
  rcases deviceOp_cases s with ⟨-, ho⟩ | ⟨-, hq, ho⟩ | ⟨-, -, -, -, ho⟩ | ⟨b, q, hm, hq, hl, -, ho⟩ | ⟨-, -, -, ho⟩ | ⟨-, -, -, ho⟩ <;>
    rw [ho] at h <;> cases h
  · exact .dispStep hq
  · exact .rxByte b hm hq hl
  · exact .tickTimeout
  · exact .tickWatchdog

theorem nextOp_selected {s u : State} {i : Instr} (h : nextOp s = (some i, u)) : Selected i u := by
  rcases nextOp_cases s with ⟨_, -, ho⟩ | ⟨_, _, -, ho⟩ | ⟨_, _, -, ho⟩ | ⟨_, _, -, ho⟩ | ⟨c, _, -, ho⟩ | ⟨_, -, ho⟩ <;> rw [ho] at h
  · exact deviceOp_selected h
  · cases h
  · cases h
  · cases h
  · cases h; exact .dispReceive c
  · cases h; exact .reset

/-- A step that answers is the sequencer's or the environment's own move, or the operation selected performed on it. -/
theorem step_next {s t : State} (h : step s = .next t) :
    t = (nextOp s).2 ∨ ∃ i, Selected i (nextOp s).2 ∧ exec i (nextOp s).2 = .next t := by
  cases ho : nextOp s with
  | mk o u =>
    cases o with
    | none => rw [step_none ho] at h; cases h; exact .inl rfl
    | some i => rw [step_some ho] at h; exact .inr ⟨i, nextOp_selected ho, h⟩

/-- What the null-guard answers when the guarded operation completes. -/
theorem withDisplay_next {s t u : State} (h : withDisplay s (.next u) = .next t) :
    (s.cfg.displayPresent = true ∧ t = u) ∨ t = raiseError .displayUnavailable s := by
  rcases withDisplay_cases s (.next u) with ⟨hp, hw⟩ | ⟨-, hw⟩ <;> rw [hw] at h <;> cases h
  · exact .inl ⟨hp, rfl⟩
  · exact .inr rfl

/-- What `DISPATCH` answers: an error of its own, or the handler's answer. -/
theorem execDispatch_next {name payload : List Byte} {s t : State} (h : execDispatch name payload s = .next t) :
    (∃ e, t = raiseError e s) ∨ ∃ c, handler c payload s = .next t := by
  rcases execDispatch_cases name payload s with ⟨-, hd⟩ | ⟨c, -, -, hd⟩ | ⟨c, -, -, hd⟩ <;> rw [hd] at h
  · cases h; exact .inl ⟨_, rfl⟩
  · cases h; exact .inl ⟨_, rfl⟩
  · exact .inr ⟨c, h⟩

/-- What `RX_BYTE` answers, seen from outside the codec: new codec registers, an error raised, or the dispatcher's answer at the
hand-off (41_frame_codec.md R82 items 3 and 4). -/
theorem execRxByte_next {b : Byte} {s t : State} (h : execRxByte b s = .next t) :
    (∃ c, t = { s with codec := c }) ∨ (∃ e, t = raiseError e s) ∨
    execDispatch s.codec.cmdName (s.bytes .pay s.codec.expLen) { stampFrame s with codec.phase := .hdr } = .next t := by
  rcases execRxByte_cases b s with
    ⟨-, -, -, hx⟩ | ⟨-, -, -, hx⟩ | ⟨-, -, -, hx⟩ | ⟨e, -, -, -, -, hx⟩ | ⟨name, n, -, -, -, -, hx⟩ | ⟨-, -, hx⟩ |
    ⟨-, -, hx⟩ | ⟨-, -, hx⟩ | ⟨-, -, hx⟩ | ⟨-, -, -, hx⟩ | ⟨-, -, -, -, -, hx⟩ | ⟨-, -, -, -, -, hx⟩ | ⟨-, -, -, -, hx⟩ |
    ⟨-, -, -, hx⟩ <;> rw [hx] at h
  · cases h; exact .inl ⟨_, rfl⟩
  · cases h; exact .inr (.inl ⟨_, rfl⟩)
  · cases h
  · cases h; exact .inr (.inl ⟨_, rfl⟩)
  · cases h; exact .inl ⟨_, rfl⟩
  · cases h; exact .inl ⟨_, rfl⟩
  · cases h
  · cases h; exact .inl ⟨_, rfl⟩
  · cases h; exact .inr (.inl ⟨_, rfl⟩)
  · cases h; exact .inl ⟨_, rfl⟩
  · exact .inr (.inr h)
  · cases h
  · cases h; exact .inr (.inl ⟨_, rfl⟩)
  · cases h; exact .inr (.inl ⟨_, rfl⟩)

end Sys2Proof.Machine

/-! SUPPORT. What every step leaves growing or unchanged: the histories, the clock, the event counts, the parameters and the script
(O47). -/

namespace Sys2Proof.Machine

/-- `t` is a later state than `s` of the same boot with the same script: its histories go on from those of `s`, its clock and
event counts are not behind (10_state.md R24, R27, 20_memory.md R44). -/
structure Grows (s t : State) : Prop where
  txStream : s.io.txStream <+: t.io.txStream
  panelStream : s.io.panelStream <+: t.io.panelStream
  now : s.io.now ≤ t.io.now
  restartReq : s.io.restartReq ≤ t.io.restartReq
  sleepReq : s.io.sleepReq ≤ t.io.sleepReq
  bootDiag : s.io.bootDiag ≤ t.io.bootDiag
  cfg : t.cfg = s.cfg
  env : t.env = s.env

namespace Grows

theorem of_io_eq {s t : State} (hio : t.io = s.io) (hcfg : t.cfg = s.cfg) (henv : t.env = s.env) : Grows s t := by
  constructor <;> simp [hio, hcfg, henv]

theorem refl (s : State) : Grows s s := of_io_eq rfl rfl rfl

theorem trans {s t u : State} (h : Grows s t) (k : Grows t u) : Grows s u where
  txStream := h.txStream.trans k.txStream
  panelStream := h.panelStream.trans k.panelStream
  now := h.now.trans k.now
  restartReq := h.restartReq.trans k.restartReq
  sleepReq := h.sleepReq.trans k.sleepReq
  bootDiag := h.bootDiag.trans k.bootDiag
  cfg := k.cfg.trans h.cfg
  env := k.env.trans h.env

/-! ### The operations the meanings share -/

theorem respond (st : Status) (msg : List Byte) (s : State) : Grows s (respond st msg s) where
  __ := refl s
  txStream := List.prefix_append _ _

theorem panelPut (as : List PanelAction) (s : State) : Grows s (panelPut as s) where
  __ := refl s
  panelStream := List.prefix_append _ _

theorem raiseError (e : FrameError) (s : State) : Grows s (raiseError e s) := by
  constructor <;> simp [raiseError_io]

theorem stopMotors (s : State) : Grows s (stopMotors s) := of_io_eq rfl rfl rfl

theorem setSeq (q : DispState) (s : State) : Grows s (setSeq q s) := of_io_eq rfl rfl rfl

theorem clearDisplay (s : State) : Grows s (clearDisplay s) := of_io_eq (by simp) (by simp) (by simp)

theorem enterSleep (s : State) : Grows s (enterSleep s) where
  __ := refl s
  sleepReq := Nat.le_succ _

theorem resetState (s : State) : Grows s (resetState s) where
  __ := refl s
  bootDiag := by rw [resetState_io]; dsimp only; split <;> omega

theorem restartState (s : State) : Grows s (restartState s) where
  __ := resetState s
  restartReq := Nat.le_succ _

/-! ### The operations a step runs -/

/-- Every handler's answer. -/
theorem handler {c : CommandName} {payload : List Byte} {s t : State} (h : handler c payload s = .next t) : Grows s t := by
  cases c with
  | mvel =>
    cases h
    exact (of_io_eq rfl rfl rfl : Grows s (setVelocity _ _ _ s)).trans (respond _ _ _)
  | mstop => cases h; exact (stopMotors s).trans (respond _ _ _)
  | dimg =>
    rcases execDimg_next h with ⟨-, rfl⟩ | ⟨-, -, rfl⟩ | ⟨-, -, rfl⟩
    · exact raiseError _ s
    · exact raiseError _ s
    · exact of_io_eq rfl rfl rfl
  | dclear =>
    rcases withDisplay_next h with ⟨-, rfl⟩ | rfl
    · exact (clearDisplay s).trans (setSeq .reset _)
    · exact raiseError _ s
  | dstatus =>
    rcases withDisplay_next h with ⟨-, rfl⟩ | rfl
    · exact respond _ _ s
    · exact raiseError _ s
  | sreset =>
    cases h
    exact (((stopMotors s).trans (clearDisplay _)).trans (respond _ _ _)).trans (restartState _)
  | shalt => cases h; exact ((stopMotors s).trans (respond _ _ _)).trans (enterSleep _)
  | sping => cases h; exact respond _ _ s

theorem rxByte {b : Byte} {s t : State} (h : execRxByte b s = .next t) : Grows s t := by
  rcases execRxByte_next h with ⟨c, rfl⟩ | ⟨e, rfl⟩ | hd
  · exact of_io_eq rfl rfl rfl
  · exact raiseError e s
  · have hstamp : Grows s { stampFrame s with codec.phase := .hdr } := of_io_eq rfl rfl rfl
    rcases execDispatch_next hd with ⟨e, rfl⟩ | ⟨c, hc⟩
    · exact hstamp.trans (raiseError e _)
    · exact hstamp.trans (handler hc)

theorem dispStep {s t : State} (h : execDispStep s = .next t) : Grows s t := by
  rcases execDispStep_next h with
    rfl | ⟨-, rfl⟩ | ⟨-, -, rfl⟩ | ⟨-, -, rfl⟩ | ⟨-, rfl⟩ | ⟨-, -, rfl⟩ | ⟨-, rfl⟩
  · exact refl _
  · exact (panelPut _ s).trans (setSeq _ _)
  · exact setSeq _ s
  · exact (panelPut _ s).trans (setSeq _ _)
  · exact (panelPut _ s).trans (setSeq _ _)
  · exact setSeq _ s
  · exact ((panelPut _ s).trans (setSeq _ _)).trans (respond _ _ _)

/-- Every operation a step can select. -/
theorem exec {i : Instr} {s t : State} (hsel : Selected i s) (h : exec i s = .next t) : Grows s t := by
  cases hsel with
  | dispStep => exact dispStep h
  | rxByte => exact rxByte h
  | tickTimeout =>
    cases h
    split
    · exact stopMotors s
    · exact refl s
  | tickWatchdog =>
    cases h
    split
    · exact stopMotors s
    · exact refl s
  | dispReceive =>
    rcases execDispReceive_next h with rfl | ⟨-, -, rfl⟩
    · exact refl _
    · exact of_io_eq rfl rfl rfl
  | reset => cases h; exact resetState s

/-! ### The sequencer's and the environment's own moves -/

theorem deviceOp (s : State) : Grows s (deviceOp s).2 := by
  rcases deviceOp_cases s with
    ⟨-, ho⟩ | ⟨-, -, ho⟩ | ⟨-, -, -, -, ho⟩ | ⟨_, _, -, -, -, -, ho⟩ | ⟨-, -, -, ho⟩ | ⟨-, -, -, ho⟩ <;> rw [ho]
  · exact refl s
  · exact refl s
  · exact of_io_eq rfl rfl rfl
  · exact { refl s with }
  · exact of_io_eq rfl rfl rfl
  · exact of_io_eq rfl rfl rfl

/-- The move of whoever is next, from the state with its entry taken off the script. -/
theorem nextOp (s : State) : Grows { s with env := s.env.tail } (nextOp s).2 := by
  rcases nextOp_cases s with
    ⟨rest, hrest, ho⟩ | ⟨bs, rest, henv, ho⟩ | ⟨ms, rest, henv, ho⟩ | ⟨busy, rest, henv, ho⟩ | ⟨c, rest, henv, ho⟩ | ⟨rest, henv, ho⟩
  · have htail : s.env.tail = rest := by rcases hrest with ⟨henv, rfl⟩ | henv <;> simp [henv]
    rw [ho, htail]
    exact deviceOp _
  all_goals rw [ho, henv, List.tail_cons]
  · exact { refl { s with env := rest } with }
  · exact { refl { s with env := rest } with now := Nat.le_add_right _ _ }
  · exact { refl { s with env := rest } with }
  · exact refl _
  · exact refl _

theorem step {s t : State} (h : step s = .next t) : Grows { s with env := s.env.tail } t := by
  rcases step_next h with rfl | ⟨i, hsel, hi⟩
  · exact nextOp s
  · exact (nextOp s).trans (exec hsel hi)

end Grows

/-- Settles O47: a step takes its entry off the script, and from there every move and every operation only adds. -/
theorem historiesOnlyGrow : Obligations.HistoriesOnlyGrow := by
  intro s t h
  obtain ⟨htx, hpanel, hnow, hrestart, hsleep, hboot, hcfg, henv⟩ := Grows.step h
  exact ⟨htx, hpanel, hnow, hrestart, hsleep, hboot, hcfg, henv⟩

end Sys2Proof.Machine

/-! SUPPORT. The machine invariant: what each update of a block keeps, then every operation a step runs (O44). -/

namespace Sys2Proof.Machine

/-! ### Facts of the CRC and of the checksum field -/

/-- The CRC of a payload with one more byte (40_crc_validator.md R63, R66). -/
theorem crc16_snoc (p : List Byte) (b : Byte) : crc16 (p ++ [b]) = crcUpdate (crc16 p) b := by
  simp only [crc16, crcFeed, List.foldl_append, List.foldl_cons, List.foldl_nil]

theorem hexVal_lt {lower : Bool} {b : Byte} (h : isHexDigit lower b = true) : hexVal b < 16 := by
  simp only [isHexDigit, Bool.or_eq_true, Bool.and_eq_true] at h
  unfold hexVal
  split
  · next hd =>
    simp only [isDigit, Bool.and_eq_true, decide_eq_true_eq] at hd
    omega
  · next hd =>
    split
    · next hu =>
      simp only [isUpperHex, Bool.and_eq_true, decide_eq_true_eq] at hu
      omega
    · next hu =>
      obtain ⟨-, hl⟩ := h.resolve_left (not_or.2 ⟨hd, hu⟩)
      simp only [isLowerHex, Bool.and_eq_true, decide_eq_true_eq] at hl
      omega

/-- One more nibble makes the accumulator at most 16 times as large. -/
theorem nibble_shift_lt {a : Word16} {n k : Nat} (hn : n < 16) (ha : a.toNat < 16 ^ k) :
    ((a <<< 4) ||| BitVec.ofNat 16 n).toNat < 16 ^ (k + 1) := by
  rw [nibble_shift a hn, BitVec.toNat_add, BitVec.toNat_mul, BitVec.toNat_ofNat, toNat_sixteen, pow_succ]
  have hle : (a.toNat * 16 % 2 ^ 16 + n % 2 ^ 16) % 2 ^ 16 ≤ a.toNat * 16 + n :=
    (Nat.mod_le _ _).trans (Nat.add_le_add (Nat.mod_le _ _) (Nat.mod_le _ _))
  omega

/-! ### The codec's invariant, by the updates of `RX_BYTE` -/

/-- The state after a payload byte (41_frame_codec.md R74): what `RX_BYTE` answers in `PAY` (`execRxByte_cases`). -/
def storePayload (b : Byte) (s : State) : State :=
  crcStep b { s with
    codec.payBuf := memWrite 0 s.codec.payBuf s.codec.payCnt b, codec.payCnt := s.codec.payCnt + 1,
    codec.phase := if s.codec.payCnt + 1 = s.codec.expLen then .payterm else .pay }

theorem storePayload_bytes {s : State} (hm : Mem.wf 0 s.codec.payBuf) (b : Byte) :
    (storePayload b s).bytes .pay (s.codec.payCnt + 1) = s.bytes .pay s.codec.payCnt ++ [b] := by
  have hnew : (storePayload b s).readByte .pay s.codec.payCnt = b := memRead_memWrite_eq hm.1 _ _
  have hold : (storePayload b s).bytes .pay s.codec.payCnt = s.bytes .pay s.codec.payCnt :=
    bytes_congr fun a ha => memRead_memWrite_ne _ _ _ ha.ne
  rw [bytes_succ, hnew, hold]

namespace CodecInv

/-- The return to header phase with an empty header buffer. -/
theorem toHeader {s : State} (h : CodecInv s) : CodecInv (toHeader s) :=
  { h with
    hdrLen_le := Nat.zero_le _
    hdrLen_zero := fun _ => rfl
    hdr_noTerm := fun _ ha => absurd ha (Nat.not_lt_zero _)
    payCnt_lt := nofun
    payCnt_eq := nofun }

/-- A header byte accumulated (41_frame_codec.md R70). -/
theorem headerByte {s : State} (h : CodecInv s) (hm : Mem.wf 0 s.codec.hdrBuf) {b : Byte} (hb : b ≠ term)
    (hp : s.codec.phase = .hdr) (hl : s.codec.hdrLen < s.cfg.cmdBufMax) :
    CodecInv { s with
      codec.hdrBuf := memWrite 0 s.codec.hdrBuf s.codec.hdrLen b, codec.hdrLen := s.codec.hdrLen + 1 } :=
  { h with
    hdrLen_le := hl
    hdrLen_zero := fun hne => absurd hp hne
    hdr_noTerm := fun a ha => by
      change memRead 0 (memWrite 0 s.codec.hdrBuf s.codec.hdrLen b) a ≠ term
      rcases Nat.lt_succ_iff_lt_or_eq.1 ha with hlt | rfl
      · rw [memRead_memWrite_ne _ _ _ hlt.ne]; exact h.hdr_noTerm a hlt
      · rwa [memRead_memWrite_eq hm.1] }

/-- An accepted header line (41_frame_codec.md R71, R73): the name holds no digit by the split and no `TERM` by the buffer. -/
theorem acceptHeader {s : State} (h : CodecInv s) {name : List Byte} {n : Nat}
    (hs : splitHeader s.cfg.payloadMax (s.bytes .hdr s.codec.hdrLen) = .ok (name, n)) : CodecInv (acceptHeader name n s) := by
  obtain ⟨hdigit, hlen, hn, hmem⟩ := splitHeader_ok hs
  have hterm : ∀ b ∈ name, b ≠ term := fun b hb => by
    obtain ⟨a, ha, rfl⟩ := List.mem_map.1 (hmem b hb)
    exact h.hdr_noTerm a (List.mem_range.1 ha)
  have hroom : name.length + 1 ≤ s.cfg.cmdBufMax := (bytes_length s .hdr _ ▸ hlen).trans_le h.hdrLen_le
  exact
    { h with
      hdrLen_le := Nat.zero_le _
      hdrLen_zero := fun _ => rfl
      hdr_noTerm := fun _ ha => absurd ha (Nat.not_lt_zero _)
      name_wf := by simp +contextual [nameWf, hdigit, hterm, hroom]
      expLen_le := hn
      payCnt_le := Nat.zero_le _
      payCnt_lt := fun hp => by
        by_contra hz
        simp [show ¬ 0 < n from hz] at hp
      payCnt_eq := fun hp => by
        rcases Nat.eq_zero_or_pos n with hz | hz
        · exact hz.symm
        · simp [hz] at hp
      crc_eq := rfl }

/-- A payload byte stored and fed to the CRC (41_frame_codec.md R74, 40_crc_validator.md R66). -/
theorem storePayload {s : State} (h : CodecInv s) (hm : Mem.wf 0 s.codec.payBuf) (b : Byte) (hp : s.codec.phase = .pay) :
    CodecInv (storePayload b s) := by
  have hlt := h.payCnt_lt hp
  have hzero := h.hdrLen_zero (by simp [hp])
  exact
    { h with
      hdrLen_zero := fun _ => hzero
      payCnt_le := hlt
      payCnt_lt := fun hq => by
        by_cases he : s.codec.payCnt + 1 = s.codec.expLen
        · simp [Machine.storePayload, he] at hq
        · exact lt_of_le_of_ne hlt he
      payCnt_eq := fun hq => by
        by_contra he
        simp [Machine.storePayload, show ¬ s.codec.payCnt + 1 = s.codec.expLen from he] at hq
      crc_eq := by
        change crcUpdate s.codec.crcReg b = crc16 ((Machine.storePayload b s).bytes .pay (s.codec.payCnt + 1))
        rw [storePayload_bytes hm, crc16_snoc, h.crc_eq] }

/-- The payload terminator opens the checksum field (41_frame_codec.md R75). -/
theorem openChecksum {s : State} (h : CodecInv s) (hp : s.codec.phase = .payterm) :
    CodecInv { s with codec.ckAcc := 0, codec.ckCnt := 0, codec.phase := .ck } :=
  { h with
    hdrLen_zero := fun _ => h.hdrLen_zero (by simp [hp])
    payCnt_lt := nofun
    payCnt_eq := fun _ => h.payCnt_eq (.inl hp)
    ckCnt_le := Nat.zero_le _
    ckAcc_lt := Nat.one_pos }

/-- A digit of the checksum field (41_frame_codec.md R76). -/
theorem checksumDigit {s : State} (h : CodecInv s) {b : Byte} (hb : isHexDigit s.cfg.ckAcceptLower b = true)
    (hc : s.codec.ckCnt < 4) :
    CodecInv { s with
      codec.ckAcc := (s.codec.ckAcc <<< 4) ||| BitVec.ofNat 16 (hexVal b), codec.ckCnt := s.codec.ckCnt + 1 } :=
  { h with
    ckCnt_le := hc
    ckAcc_lt := nibble_shift_lt (hexVal_lt hb) h.ckAcc_lt }

end CodecInv

end Sys2Proof.Machine

/-! SUPPORT. The machine invariant over every operation a step runs (O44). -/

namespace Sys2Proof.Machine

/-- A write inside a buffer keeps the three buffers canonical and bounded (20_memory.md R31 to R33). -/
theorem BufferInv.write {s : State} (h : BufferInv s) {sp : Space} {a : Nat} {bs : List Byte}
    (hfit : a + bs.length ≤ capacity s.cfg sp) :
    BufferInv (s.setMem sp (memWriteN (unlisted s.cfg sp) (s.mem sp) a bs)) where
  wf := setMem_wf h.wf (memWriteN_wf a (h.wf sp))
  below q := by
    have hnew := memWriteN_below (d := unlisted s.cfg sp) (h.below sp) hfit
    rw [setMem_cfg]
    cases sp <;> cases q
    case hdr.hdr | pay.pay | disp.disp => exact hnew
    all_goals exact h.below _

/-- The device runs in the drain phase with the parser at a line start: where a hand-off happens, and where a refresh
waits (46_polling_loop.md R127, 41_frame_codec.md R79). -/
def AtLineStart (s : State) : Prop :=
  s.sup.mode = .run ∧ s.loopPhase = .drain ∧ s.codec.phase = .hdr ∧ s.codec.hdrLen = 0

theorem clampDuty_range (v : Int) : -255 ≤ clampDuty v ∧ clampDuty v ≤ 255 := by
  unfold clampDuty; omega

theorem clampDuty_ne_zero {v : Int} : clampDuty v ≠ 0 ↔ v ≠ 0 := by
  unfold clampDuty; omega

/-- An `MVEL` leaves the motors within R99: clamped duties, `running` from the speeds, a deadline at most 65535 ms ahead. -/
theorem motorInv_setVelocity (l r d : Word16) (s : State) : MotorInv (setVelocity l r d s) where
  left_range := clampDuty_range _
  right_range := clampDuty_range _
  running_iff := by simp [runningFlag, clampDuty_ne_zero]
  deadline_le hv := by
    have hd : 0 < d.toNat := of_decide_eq_true hv
    have := d.isLt
    simp only [setVelocity_motor, setVelocity_io, if_pos hd]
    omega

/-- `ready` after a fill says whether the cursor has reached capacity, if it said so before (44_display_commands.md R105). -/
theorem readyFlag_iff {cap cursor k : Nat} {old : Bool} (hold : old = true ↔ cursor = cap) (hk : cursor + k ≤ cap) :
    readyFlag cap (cursor + k) old = true ↔ cursor + k = cap := by
  unfold readyFlag
  split
  · next he => simp [he]
  · next hne => rw [hold]; omega

namespace Inv

/-! ### One block replaced, the others kept -/

/-- Ports and script, with the clock not going back. -/
theorem withPorts {s : State} (h : Inv s) {io : Ports} {env : List EnvStep} (hn : s.io.now ≤ io.now) :
    Inv { s with io := io, env := env } where
  cfg_wf := h.cfg_wf
  codec := { h.codec with }
  motor := { h.motor with deadline_le := fun hv => (h.motor.deadline_le hv).trans (Nat.add_le_add_right hn _) }
  display := { h.display with }
  loop := { h.loop with stamp_le := h.loop.stamp_le.trans hn }
  buffers := { h.buffers with }

theorem withCodec {s : State} (h : Inv s) {c : Codec} (hc : CodecInv { s with codec := c })
    (hb : BufferInv { s with codec := c }) (hq : s.disp.seq ≠ .idle → c.phase = .hdr ∧ c.hdrLen = 0) :
    Inv { s with codec := c } where
  cfg_wf := h.cfg_wf
  codec := hc
  motor := { h.motor with }
  display := { h.display with }
  loop :=
    { h.loop with
      blocked := fun hne =>
        have ⟨hmode, hdrain, _⟩ := h.loop.blocked hne
        ⟨hmode, hdrain, hq hne⟩ }
  buffers := hb

theorem withMotor {s : State} (h : Inv s) {m : Motor} (hm : MotorInv { s with motor := m })
    (hhalt : s.sup.mode = .halted → m.stopped) : Inv { s with motor := m } where
  cfg_wf := h.cfg_wf
  codec := { h.codec with }
  motor := hm
  display := { h.display with }
  loop :=
    { h.loop with
      halted := fun hh =>
        have ⟨_, hrest⟩ := h.loop.halted hh
        ⟨hhalt hh, hrest⟩ }
  buffers := { h.buffers with }

/-- The display registers, a refresh only at a line start. -/
theorem withDisp {s : State} (h : Inv s) {d : Display} (hd : DisplayInv { s with disp := d })
    (hb : BufferInv { s with disp := d }) (hq : d.seq ≠ .idle → AtLineStart s) : Inv { s with disp := d } where
  cfg_wf := h.cfg_wf
  codec := { h.codec with }
  motor := { h.motor with }
  display := hd
  loop :=
    { h.loop with
      blocked := hq
      halted := fun hh => by
        obtain ⟨hstop, -, hdrain⟩ := h.loop.halted hh
        refine ⟨hstop, ?_, hdrain⟩
        by_contra hne
        obtain ⟨hrun, -⟩ := hq hne
        exact absurd (hh.symm.trans hrun) nofun }
  buffers := hb

theorem withLoopPhase {s : State} (h : Inv s) {p : LoopPhase} (hmode : s.sup.mode = .run) (hidle : s.disp.seq = .idle) :
    Inv { s with loopPhase := p } where
  cfg_wf := h.cfg_wf
  codec := { h.codec with }
  motor := { h.motor with }
  display := { h.display with }
  loop :=
    { h.loop with
      blocked := fun hne => absurd hidle hne
      halted := fun hh => absurd (hmode.symm.trans hh) nofun }
  buffers := { h.buffers with }

/-! ### The operations the meanings share -/

theorem respond {s : State} (h : Inv s) (st : Status) (msg : List Byte) : Inv (respond st msg s) := h.withPorts le_rfl

theorem panelPut {s : State} (h : Inv s) (as : List PanelAction) : Inv (panelPut as s) := h.withPorts le_rfl

theorem toHeader {s : State} (h : Inv s) : Inv (toHeader s) :=
  h.withCodec h.codec.toHeader { h.buffers with } fun _ => ⟨rfl, rfl⟩

theorem raiseError {s : State} (h : Inv s) (e : FrameError) : Inv (raiseError e s) := by
  unfold Machine.raiseError
  split
  · exact h.toHeader.respond _ _
  · exact h.toHeader

theorem stopMotors {s : State} (h : Inv s) : Inv (stopMotors s) :=
  h.withMotor (motorInv_of_stopped ⟨rfl, rfl, rfl, rfl⟩) fun _ => ⟨rfl, rfl, rfl, rfl⟩

theorem setVelocity {s : State} (h : Inv s) (l r d : Word16) (hmode : s.sup.mode = .run) : Inv (setVelocity l r d s) :=
  h.withMotor { motorInv_setVelocity l r d s with } fun hh => absurd (hmode.symm.trans hh) nofun

theorem setSeq {s : State} (h : Inv s) (q : DispState) (hp : s.cfg.displayPresent = true) (hl : AtLineStart s) :
    Inv (setSeq q s) :=
  h.withDisp { h.display with seq_present := fun _ => hp } { h.buffers with } fun _ => hl

theorem clearDisplay {s : State} (h : Inv s) : Inv (clearDisplay s) := by
  unfold Machine.clearDisplay
  split
  · refine h.withDisp
      { h.display with
        cursor_le := Nat.zero_le _
        ready_iff := ⟨nofun, fun hc => absurd hc (displayCapacity_pos h.cfg_wf).ne⟩ } ⟨fun sp => ?_, fun sp => ?_⟩ h.loop.blocked
    · cases sp
      case disp => exact ⟨.nil, nofun⟩
      all_goals exact h.buffers.wf _
    · cases sp
      case disp => exact nofun
      all_goals exact h.buffers.below _
  · exact h

theorem enterSleep {s : State} (h : Inv s) (hstop : s.motor.stopped) (hidle : s.disp.seq = .idle)
    (hdrain : s.loopPhase = .drain) : Inv (enterSleep s) where
  cfg_wf := h.cfg_wf
  codec := { h.codec with }
  motor := { h.motor with }
  display := { h.display with }
  loop :=
    { h.loop with
      blocked := fun hne => absurd hidle hne
      halted := fun _ => ⟨hstop, hidle, hdrain⟩ }
  buffers := { h.buffers with }

theorem stampFrame {s : State} (h : Inv s) : Inv (stampFrame s) where
  cfg_wf := h.cfg_wf
  codec := { h.codec with }
  motor := { h.motor with }
  display := { h.display with }
  loop := { h.loop with stamp_le := le_rfl }
  buffers := { h.buffers with }

/-! ### The handlers and the dispatcher -/

/-- `DIMG`'s whole image from index 0, with its refresh begun (44_display_commands.md R101). -/
theorem execDimg {data : List Byte} {s t : State} (h : Inv s) (hl : AtLineStart s) (hx : execDimg data s = .next t) : Inv t := by
  rcases execDimg_next hx with ⟨-, rfl⟩ | ⟨-, -, rfl⟩ | ⟨hlen, hp, rfl⟩
  · exact h.raiseError _
  · exact h.raiseError _
  · have hcap : capacity s.cfg .disp = s.cfg.displayCapacity := if_pos hp
    have hfit : 0 + data.length ≤ capacity s.cfg .disp := by omega
    exact h.withDisp
      { h.display with
        cursor_le := hcap.ge
        ready_iff := ⟨fun _ => rfl, fun _ => rfl⟩
        seq_present := fun _ => hp } { h.buffers.write (sp := .disp) hfit with } fun _ => hl

/-- Every handler, called where the hand-off calls it. -/
theorem handler {c : CommandName} {payload : List Byte} {s t : State} (h : Inv s) (hidle : s.disp.seq = .idle)
    (hl : AtLineStart s) (hx : handler c payload s = .next t) : Inv t := by
  have ⟨hmode, hdrain, _⟩ := hl
  cases c with
  | mvel => cases hx; exact (h.setVelocity _ _ _ hmode).respond _ _
  | mstop => cases hx; exact h.stopMotors.respond _ _
  | dimg => exact h.execDimg hl hx
  | dclear =>
    rcases withDisplay_next hx with ⟨hp, rfl⟩ | rfl
    · exact h.clearDisplay.setSeq .reset (by rwa [clearDisplay_cfg]) (by simpa [AtLineStart] using hl)
    · exact h.raiseError _
  | dstatus =>
    rcases withDisplay_next hx with ⟨-, rfl⟩ | rfl
    · exact h.respond _ _
    · exact h.raiseError _
  | sreset => cases hx; exact inv_resetState (by simpa using h.cfg_wf)
  | shalt => cases hx; exact (h.stopMotors.respond _ _).enterSleep ⟨rfl, rfl, rfl, rfl⟩ hidle hdrain
  | sping => cases hx; exact h.respond _ _

/-- The hand-off: the stamp, the return to header phase, the dispatcher (41_frame_codec.md R79). -/
theorem handOff {name payload : List Byte} {s t : State} (h : Inv s) (hmode : s.sup.mode = .run) (hidle : s.disp.seq = .idle)
    (hdrain : s.loopPhase = .drain) (hp : s.codec.phase = .ck)
    (hx : execDispatch name payload { Machine.stampFrame s with codec.phase := .hdr } = .next t) : Inv t := by
  have hzero : s.codec.hdrLen = 0 := h.codec.hdrLen_zero (by simp [hp])
  have hu : Inv { Machine.stampFrame s with codec.phase := .hdr } :=
    h.stampFrame.withCodec
      { h.codec with hdrLen_zero := fun hne => absurd rfl hne, payCnt_lt := nofun, payCnt_eq := nofun }
      { h.buffers with } fun _ => ⟨rfl, hzero⟩
  rcases execDispatch_next hx with ⟨e, rfl⟩ | ⟨c, hc⟩
  · exact hu.raiseError e
  · exact hu.handler hidle ⟨hmode, hdrain, rfl, hzero⟩ hc

/-! ### The operations a step runs -/

/-- `RX_BYTE` where the loop runs it (46_polling_loop.md R124): the codec's update of each case, or the hand-off. -/
theorem rxByte {b : Byte} {s t : State} (h : Inv s) (hmode : s.sup.mode = .run) (hidle : s.disp.seq = .idle)
    (hdrain : s.loopPhase = .drain) (hx : execRxByte b s = .next t) : Inv t := by
  have hnoRefresh {c : Codec} : s.disp.seq ≠ .idle → c.phase = .hdr ∧ c.hdrLen = 0 := fun hne => absurd hidle hne
  rcases execRxByte_cases b s with
    ⟨hp, hb, hl, ho⟩ | ⟨-, -, -, ho⟩ | ⟨-, -, -, ho⟩ | ⟨e, -, -, -, -, ho⟩ | ⟨name, n, -, -, -, hs, ho⟩ | ⟨hp, hl, ho⟩ |
    ⟨-, -, ho⟩ | ⟨hp, -, ho⟩ | ⟨-, -, ho⟩ | ⟨-, hb, hc, ho⟩ | ⟨hp, -, -, -, -, ho⟩ | ⟨-, -, -, -, -, ho⟩ | ⟨-, -, -, -, ho⟩ |
    ⟨-, -, -, ho⟩ <;> rw [ho] at hx
  · cases hx
    have hfit : s.codec.hdrLen + [b].length ≤ capacity s.cfg .hdr := hl
    exact h.withCodec (h.codec.headerByte (h.buffers.wf .hdr) hb hp hl) { h.buffers.write hfit with } hnoRefresh
  · cases hx; exact h.raiseError _
  · cases hx
  · cases hx; exact h.raiseError e
  · cases hx; exact h.withCodec (h.codec.acceptHeader hs) { h.buffers with } hnoRefresh
  · cases hx
    have hfit : s.codec.payCnt + [b].length ≤ capacity s.cfg .pay := hl
    exact h.withCodec (h.codec.storePayload (h.buffers.wf .pay) b hp) { h.buffers.write hfit with } hnoRefresh
  · cases hx
  · cases hx; exact h.withCodec (h.codec.openChecksum hp) { h.buffers with } hnoRefresh
  · cases hx; exact h.raiseError _
  · cases hx; exact h.withCodec (h.codec.checksumDigit hb hc) { h.buffers with } hnoRefresh
  · exact h.handOff hmode hidle hdrain hp hx
  · cases hx
  · cases hx; exact h.raiseError _
  · cases hx; exact h.raiseError _

theorem dispStep {s t : State} (h : Inv s) (hne : s.disp.seq ≠ .idle) (hx : execDispStep s = .next t) : Inv t := by
  have hp := h.display.seq_present hne
  have hl : AtLineStart s := h.loop.blocked hne
  rcases execDispStep_next hx with
    rfl | ⟨-, rfl⟩ | ⟨-, -, rfl⟩ | ⟨-, -, rfl⟩ | ⟨-, rfl⟩ | ⟨-, -, rfl⟩ | ⟨-, rfl⟩
  · exact h
  · exact (h.panelPut _).setSeq _ hp hl
  · exact h.setSeq _ hp hl
  · exact (h.panelPut _).setSeq _ hp hl
  · exact (h.panelPut _).setSeq _ hp hl
  · exact h.setSeq _ hp hl
  · exact ((h.panelPut _).setSeq _ hp hl).respond _ _

/-- `DISP_RECEIVE` (44_display_commands.md R111). -/
theorem dispReceive {chunk : List Byte} {s t : State} (h : Inv s) (hx : execDispReceive chunk s = .next t) : Inv t := by
  rcases execDispReceive_next hx with rfl | ⟨hacc, hk, rfl⟩
  · exact h
  · simp only [receiveAccepted, Bool.and_eq_true] at hacc
    have hcap : capacity s.cfg .disp = s.cfg.displayCapacity := if_pos hacc.2
    have hfit : s.disp.cursor + (chunk.take (receiveCount chunk s)).length ≤ capacity s.cfg .disp := by
      have := List.length_take_le (receiveCount chunk s) chunk
      omega
    exact h.withDisp
      { h.display with
        cursor_le := hk.trans hcap.ge
        ready_iff := readyFlag_iff h.display.ready_iff hk } { h.buffers.write hfit with } h.loop.blocked

/-- Every operation a step can select. -/
theorem exec {i : Instr} {s t : State} (h : Inv s) (hsel : Selected i s) (hx : exec i s = .next t) : Inv t := by
  cases hsel with
  | dispStep hne => exact h.dispStep hne hx
  | rxByte b hmode hidle hdrain => exact h.rxByte hmode hidle hdrain hx
  | tickTimeout =>
    cases hx
    split
    · exact h.stopMotors
    · exact h
  | tickWatchdog =>
    cases hx
    split
    · exact h.stopMotors
    · exact h
  | dispReceive => exact h.dispReceive hx
  | reset => cases hx; exact inv_resetState h.cfg_wf

/-! ### The sequencer's and the environment's own moves -/

theorem deviceOp {s : State} (h : Inv s) : Inv (deviceOp s).2 := by
  rcases deviceOp_cases s with
    ⟨-, ho⟩ | ⟨-, -, ho⟩ | ⟨hm, hq, -, -, ho⟩ | ⟨_, _, -, -, -, -, ho⟩ | ⟨hm, hq, -, ho⟩ | ⟨hm, hq, -, ho⟩ <;> rw [ho]
  · exact h
  · exact h
  · exact h.withLoopPhase hm hq
  · exact h.withPorts le_rfl
  · exact h.withLoopPhase hm hq
  · exact h.withLoopPhase hm hq

theorem nextOp {s : State} (h : Inv s) : Inv (nextOp s).2 := by
  rcases nextOp_cases s with ⟨_, -, ho⟩ | ⟨_, _, -, ho⟩ | ⟨_, _, -, ho⟩ | ⟨_, _, -, ho⟩ | ⟨_, _, -, ho⟩ | ⟨_, -, ho⟩ <;> rw [ho]
  · exact (h.withPorts le_rfl).deviceOp
  · exact h.withPorts le_rfl
  · exact h.withPorts (Nat.le_add_right _ _)
  · exact h.withPorts le_rfl
  · exact h.withPorts le_rfl
  · exact h.withPorts le_rfl

end Inv

/-- Settles O44: whoever moves first keeps the invariant, and so does the operation the move selects. -/
theorem stepKeepsTheInvariant : Obligations.StepKeepsTheInvariant := by
  intro s t h hs
  rcases step_next hs with rfl | ⟨i, hsel, hx⟩
  · exact h.nextOp
  · exact h.nextOp.exec hsel hx

end Sys2Proof.Machine

/-! SUPPORT. The lengths of the response messages under the parameters' constraints, and what a step adds to `tx_stream` (O46). -/

namespace Sys2Proof.Machine

/-! ### Lengths of spellings -/

theorem dec_length_le_five {n : Nat} (h : n ≤ 65535) : (dec n).length ≤ 5 := (dec_length_mono h).trans_eq (by decide)

/-- A clamped duty is spelled in at most a sign and three digits (43_motor_commands.md R89). -/
theorem sdec_clampDuty_length_le (v : Int) : (sdec (clampDuty v)).length ≤ 4 := by
  have hrange := clampDuty_range v
  have hdigits : (dec (clampDuty v).natAbs).length ≤ 3 :=
    (dec_length_mono (show (clampDuty v).natAbs ≤ 255 by omega)).trans_eq (by decide)
  unfold sdec
  split
  · exact Nat.succ_le_succ hdigits
  · exact hdigits.trans (Nat.le_succ 3)

/-! ### Every message of a well-formed device fits `MSG_MAX` (00_scope.md R6, D8) -/

section
variable {cfg : Config} (hw : cfg.wf = true)
include hw

/-- The three bounds D8 puts on `MSG_MAX`: by the longest fixed message, by a name and by two lengths. -/
theorem msgMax_bounds :
    31 ≤ cfg.msgMax ∧ cfg.cmdBufMax + 15 ≤ cfg.msgMax ∧
      24 + 2 * (dec (max cfg.payloadMax cfg.displayCapacity)).length ≤ cfg.msgMax := by
  simp only [Config.wf, Bool.and_eq_true, decide_eq_true_eq] at hw
  obtain ⟨⟨⟨⟨⟨⟨-, hfixed⟩, hname⟩, hlength⟩, -⟩, -⟩, -⟩ := hw
  exact ⟨hfixed, hname, hlength⟩

theorem msgChecksum_fits (computed received : Word16) : (msgChecksum computed received).length ≤ cfg.msgMax :=
  (msgMax_bounds hw).1

theorem msgUnknown_fits {name : List Byte} (hname : nameWf cfg name = true) : (msgUnknown name).length ≤ cfg.msgMax := by
  obtain ⟨-, hbound, -⟩ := msgMax_bounds hw
  simp only [nameWf, Bool.and_eq_true, decide_eq_true_eq] at hname
  simp only [msgUnknown, List.length_append, List.length_cons, List.length_nil]
  omega

theorem expectedLength_le (c : CommandName) : expectedLength cfg c ≤ max cfg.payloadMax cfg.displayCapacity := by
  cases c with
  | mvel => exact (mvel_length_le_payloadMax hw).trans (le_max_left _ _)
  | dimg => exact le_max_right _ _
  | _ => exact Nat.zero_le _

theorem msgLength_fits (c : CommandName) {actual : Nat} (ha : actual ≤ cfg.payloadMax) :
    (msgLength (expectedLength cfg c) actual).length ≤ cfg.msgMax := by
  obtain ⟨-, -, hbound⟩ := msgMax_bounds hw
  have hexp := dec_length_mono (expectedLength_le hw c)
  have hact := dec_length_mono (ha.trans (le_max_left _ cfg.displayCapacity))
  simp only [msgLength, List.length_append, List.length_cons, List.length_nil]
  omega

theorem msgMvel_fits (l r d : Word16) : (msgMvel (clampDuty l.toInt) (clampDuty r.toInt) d.toNat).length ≤ cfg.msgMax := by
  obtain ⟨hbound, -, -⟩ := msgMax_bounds hw
  have hl := sdec_clampDuty_length_le l.toInt
  have hr := sdec_clampDuty_length_le r.toInt
  have hd := dec_length_le_five (Nat.le_of_lt_succ d.isLt)
  simp only [msgMvel, List.length_append, List.length_cons, List.length_nil]
  omega

theorem msgStatus_fits {cursor : Nat} (hc : cursor ≤ cfg.displayCapacity) (ready : Bool) :
    (msgStatus cursor ready).length ≤ cfg.msgMax := by
  obtain ⟨-, -, hbound⟩ := msgMax_bounds hw
  have hcur := dec_length_mono (hc.trans (le_max_right cfg.payloadMax _))
  simp only [msgStatus, List.length_append, List.length_cons, List.length_nil]
  omega

theorem msgPong_fits : msgPong.length ≤ cfg.msgMax := le_trans (by decide) (msgMax_bounds hw).1

theorem msgUnavailable_fits : msgUnavailable.length ≤ cfg.msgMax := le_trans (by decide) (msgMax_bounds hw).1

end

/-- The errors of a header line are silent (60_exceptions.md R132). -/
theorem errorMessage_of_splitHeader {payloadMax : Nat} {line : List Byte} {e : FrameError}
    (h : splitHeader payloadMax line = .error e) : errorMessage e = none := by
  unfold splitHeader at h
  dsimp only at h
  split at h
  · cases h; rfl
  · split at h
    · cases h; rfl
    · split at h <;> cases h
      rfl

/-- The display buffer, if there is one, has `DISPLAY_CAPACITY` bytes (00_scope.md R6). -/
theorem capacity_disp_le (cfg : Config) : capacity cfg .disp ≤ cfg.displayCapacity := by
  simp only [capacity]
  split
  · exact le_rfl
  · exact Nat.zero_le _

/-! ### What an operation adds to `tx_stream` -/

/-- From `s` to `t` nothing is sent, or one whole response of at most `MSG_MAX` message bytes (41_frame_codec.md R81). -/
def SendsAtMostOne (s t : State) : Prop :=
  t.io.txStream = s.io.txStream ∨
  ∃ (st : Status) (msg : List Byte), (st = .ok ∨ st = .err) ∧ msg.length ≤ s.cfg.msgMax ∧
    t.io.txStream = s.io.txStream ++ encRsp st msg

namespace SendsAtMostOne

/-- An `OK`, sent after any operation that sends nothing. -/
theorem ok {s t : State} {msg : List Byte} (hm : msg.length ≤ s.cfg.msgMax)
    (ht : t.io.txStream = s.io.txStream ++ encRsp .ok msg) : SendsAtMostOne s t :=
  .inr ⟨.ok, msg, .inl rfl, hm, ht⟩

/-- The `OK` without a message: of `MSTOP`, `SRESET`, `SHALT`, and of a finished refresh (30_encoding.md R58). -/
theorem ok_empty {s t : State} (ht : t.io.txStream = s.io.txStream ++ encRsp .ok msgEmpty) : SendsAtMostOne s t :=
  ok (Nat.zero_le _) ht

/-- An error without a message sends nothing (60_exceptions.md R132). -/
theorem raiseSilent {e : FrameError} {s : State} (he : errorMessage e = none) : SendsAtMostOne s (raiseError e s) :=
  .inl (by simp [raiseError_io, he])

/-- An error with a message sends its one `ERR` (60_exceptions.md R143). -/
theorem raiseMessage {e : FrameError} {s : State} {msg : List Byte} (he : errorMessage e = some msg)
    (hm : msg.length ≤ s.cfg.msgMax) : SendsAtMostOne s (raiseError e s) :=
  .inr ⟨.err, msg, .inr rfl, hm, by simp [raiseError_io, he]⟩

theorem unavailable {s : State} (hw : s.cfg.wf = true) : SendsAtMostOne s (raiseError .displayUnavailable s) :=
  raiseMessage rfl (msgUnavailable_fits hw)

/-- Every handler sends its own response, or leaves it to the end of the refresh it begins (44_display_commands.md R108). -/
theorem handler {c : CommandName} {payload : List Byte} {s t : State} (hw : s.cfg.wf = true)
    (hcur : s.disp.cursor ≤ s.cfg.displayCapacity) (hlen : payload.length = expectedLength s.cfg c)
    (h : handler c payload s = .next t) : SendsAtMostOne s t := by
  cases c with
  | mvel => cases h; exact ok (msgMvel_fits hw _ _ _) rfl
  | mstop => cases h; exact ok_empty rfl
  | dimg =>
    rcases execDimg_next h with ⟨hne, -⟩ | ⟨-, -, rfl⟩ | ⟨-, -, rfl⟩
    · exact absurd hlen hne
    · exact unavailable hw
    · exact .inl rfl
  | dclear =>
    rcases withDisplay_next h with ⟨-, rfl⟩ | rfl
    · exact .inl (by simp)
    · exact unavailable hw
  | dstatus =>
    rcases withDisplay_next h with ⟨-, rfl⟩ | rfl
    · exact ok (msgStatus_fits hw hcur _) rfl
    · exact unavailable hw
  | sreset => cases h; exact ok_empty (by simp)
  | shalt => cases h; exact ok_empty rfl
  | sping => cases h; exact ok (msgPong_fits hw) rfl

/-- Each branch of the dispatcher sends its own response (41_frame_codec.md R79, 42_dispatcher.md R83). -/
theorem dispatch {name payload : List Byte} {s t : State} (hw : s.cfg.wf = true)
    (hcur : s.disp.cursor ≤ s.cfg.displayCapacity) (hname : nameWf s.cfg name = true)
    (hpay : payload.length ≤ s.cfg.payloadMax) (h : execDispatch name payload s = .next t) : SendsAtMostOne s t := by
  rcases execDispatch_cases name payload s with ⟨-, hd⟩ | ⟨c, -, -, hd⟩ | ⟨c, -, hlen, hd⟩ <;> rw [hd] at h
  · cases h; exact raiseMessage rfl (msgUnknown_fits hw hname)
  · cases h; exact raiseMessage rfl (msgLength_fits hw c hpay)
  · exact handler hw hcur hlen h

/-- `RX_BYTE`: silent but for a CRC mismatch and the hand-off (41_frame_codec.md R70 to R80). -/
theorem rxByte {b : Byte} {s t : State} (hinv : Inv s) (h : execRxByte b s = .next t) : SendsAtMostOne s t := by
  rcases execRxByte_cases b s with
    ⟨-, -, -, hx⟩ | ⟨-, -, -, hx⟩ | ⟨-, -, -, hx⟩ | ⟨e, -, -, -, hsplit, hx⟩ | ⟨name, n, -, -, -, -, hx⟩ | ⟨-, -, hx⟩ |
    ⟨-, -, hx⟩ | ⟨-, -, hx⟩ | ⟨-, -, hx⟩ | ⟨-, -, -, hx⟩ | ⟨-, -, -, -, hlen, hx⟩ | ⟨-, -, -, -, -, hx⟩ | ⟨-, -, -, -, hx⟩ |
    ⟨-, -, -, hx⟩ <;> rw [hx] at h
  · cases h; exact .inl rfl
  · cases h; exact raiseSilent rfl
  · cases h
  · cases h; exact raiseSilent (errorMessage_of_splitHeader hsplit)
  · cases h; exact .inl rfl
  · cases h; exact .inl rfl
  · cases h
  · cases h; exact .inl rfl
  · cases h; exact raiseSilent rfl
  · cases h; exact .inl rfl
  · have hcur : s.disp.cursor ≤ s.cfg.displayCapacity := hinv.display.cursor_le.trans (capacity_disp_le s.cfg)
    exact dispatch (s := { stampFrame s with codec.phase := .hdr }) hinv.cfg_wf hcur hinv.codec.name_wf
      ((bytes_length s .pay _).trans_le hlen) h
  · cases h
  · cases h; exact raiseMessage rfl (msgChecksum_fits hinv.cfg_wf _ _)
  · cases h; exact raiseSilent rfl

/-- Only the last step of a refresh sends: the deferred `OK` (44_display_commands.md R108). -/
theorem dispStep {s t : State} (h : execDispStep s = .next t) : SendsAtMostOne s t := by
  rcases execDispStep_next h with
    rfl | ⟨-, rfl⟩ | ⟨-, -, rfl⟩ | ⟨-, -, rfl⟩ | ⟨-, rfl⟩ | ⟨-, -, rfl⟩ | ⟨-, rfl⟩
  · exact .inl rfl
  · exact .inl rfl
  · exact .inl rfl
  · exact .inl rfl
  · exact .inl rfl
  · exact .inl rfl
  · exact ok_empty rfl

/-- Every operation a step can select. -/
theorem exec {i : Instr} {s t : State} (hinv : Inv s) (hsel : Selected i s) (h : exec i s = .next t) : SendsAtMostOne s t := by
  cases hsel with
  | dispStep => exact dispStep h
  | rxByte => exact rxByte hinv h
  | tickTimeout => cases h; exact .inl (by split <;> rfl)
  | tickWatchdog => cases h; exact .inl (by split <;> rfl)
  | dispReceive =>
    rcases execDispReceive_next h with rfl | ⟨-, -, rfl⟩
    · exact .inl rfl
    · exact .inl rfl
  | reset => cases h; exact .inl rfl

end SendsAtMostOne

/-! ### The sequencer's and the environment's own moves send nothing -/

theorem deviceOp_txStream (s : State) : (deviceOp s).2.io.txStream = s.io.txStream := by
  rcases deviceOp_cases s with
    ⟨-, ho⟩ | ⟨-, -, ho⟩ | ⟨-, -, -, -, ho⟩ | ⟨_, _, -, -, -, -, ho⟩ | ⟨-, -, -, ho⟩ | ⟨-, -, -, ho⟩ <;> rw [ho]

theorem nextOp_txStream (s : State) : (nextOp s).2.io.txStream = s.io.txStream := by
  rcases nextOp_cases s with ⟨_, -, ho⟩ | ⟨_, _, -, ho⟩ | ⟨_, _, -, ho⟩ | ⟨_, _, -, ho⟩ | ⟨_, _, -, ho⟩ | ⟨_, -, ho⟩ <;> rw [ho]
  exact deviceOp_txStream _

/-- Settles O46: the move of whoever is next sends nothing, and the operation it selects sends at most one response, whose message
fits by the constraints on `MSG_MAX`. -/
theorem stepSendsAtMostOneResponse : Obligations.StepSendsAtMostOneResponse := by
  intro s t hinv h
  rcases step_next h with rfl | ⟨i, hsel, hx⟩
  · exact .inl (nextOp_txStream s)
  · have hcfg : (nextOp s).2.cfg = s.cfg := (Grows.nextOp s).cfg
    have hsent := SendsAtMostOne.exec hinv.nextOp hsel hx
    rwa [SendsAtMostOne, nextOp_txStream, hcfg] at hsent

end Sys2Proof.Machine

/-! SUPPORT. Frames written out byte by byte, the refusals of the response path, and table words placed for the fetch (O1, O20, O42). -/

namespace Sys2Proof.Machine

/-! ### A checksum field that is not the payload's CRC -/

/-- A header line whose name is no status begins no response, whatever follows it. -/
theorem decodeResponseFrame_of_lookupStatus_none {cfg : Config} {name : List Byte} (n : Nat) (r : List Byte)
    (hd : ∀ b ∈ name, isDigit b = false) (ht : term ∉ name) (hs : lookupStatus name = none) :
    decodeResponseFrame cfg (name ++ dec n ++ term :: r) = none := by
  rw [decodeResponseFrame, takeLine_header _ _ ht]
  by_cases hn : n ≤ cfg.msgMax
  · simp [splitHeader_dec hd hn, hs]
  · simp [splitHeader_dec_tooLong hd (Nat.lt_of_not_le hn)]

/-- A command frame whose checksum field spells another value than the payload's CRC is refused with both values
(60_exceptions.md R131, E7). -/
theorem decode_checksum_mismatch {cfg : Config} (hw : cfg.wf = true) (c : CommandName) {payload : List Byte} {ck : Word16}
    (rest : List Byte) (hlen : payload.length = expectedLength cfg c) (hp : payload.length ≤ cfg.payloadMax)
    (hck : crc16 payload ≠ ck) :
    decode cfg (nameBytes c ++ dec payload.length ++ term :: (payload ++ term :: (hex4 ck ++ term :: rest))) =
      .error (.malformed (.checksum (crc16 payload) ck)) := by
  have hd := nameBytes_not_digit c
  have ht := term_notMem_nameBytes c
  have hfit : ¬ cfg.cmdBufMax < (nameBytes c ++ dec payload.length).length := by
    rw [List.length_append, hlen]
    exact (header_length_le hw c).not_gt
  have hbody : decodeBody cfg (nameBytes c) payload.length (payload ++ term :: (hex4 ck ++ term :: rest)) =
      .error (.malformed (.checksum (crc16 payload) ck)) := by
    rw [decodeBody, List.drop_left, List.take_left]
    simp only [takeChecksum_hex4, ne_eq, hck, not_true_eq_false, not_false_eq_true, if_true, if_false]
  rw [decode, decodeResponseFrame_of_lookupStatus_none _ _ hd ht (lookupStatus_nameBytes c)]
  simp only [decodeCommandFrame, takeLine_header _ _ ht, hfit, if_false, splitHeader_dec hd hp, hbody]

/-- Settles O1: each written-out frame is the encoding of its instruction, which decodes to it (O2); the corrupted one is the `MVEL`
frame with a checksum field of zeros where the CRC of its payload is `0x0BAE`. -/
theorem specFramesDecode : Obligations.SpecFramesDecode := by
  have hdecode : ∀ {i : Instr} {frame : List Byte}, encode i = frame → i.wf Config.t0 = true → i.onWire = true →
      decode Config.t0 frame = .ok (i, []) := fun {i frame} he hi hwire => by
    simpa [he] using decodeOfEncodeIsIdentity Config.t0 i [] t0_wf hi hwire
  have hcrc : crc16 (mvelPayload 100 100 500) = 0x0BAE := by decide +kernel
  refine ⟨hdecode (by decide +kernel) rfl rfl, hdecode (by decide) rfl rfl, hdecode (by decide) rfl rfl, hdecode (by decide) rfl rfl,
    hdecode (by decide) rfl rfl, ?_⟩
  have hbad := decode_checksum_mismatch t0_wf .mvel (payload := mvelPayload 100 100 500) (ck := 0) [] rfl
    (mvel_length_le_payloadMax t0_wf) (by rw [hcrc]; decide)
  rwa [hcrc] at hbad

/-! ### What the response path refuses (41_frame_codec.md R81) -/

theorem sendResponse_pending (msg : List Byte) (s : State) : sendResponse .pending msg s = .refused .pendingReserved := rfl

theorem sendResponse_tooLong {st : Status} {msg : List Byte} {s : State} (hst : st ≠ .pending) (hl : s.cfg.msgMax < msg.length) :
    sendResponse st msg s = .refused .messageTooLong := by
  rw [sendResponse, if_neg hst, if_pos hl]

/-- Settles O20: `OK`, `ERR` and `TX_RESPONSE` are `sendResponse` at their status, and `PENDING` is refused whatever its message. -/
theorem pendingAndOverlongMessagesAreRefused : Obligations.PendingAndOverlongMessagesAreRefused := by
  intro s msg
  refine ⟨rfl, sendResponse_pending msg s, fun hl => ?_⟩
  have hok : sendResponse .ok msg s = .refused .messageTooLong := sendResponse_tooLong nofun hl
  have herr : sendResponse .err msg s = .refused .messageTooLong := sendResponse_tooLong nofun hl
  exact ⟨hok, herr, hok, herr⟩

/-! ### A frame placed at its last byte (log 17) -/

/-- The last `TERM` of a frame whose checksum matches runs the dispatcher on the buffered payload (41_frame_codec.md R77, R79). -/
theorem execRxByte_handOff {s : State} (hp : s.codec.phase = .ck) (hc : s.codec.ckCnt = 4) (hm : s.codec.crcReg = s.codec.ckAcc)
    (hl : s.codec.expLen ≤ s.cfg.payloadMax) :
    execRxByte term s =
      execDispatch s.codec.cmdName (s.bytes .pay s.codec.expLen) { stampFrame s with codec.phase := .hdr } := by
  have hx : execRxByte term s = handOff s := by simp [execRxByte, hp, rxChecksum, isHexDigit_term, hc, crcMatch, hm]
  rw [hx, handOff, readThen_zero (sp := .pay) hl]

/-- A string written into an empty payload buffer is what the buffer then holds. -/
theorem bytes_pay_of_memWriteN {s : State} {p : List Byte} (h : s.codec.payBuf = memWriteN 0 [] 0 p) :
    s.bytes .pay p.length = p := by
  refine List.ext_getElem (bytes_length _ _ _) fun i hi hi' => ?_
  have hread : memRead 0 (memWriteN 0 [] 0 p) (0 + i) = p.getD i 0 := memRead_memWriteN ⟨.nil, nofun⟩ hi'
  rw [Nat.zero_add, List.getD_eq_getElem _ _ hi'] at hread
  simpa [State.bytes, State.readByte, unlisted, h] using hread

/-- The state in which a placed frame's last byte is taken: the device agent's entry and that byte are gone. -/
def atLastByte (name payload : List Byte) (s : State) : State := { placeFrame name payload s with env := s.env, io := s.io }

theorem nextOp_placeFrame (name payload : List Byte) (s : State) :
    nextOp (placeFrame name payload s) = (some (.rxByte term), atLastByte name payload s) := rfl

/-- The last byte of a placed frame hands its name and payload to the dispatcher. -/
theorem step_placeFrame {name payload : List Byte} {s : State} (hp : payload.length ≤ s.cfg.payloadMax) :
    step (placeFrame name payload s) =
      execDispatch name payload { stampFrame (atLastByte name payload s) with codec.phase := .hdr } := by
  have hbytes : (atLastByte name payload s).bytes .pay payload.length = payload := bytes_pay_of_memWriteN rfl
  have hbyte := execRxByte_handOff (s := atLastByte name payload s) rfl rfl rfl hp
  change _ = execDispatch name ((atLastByte name payload s).bytes .pay payload.length) _ at hbyte
  rw [hbytes] at hbyte
  exact (step_some (nextOp_placeFrame name payload s)).trans hbyte

/-- A command frame placed at its last byte runs as its command in the very next step, from any state: on the motors, the ports and the
display of that state with no refresh under way, and the parser back at a header. -/
theorem step_placeFrame_command (c : CommandName) {payload : List Byte} {s : State}
    (hlen : payload.length = expectedLength s.cfg c) (hp : payload.length ≤ s.cfg.payloadMax) :
    ∃ u, step (placeFrame (nameBytes c) payload s) = exec (commandInstr c payload) u ∧
      u.motor = s.motor ∧ u.disp = { s.disp with seq := .idle } ∧ u.io = s.io ∧ u.codec.phase = .hdr := by
  refine ⟨{ stampFrame (atLastByte (nameBytes c) payload s) with codec.phase := .hdr }, ?_, rfl, rfl, rfl, rfl⟩
  rw [step_placeFrame hp, execDispatch, lookupName_nameBytes, ← handler_eq_exec]
  exact if_pos hlen

/-! ### Table words (log 17) -/

/-- The payload of a table word's frame: zeros, as many as the command expects. -/
def zeroPayload (cfg : Config) (c : CommandName) : List Byte := List.replicate (expectedLength cfg c) 0

@[simp] theorem zeroPayload_length (cfg : Config) (c : CommandName) : (zeroPayload cfg c).length = expectedLength cfg c :=
  List.length_replicate

/-- Under T0 the payload of every command fits the payload buffer. -/
theorem zeroPayload_t0_fits (c : CommandName) : (zeroPayload Config.t0 c).length ≤ Config.t0.payloadMax := by
  cases c <;> decide

theorem decodeTableWord_of_tableName {nbits w : Nat} {c : CommandName} (h : tableName nbits w = nameBytes c) :
    decodeTableWord nbits w = some (commandInstr c (zeroPayload Config.t0 c)) := by
  have hframe : tableFrame Config.t0 nbits w = encCmd (nameBytes c) (zeroPayload Config.t0 c) := by
    simp [tableFrame, h, zeroPayload]
  have hdecode := decode_encCmd t0_wf c [] (zeroPayload_length _ c) (zeroPayload_t0_fits c)
  rw [List.append_nil] at hdecode
  rw [decodeTableWord, hframe, hdecode]

theorem withFetchWord_of_tableName {nbits w : Nat} {c : CommandName} (h : tableName nbits w = nameBytes c) (s : State) :
    s.withFetchWord nbits w = placeFrame (nameBytes c) (zeroPayload s.cfg c) s := by
  simp [State.withFetchWord, placeTableWord, h, zeroPayload]

/-- The word of any of the eight commands decodes to the command with operands of zeros, and that command is what the step after
placing the word in the reset state runs. -/
theorem placedCommand_runs_next {nbits w : Nat} {c : CommandName} (h : tableName nbits w = nameBytes c) :
    decodeTableWord nbits w = some (commandInstr c (zeroPayload Config.t0 c)) ∧
    ∃ u, step (State.reset.withFetchWord nbits w) = exec (commandInstr c (zeroPayload Config.t0 c)) u ∧
      u.motor = State.reset.motor ∧ u.disp = State.reset.disp ∧ u.io = State.reset.io ∧ u.codec.phase = .hdr := by
  refine ⟨decodeTableWord_of_tableName h, ?_⟩
  rw [withFetchWord_of_tableName h]
  exact step_placeFrame_command (s := State.reset) c (zeroPayload_length _ c) (zeroPayload_t0_fits c)

/-- Settles O42: the three words hold the names of `MVEL`, `MSTOP` and `SPING`, first byte in bits 7..0. -/
theorem placedCommandsRunNext : Obligations.PlacedCommandsRunNext := by
  intro i nbits w hmem
  simp only [List.mem_cons, List.not_mem_nil, or_false, Prod.mk.injEq] at hmem
  rcases hmem with ⟨rfl, rfl, rfl⟩ | ⟨rfl, rfl, rfl⟩ | ⟨rfl, rfl, rfl⟩
  · exact placedCommand_runs_next (c := .mvel) (by decide)
  · exact placedCommand_runs_next (c := .mstop) (by decide)
  · exact placedCommand_runs_next (c := .sping) (by decide)

end Sys2Proof.Machine

/-! SUPPORT. The CRC engine: the register shifted against a byte's bits, the register fed its own bytes, and that no shift or byte
loses information (O3 to O6). -/

namespace Sys2Proof.Machine

/-! ### The two forms of the update (40_crc_validator.md R64) -/

/-- The top bit of the byte placed in the high half, after its bits above bit `k` are shifted out, is bit `k`. -/
theorem msb_setWidth_shiftLeft (b : Byte) {k : Nat} (hk : k < 8) : (b.setWidth 16 <<< (15 - k)).msb = b.getLsbD k := by
  have hlow : 15 - (15 - k) = k := by omega
  simp [BitVec.msb_eq_getLsbD_last, hlow]

/-- One shift takes the top bit of an exclusive-or'd word `x` as a serial step takes its bit, and keeps the other bits of `x` one
place up. -/
theorem crcShift_xor {b : Byte} {x : Word16} {i : Nat} (hx : x.msb = b.getLsbD i) (c : Word16) :
    crcShift (c ^^^ x) = crcSerialBit b c i ^^^ x <<< 1 := by
  simp only [crcShift, crcSerialBit, BitVec.msb_xor, hx, BitVec.shiftLeft_xor_distrib]
  split
  · ac_rfl
  · rfl

/-- `k` shifts of a register holding the low `k` bits of the byte at its top feed those bits in serially. -/
theorem crcShifts_eq_serial (b : Byte) {k : Nat} (hk : k ≤ 8) (c : Word16) :
    crcShifts k (c ^^^ b.setWidth 16 <<< (16 - k)) = (List.range k).reverse.foldl (crcSerialBit b) c := by
  induction k generalizing c with
  | zero => simp [crcShifts]
  | succ k ih =>
    have hbit : (b.setWidth 16 <<< (15 - k)).msb = b.getLsbD k := msb_setWidth_shiftLeft b hk
    rw [crcShifts, show 16 - (k + 1) = 15 - k by omega, crcShift_xor hbit, ← BitVec.shiftLeft_add,
      show 15 - k + 1 = 16 - k by omega, ih (by omega), List.range_succ, List.reverse_concat, List.foldl_cons]

/-- Settles O3: the eight shifts feed in the byte's bits 7 down to 0. -/
theorem crcFormsAgree : Obligations.CrcFormsAgree := fun c b => crcShifts_eq_serial b le_rfl c

/-! ### The residue (40_crc_validator.md R68 item 2) -/

/-- A serial step fed the register's own top bit only shifts. -/
theorem crcSerialBit_of_msb {b : Byte} {c : Word16} {i : Nat} (h : c.msb = b.getLsbD i) : crcSerialBit b c i = c <<< 1 := by
  simp [crcSerialBit, h]

/-- Fed its own top `k` bits, the register only shifts. -/
theorem serial_ownBits {b : Byte} {k : Nat} (hk : k ≤ 8) {c : Word16}
    (h : ∀ i < k, c.getLsbD (16 - k + i) = b.getLsbD i) :
    (List.range k).reverse.foldl (crcSerialBit b) c = c <<< k := by
  induction k generalizing c with
  | zero => simp
  | succ k ih =>
    have hmsb : c.msb = b.getLsbD k := by
      rw [BitVec.msb_eq_getLsbD_last, ← h k k.lt_succ_self]
      congr 1
      omega
    have hrest : ∀ i < k, (c <<< 1).getLsbD (16 - k + i) = b.getLsbD i := fun i hi => by
      rw [← h i (by omega), BitVec.getLsbD_shiftLeft, show 16 - k + i - 1 = 16 - (k + 1) + i by omega]
      simp [show 16 - k + i < 16 by omega, show ¬16 - k = 0 by omega]
    rw [List.range_succ, List.reverse_concat, List.foldl_cons, crcSerialBit_of_msb hmsb, ih (by omega) hrest,
      ← BitVec.shiftLeft_add, Nat.add_comm]

/-- Fed its own high byte, the register moves its low byte up. -/
theorem crcUpdate_highByte (c : Word16) : crcUpdate c ((c >>> 8).setWidth 8) = c <<< 8 :=
  (crcFormsAgree _ _).trans <| serial_ownBits (k := 8) le_rfl fun i hi => by simp [hi]

theorem highByte_shiftLeft (c : Word16) : ((c <<< 8) >>> 8).setWidth 8 = c.setWidth 8 := by
  ext i hi
  simp [show i < 16 by omega, show 8 + i < 16 by omega]

/-- Settles O4: a register fed its own two bytes is shifted out altogether. -/
theorem crcResidueIsZero : Obligations.CrcResidueIsZero := by
  intro p
  have hhigh := crcUpdate_highByte (crc16 p)
  have hlow := crcUpdate_highByte (crc16 p <<< 8)
  rw [highByte_shiftLeft, ← BitVec.shiftLeft_add] at hlow
  rw [List.append_cons, crc16_snoc, crc16_snoc, hhigh, hlow]
  exact BitVec.shiftLeft_eq_zero le_rfl

/-! ### No information is lost (40_crc_validator.md R68 item 3) -/

/-- The shifted register remembers in bit 0 the bit it dropped, because `0x1021` is odd. -/
theorem crcShift_getLsbD_zero (c : Word16) : (crcShift c).getLsbD 0 = c.msb := by
  unfold crcShift
  split
  · next h => simp [h]
  · next h => simp [h]

theorem eq_of_msb_of_shiftLeft {c d : Word16} (hmsb : c.msb = d.msb) (hshift : c <<< 1 = d <<< 1) : c = d := by
  refine BitVec.eq_of_getLsbD_eq fun i hi => ?_
  rcases Nat.lt_or_eq_of_le (Nat.le_of_lt_succ hi) with hlt | rfl
  · have hbit := congrArg (BitVec.getLsbD · (i + 1)) hshift
    simpa [show i + 1 < 16 by omega, ← BitVec.getLsbD_eq_getElem] using hbit
  · simpa only [BitVec.msb_eq_getLsbD_last] using hmsb

theorem crcShift_injective : Function.Injective crcShift := by
  intro c d h
  have hmsb : c.msb = d.msb := by rw [← crcShift_getLsbD_zero, h, crcShift_getLsbD_zero]
  refine eq_of_msb_of_shiftLeft hmsb ?_
  simp only [crcShift, hmsb] at h
  split at h
  · exact (BitVec.xor_left_inj _).1 h
  · exact h

theorem crcShifts_injective (n : Nat) : Function.Injective (crcShifts n) := by
  induction n with
  | zero => exact Function.injective_id
  | succ n ih => exact ih.comp crcShift_injective

theorem crcUpdate_left_injective (b : Byte) : Function.Injective (crcUpdate · b) := fun _ _ h =>
  (BitVec.xor_left_inj _).1 (crcShifts_injective 8 h)

theorem highHalf_injective : Function.Injective fun b : Byte => b.setWidth 16 <<< 8 := by
  intro b b' h
  refine BitVec.eq_of_getLsbD_eq fun i hi => ?_
  have hbit := congrArg (BitVec.getLsbD · (i + 8)) h
  simpa [show i + 8 < 16 by omega, show i < 16 by omega] using hbit

theorem crcUpdate_right_injective (c : Word16) : Function.Injective (crcUpdate c) := fun _ _ h =>
  highHalf_injective ((BitVec.xor_right_inj _).1 (crcShifts_injective 8 h))

theorem crcFeed_injective (p : List Byte) : Function.Injective (crcFeed · p) := by
  induction p with
  | nil => exact Function.injective_id
  | cons b p ih => exact ih.comp (crcUpdate_left_injective b)

theorem crc16_append (p q : List Byte) : crc16 (p ++ q) = crcFeed (crc16 p) q := List.foldl_append

/-- Settles O5: the changed byte gives another register, and the bytes after it keep the two apart. -/
theorem crcDetectsOneChangedByte : Obligations.CrcDetectsOneChangedByte := by
  intro p q b b' hne h
  rw [crc16_append _ q, crc16_append _ q, crc16_snoc, crc16_snoc] at h
  exact hne (crcUpdate_right_injective _ (crcFeed_injective q h))

/-! ### The engine's operations (40_crc_validator.md R65 to R67) -/

theorem crcMatch_iff (c : Codec) : crcMatch c = true ↔ c.crcReg = c.ckAcc := beq_iff_eq

theorem crcStep_eq_serial (b : Byte) (s : State) :
    crcStep b s = { s with codec.crcReg := crcUpdateSerial s.codec.crcReg b } := by
  rw [crcStep, crcFormsAgree]

/-- Settles O6: by the definitions of the three operations, and O3 for the form of the update. -/
theorem crcOperationsWriteOnlyTheRegister : Obligations.CrcOperationsWriteOnlyTheRegister := fun s b =>
  ⟨rfl, congrArg Host.Outcome.next (crcStep_eq_serial b s), rfl, crcMatch_iff s.codec⟩

end Sys2Proof.Machine

/-! SUPPORT. Every operation a step runs answers a next state: no fault, no refusal (O45, O13). -/

namespace Sys2Proof.Machine

/-! ### The handlers and the dispatcher, from every state -/

theorem withDisplay_completes (s u : State) : ∃ t, withDisplay s (.next u) = .next t := by
  rcases withDisplay_cases s (.next u) with ⟨-, hw⟩ | ⟨-, hw⟩
  · exact ⟨_, hw⟩
  · exact ⟨_, hw⟩

/-- `DIMG` writes an image of exactly the buffer's size, so it stays inside the buffer (44_display_commands.md R101). -/
theorem execDimg_completes (data : List Byte) (s : State) : ∃ t, execDimg data s = .next t := by
  unfold execDimg
  split
  · exact ⟨_, rfl⟩
  · next hlen =>
    rcases withDisplay_cases s _ with ⟨hp, hw⟩ | ⟨-, hw⟩
    · have hfit : 0 + data.length ≤ capacity s.cfg .disp := by
        rw [Nat.zero_add, capacity, if_pos hp]
        exact (not_not.1 hlen).le
      exact ⟨_, hw.trans (writeThen_eq hfit _)⟩
    · exact ⟨_, hw⟩

theorem handler_completes (c : CommandName) (payload : List Byte) (s : State) : ∃ t, handler c payload s = .next t := by
  cases c with
  | dimg => exact execDimg_completes payload s
  | dclear => exact withDisplay_completes s _
  | dstatus => exact withDisplay_completes s _
  | _ => exact ⟨_, rfl⟩

theorem execDispatch_completes (name payload : List Byte) (s : State) : ∃ t, execDispatch name payload s = .next t := by
  rcases execDispatch_cases name payload s with ⟨-, hd⟩ | ⟨c, -, -, hd⟩ | ⟨c, -, -, hd⟩
  · exact ⟨_, hd⟩
  · exact ⟨_, hd⟩
  · rw [hd]; exact handler_completes c payload s

/-! ### The operations a step runs, under their block's invariant -/

/-- `RX_BYTE`: each of its three faults needs a counter beyond its buffer (41_frame_codec.md R69). -/
theorem execRxByte_completes {s : State} (h : CodecInv s) (b : Byte) : ∃ t, execRxByte b s = .next t := by
  rcases execRxByte_cases b s with
    ⟨-, -, -, hx⟩ | ⟨-, -, -, hx⟩ | ⟨-, -, hover, -⟩ | ⟨_, -, -, -, -, hx⟩ | ⟨_, _, -, -, -, -, hx⟩ | ⟨-, -, hx⟩ |
    ⟨hp, hover, -⟩ | ⟨-, -, hx⟩ | ⟨-, -, hx⟩ | ⟨-, -, -, hx⟩ | ⟨-, -, -, -, -, hx⟩ | ⟨-, -, -, -, hover, -⟩ | ⟨-, -, -, -, hx⟩ |
    ⟨-, -, -, hx⟩
  · exact ⟨_, hx⟩
  · exact ⟨_, hx⟩
  · exact absurd h.hdrLen_le hover.not_ge
  · exact ⟨_, hx⟩
  · exact ⟨_, hx⟩
  · exact ⟨_, hx⟩
  · exact absurd ((h.payCnt_lt hp).trans_le h.expLen_le) hover.not_gt
  · exact ⟨_, hx⟩
  · exact ⟨_, hx⟩
  · exact ⟨_, hx⟩
  · rw [hx]; exact execDispatch_completes _ _ _
  · exact absurd h.expLen_le hover.not_ge
  · exact ⟨_, hx⟩
  · exact ⟨_, hx⟩

/-- Settles O13. -/
theorem rxByteAlwaysCompletes : Obligations.RxByteAlwaysCompletes := fun _ b h => execRxByte_completes h b

/-- `DISP_STEP`: the buffer it reads exists while a refresh runs (44_display_commands.md R104, R107). -/
theorem execDispStep_completes {s : State} (h : DisplayInv s) : ∃ t, execDispStep s = .next t := by
  unfold execDispStep
  cases hq : s.disp.seq with
  | write =>
    have hp : s.cfg.displayPresent = true := h.seq_present (by simp [hq])
    have hfit : s.cfg.displayCapacity ≤ capacity s.cfg .disp := by simp [capacity, hp]
    exact ⟨_, readThen_zero hfit _⟩
  | _ => exact ⟨_, rfl⟩

/-- `DISP_RECEIVE` stores no more than the room above the cursor (44_display_commands.md R111). -/
theorem execDispReceive_completes {s : State} (h : DisplayInv s) (chunk : List Byte) :
    ∃ t, execDispReceive chunk s = .next t := by
  unfold execDispReceive
  split
  · next hacc =>
    simp only [receiveAccepted, Bool.and_eq_true] at hacc
    have hcap : capacity s.cfg .disp = s.cfg.displayCapacity := if_pos hacc.2
    have hcur := h.cursor_le
    have hfit : s.disp.cursor + (chunk.take (receiveCount chunk s)).length ≤ capacity s.cfg .disp := by
      simp only [List.length_take, receiveCount]
      omega
    exact ⟨_, writeThen_eq hfit _⟩
  · exact ⟨_, rfl⟩

/-- Every operation a step can select. -/
theorem Selected.completes {i : Instr} {s : State} (hsel : Selected i s) (h : Inv s) : ∃ t, exec i s = .next t := by
  cases hsel with
  | dispStep => exact execDispStep_completes h.display
  | rxByte b => exact execRxByte_completes h.codec b
  | tickTimeout => exact ⟨_, rfl⟩
  | tickWatchdog => exact ⟨_, rfl⟩
  | dispReceive chunk => exact execDispReceive_completes h.display chunk
  | reset => exact ⟨_, rfl⟩

/-- Settles O45: the move of whoever is next keeps the invariant, and under it the operation the move selects answers. -/
theorem stepNeverStops : Obligations.StepNeverStops := by
  intro s h
  have hmove : Inv (nextOp s).2 := h.nextOp
  cases ho : nextOp s with
  | mk o u =>
    rw [ho] at hmove
    cases o with
    | none => exact ⟨u, step_none ho⟩
    | some i => rw [step_some ho]; exact (nextOp_selected ho).completes hmove

end Sys2Proof.Machine

/-! SUPPORT. A whole conforming frame fed to the codec: the header line, the payload and the checksum field, to its hand-off (O54, O56). -/

namespace Sys2Proof.Machine

/-! ### The parts of a frame (41_frame_codec.md R70 to R79) -/

/-- A state is itself fed its own queue and codec. -/
theorem feed_self (s : State) : feed s s.io.rxQueue s.codec = s := rfl

/-- A line start holds the empty header. -/
theorem HoldsHeader.nil {s : State} {c : Codec} (hphase : c.phase = .hdr) (hlen : c.hdrLen = 0) (hwf : Mem.wf 0 c.hdrBuf) :
    HoldsHeader s [] c :=
  ⟨hphase, hlen, rfl, hwf⟩

/-- A header line within the bounds, with its terminator, is accepted (41_frame_codec.md R70 to R73). -/
theorem feed_headerLine {s : State} (hd : Draining s) {name : List Byte} {n : Nat} {c : Codec} (q : List Byte)
    (hc : HoldsHeader s [] c) (hpay : Mem.wf 0 c.payBuf) (hdigit : ∀ b ∈ name, isDigit b = false) (hterm : term ∉ name)
    (hfit : (name ++ dec n).length ≤ s.cfg.cmdBufMax) (hn : n ≤ s.cfg.payloadMax) :
    ∃ c', runSteps ((name ++ dec n).length + 1) (feed s (name ++ dec n ++ term :: q) c) = .next (feed s q c') ∧
      HoldsPayload s name n [] c' := by
  have hline : term ∉ name ++ dec n := by simp [hterm, term_notMem_dec]
  obtain ⟨c₁, hrun, hheld, hsame⟩ := feed_header hd (term :: q) (name ++ dec n) [] c hc hline (by simpa using hfit)
  obtain ⟨c', hstep, hc'⟩ := feed_accept hd q hheld hfit (splitHeader_dec hdigit hn) (hsame ▸ hpay)
  exact ⟨c', by rw [run_add hrun, run_one, hstep], hc'⟩

/-- The codec after the payload's terminator (41_frame_codec.md R75). -/
def Codec.openChecksum (c : Codec) : Codec := { c with ckAcc := 0, ckCnt := 0, phase := .ck }

/-- The terminator of a whole payload opens the checksum field (41_frame_codec.md R75). -/
theorem feed_payloadTerm {s : State} (hd : Draining s) (q : List Byte) {c : Codec} (hp : c.phase = .payterm) :
    step (feed s (term :: q) c) = .next (feed s q c.openChecksum) := by
  rw [step_feed hd]
  simp only [execRxByte, feed, hp, rxPayloadTerm, if_true]
  rfl

/-- The codec at the hand-off of a frame whose checksum field spells its payload's CRC (41_frame_codec.md R79). -/
def Codec.handedOff (c : Codec) (ck : Word16) : Codec := { c.openChecksum with ckAcc := ck, ckCnt := 4, phase := .hdr }

/-- Everything after the header line: the payload, its terminator, the checksum field, and the hand-off (41_frame_codec.md R74 to
R79). -/
theorem feed_body {s : State} (hd : Draining s) {name p : List Byte} {c : Codec} (rest : List Byte)
    (hc : HoldsPayload s name p.length [] c) (hp : p.length ≤ s.cfg.payloadMax) :
    ∃ c', HoldsPayload s name p.length p c' ∧
      runSteps (p.length + (1 + (4 + 1))) (feed s (p ++ term :: (hex4 (crc16 p) ++ term :: rest)) c) =
        execDispatch name p { feed s rest (c'.handedOff (crc16 p)) with sup.lastFrameMs := s.io.now } := by
  obtain ⟨c', hrun, hc'⟩ := feed_payload hd hp (term :: (hex4 (crc16 p) ++ term :: rest)) p [] c hc (by simp)
  refine ⟨c', hc', ?_⟩
  have hphase : c'.phase = .payterm := by simp [hc'.phase]
  have hopen := (run_one _).trans (feed_payloadTerm hd (hex4 (crc16 p) ++ term :: rest) hphase)
  have hck := feed_checksum hd (term :: rest) (crc16 p) (c := c'.openChecksum) rfl rfl rfl
  rw [run_add hrun, run_add hopen, run_add hck, run_one]
  exact feed_handOff hd hp rest rfl rfl hc'.payload hc'.name_eq hc'.expLen hc'.crc

/-- A whole frame within the bounds, fed from a line start, ends in the dispatcher's call with its name and payload. -/
theorem feed_frame {s : State} (hd : Draining s) {name p : List Byte} {c : Codec} (rest : List Byte)
    (hc : HoldsHeader s [] c) (hpay : Mem.wf 0 c.payBuf) (hdigit : ∀ b ∈ name, isDigit b = false) (hterm : term ∉ name)
    (hfit : name.length + (dec p.length).length ≤ s.cfg.cmdBufMax) (hp : p.length ≤ s.cfg.payloadMax) :
    ∃ c', HoldsPayload s name p.length p c' ∧
      runSteps (encCmd name p).length (feed s (encCmd name p ++ rest) c) =
        execDispatch name p { feed s rest (c'.handedOff (crc16 p)) with sup.lastFrameMs := s.io.now } := by
  obtain ⟨c₁, hline, hc₁⟩ := feed_headerLine hd (p ++ term :: (hex4 (crc16 p) ++ term :: rest)) hc hpay hdigit hterm
    (by simpa using hfit) hp
  obtain ⟨c', hc', hbody⟩ := feed_body hd rest hc₁ hp
  have hlen : (encCmd name p).length = (name ++ dec p.length).length + 1 + (p.length + (1 + (4 + 1))) := by
    simp [encCmd]; omega
  exact ⟨c', hc', by rw [hlen, encCmd_append, run_add hline, hbody]⟩

/-- Settles O56: the frame fed from the queue of the state itself. -/
theorem everyConformingFrameIsDispatched : Obligations.EveryConformingFrameIsDispatched := by
  intro s name p rest h hname hfit hp henv hmode hseq hloop hphase hlen hqueue
  obtain ⟨c, hc, hrun⟩ := feed_frame ⟨henv, hmode, hseq, hloop⟩ rest (HoldsHeader.nil hphase hlen (h.buffers.wf .hdr))
    (h.buffers.wf .pay) (fun b hb => (hname b hb).1) (fun ht => (hname term ht).2 rfl) hfit hp
  rw [← hqueue, feed_self] at hrun
  exact ⟨_, hrun, rfl, rfl, hc.hdrLen, hc.name_eq, hc.expLen, hc.payload⟩

/-! ### The frames of the well-formed commands -/

/-- The encoding of a well-formed command is the frame of its name and a payload of the expected length, which stands for it
(30_encoding.md R51 to R54). -/
theorem encode_command {cfg : Config} (hw : cfg.wf = true) {i : Instr} {c : CommandName} (hi : i.wf cfg = true)
    (hc : commandOf i = some c) :
    ∃ p, encode i = encCmd (nameBytes c) p ∧ p.length = expectedLength cfg c ∧ p.length ≤ cfg.payloadMax ∧
      commandInstr c p = i := by
  cases i with
  | mvel l r d =>
    cases hc
    exact ⟨mvelPayload l r d, rfl, rfl, mvel_length_le_payloadMax hw, commandInstr_mvelPayload l r d⟩
  | dimg data =>
    cases hc
    simp only [Instr.wf, Bool.and_eq_true, decide_eq_true_eq] at hi
    exact ⟨data, rfl, hi.1, hi.2, rfl⟩
  | mstop | dclear | dstatus | sreset | shalt | sping => cases hc; exact ⟨[], rfl, rfl, Nat.zero_le _, rfl⟩
  | _ => cases hc

/-- `DISPATCH` of a known name with a payload of its expected length is the command's own meaning (42_dispatcher.md R83). -/
theorem execDispatch_nameBytes (c : CommandName) {p : List Byte} {s : State} (hlen : p.length = expectedLength s.cfg c) :
    execDispatch (nameBytes c) p s = exec (commandInstr c p) s := by
  rw [execDispatch, lookupName_nameBytes, ← handler_eq_exec]
  exact if_pos hlen

/-- Settles O54: the frame is dispatched (O56), and the dispatcher runs the command it encodes. -/
theorem conformingFrameIsExecuted : Obligations.ConformingFrameIsExecuted := by
  intro s i c rest h hi hcmd henv hmode hseq hloop hphase hhdr hqueue
  obtain ⟨p, henc, hlen, hp, hinstr⟩ := encode_command h.cfg_wf hi hcmd
  have hname : ∀ b ∈ nameBytes c, isDigit b = false ∧ b ≠ 0x0A := fun b hb =>
    ⟨nameBytes_not_digit c b hb, ne_of_mem_of_not_mem hb (term_notMem_nameBytes c)⟩
  have hfit : (nameBytes c).length + (dec p.length).length ≤ s.cfg.cmdBufMax := hlen ▸ header_length_le h.cfg_wf c
  obtain ⟨u, hrun, hu, huphase, huhdr, huname, -, -⟩ := everyConformingFrameIsDispatched s (nameBytes c) p rest h hname hfit hp
    henv hmode hseq hloop hphase hhdr (henc ▸ hqueue)
  have hcfg : u.cfg = s.cfg := by rw [hu]
  have hexec : exec (.dispatch (nameBytes c) p) u = exec i u := by
    rw [← hinstr]
    exact execDispatch_nameBytes c (by rw [hcfg, hlen])
  exact ⟨u, by rw [henc, hrun, hexec], hu, huphase, huhdr, huname⟩

end Sys2Proof.Machine

/-! SUPPORT. `RX_BYTE` by phase and byte, one equation a case (O7 to O12). -/

namespace Sys2Proof.Machine

/-! ### Errors without a response (60_exceptions.md R132) -/

theorem raiseError_silent {e : FrameError} (he : errorMessage e = none) (s : State) : raiseError e s = toHeader s := by
  rw [raiseError, he]

/-- In header phase the return to header phase only empties the header. -/
theorem toHeader_of_header {s : State} (hp : s.codec.phase = .hdr) : toHeader s = { s with codec.hdrLen := 0 } := by
  rw [toHeader, ← hp]

/-! ### One byte of one buffer written -/

/-- A state with one byte of one canonical buffer written reads that byte there, and every other byte of every buffer as before. -/
theorem readByte_memWrite {s t : State} {sp : Space} {a : Nat} {b : Byte} (hwf : Mem.wf (unlisted s.cfg sp) (s.mem sp))
    (hcfg : t.cfg = s.cfg) (hmem : t.mem sp = memWrite (unlisted s.cfg sp) (s.mem sp) a b)
    (hother : ∀ q, q ≠ sp → t.mem q = s.mem q) :
    t.readByte sp a = b ∧ ∀ (q : Space) (x : Nat), (q ≠ sp ∨ x ≠ a) → t.readByte q x = s.readByte q x := by
  refine ⟨by rw [State.readByte, hcfg, hmem, memRead_memWrite_eq hwf.1], fun q x hne => ?_⟩
  by_cases hq : q = sp
  · subst hq
    rw [State.readByte, State.readByte, hcfg, hmem, memRead_memWrite_ne _ _ _ (hne.resolve_left (not_not.2 rfl))]
  · exact readByte_congr hcfg (hother q hq) x

/-! ### Header phase (41_frame_codec.md R70 to R73) -/

/-- A line is dropped exactly when its split is an error (41_frame_codec.md R72). -/
theorem lineDropped_iff {payloadMax : Nat} {line : List Byte} :
    LineDropped payloadMax line ↔ ∃ e, splitHeader payloadMax line = .error e := by
  simp only [LineDropped, splitHeader]
  generalize line.dropWhile (fun b => !isDigit b) = digits
  split
  · next hnone => exact iff_of_true (.inl (List.isEmpty_iff.1 hnone)) ⟨_, rfl⟩
  · next hsome =>
    split
    · next hbad => exact iff_of_true (.inr (.inl (by simpa using hbad))) ⟨_, rfl⟩
    · next hall =>
      split
      · next hval => exact iff_of_true (.inr (.inr hval)) ⟨_, rfl⟩
      · next hval =>
        refine iff_of_false ?_ nofun
        rintro (hnone | ⟨b, hb, hbad⟩ | hover)
        · exact hsome (List.isEmpty_iff.2 hnone)
        · exact hall (by simpa using ⟨b, hb, hbad⟩)
        · exact hval hover

section
variable {s : State} {b : Byte} (hp : s.codec.phase = .hdr)
include hp

/-- A header byte with room for it is accumulated (41_frame_codec.md R70). -/
theorem execRxByte_headerByte (hb : b ≠ term) (hl : s.codec.hdrLen < s.cfg.cmdBufMax) :
    execRxByte b s = .next { s with
      codec.hdrBuf := memWrite 0 s.codec.hdrBuf s.codec.hdrLen b, codec.hdrLen := s.codec.hdrLen + 1 } := by
  have hx : execRxByte b s = rxHeaderByte b s := by simp [execRxByte, hp, hb]
  have hfit : s.codec.hdrLen + [b].length ≤ capacity s.cfg .hdr := hl
  rw [hx, rxHeaderByte, if_pos hl, writeThen_eq hfit]
  rfl

/-- A header byte beyond the buffer drops the header (41_frame_codec.md R70). -/
theorem execRxByte_headerFull (hb : b ≠ term) (hl : s.cfg.cmdBufMax ≤ s.codec.hdrLen) :
    execRxByte b s = .next { s with codec.hdrLen := 0 } := by
  have hx : execRxByte b s = rxHeaderByte b s := by simp [execRxByte, hp, hb]
  rw [hx, rxHeaderByte, if_neg hl.not_gt, raiseError_silent rfl, toHeader_of_header hp]

theorem execRxByte_headerTerm : execRxByte term s = rxHeaderTerm s := by simp [execRxByte, hp]

/-- A header line dropped for a reason of 41_frame_codec.md R72. -/
theorem execRxByte_lineDropped (hl : s.codec.hdrLen ≤ s.cfg.cmdBufMax)
    (hline : LineDropped s.cfg.payloadMax (s.bytes .hdr s.codec.hdrLen)) :
    execRxByte term s = .next { s with codec.hdrLen := 0 } := by
  obtain ⟨e, he⟩ := lineDropped_iff.1 hline
  rw [execRxByte_headerTerm hp, rxHeaderTerm, readThen_zero (sp := .hdr) hl, he]
  dsimp only
  rw [raiseError_silent (errorMessage_of_splitHeader he), toHeader_of_header hp]

/-- A header line accepted (41_frame_codec.md R73). -/
theorem execRxByte_lineAccepted (hl : s.codec.hdrLen ≤ s.cfg.cmdBufMax) {name : List Byte} {n : Nat}
    (hs : splitHeader s.cfg.payloadMax (s.bytes .hdr s.codec.hdrLen) = .ok (name, n)) :
    execRxByte term s = .next (acceptHeader name n s) := by
  rw [execRxByte_headerTerm hp, rxHeaderTerm, readThen_zero (sp := .hdr) hl, hs]
end

/-- Settles O7. -/
theorem headerByteIsAccumulatedOrDropped : Obligations.HeaderByteIsAccumulatedOrDropped := by
  intro s b hbuf hp hb
  refine ⟨fun hl => ⟨_, execRxByte_headerByte hp hb hl, rfl, ?_⟩, execRxByte_headerFull hp hb⟩
  exact readByte_memWrite (sp := .hdr) (hbuf.wf .hdr) rfl rfl fun q hq => by
    cases q with
    | hdr => exact absurd rfl hq
    | _ => rfl

/-- Settles O8: the line's split is at `name` and `rest`. -/
theorem headerLineIsSplitOrDropped : Obligations.HeaderLineIsSplitOrDropped := by
  intro s name rest hp hl hline hname hrest
  refine ⟨fun hdrop => ?_, fun hne hall hval => ?_⟩
  · refine execRxByte_lineDropped hp hl ?_
    simpa only [hline, LineDropped, (takeWhile_split hname hrest).2] using hdrop
  · refine execRxByte_lineAccepted hp hl (name := name) (n := decVal rest) ?_
    rw [hline, splitHeader_split _ hname hrest, if_neg (by simpa using hne), if_neg (by simpa using hall), if_neg hval.not_gt]

/-! ### The payload and its terminator (41_frame_codec.md R74, R75) -/

/-- A payload byte with room for it. -/
theorem execRxByte_payload {s : State} (hp : s.codec.phase = .pay) (hl : s.codec.payCnt < s.cfg.payloadMax) (b : Byte) :
    execRxByte b s = .next (storePayload b s) := by
  have hx : execRxByte b s = rxPayload b s := by simp only [execRxByte, hp]
  have hfit : s.codec.payCnt + [b].length ≤ capacity s.cfg .pay := hl
  rw [hx, rxPayload, writeThen_eq hfit]
  rfl

/-- Settles O9. -/
theorem payloadByteIsStoredAndFed : Obligations.PayloadByteIsStoredAndFed := by
  intro s b hbuf hp hl
  refine ⟨_, execRxByte_payload hp hl b, rfl, ?_⟩
  exact readByte_memWrite (sp := .pay) (hbuf.wf .pay) rfl rfl fun q hq => by
    cases q with
    | pay => exact absurd rfl hq
    | _ => rfl

/-- Settles O10: the dropped frame is the return to header phase. -/
theorem payloadTerminatorOpensChecksum : Obligations.PayloadTerminatorOpensChecksum := by
  intro s b hp
  have hx : execRxByte b s = rxPayloadTerm b s := by simp only [execRxByte, hp]
  rw [exec, hx, rxPayloadTerm, raiseError_silent rfl]
  rfl

/-! ### The checksum field (41_frame_codec.md R76 to R80) -/

theorem eq_ofNat_of_toNat {b : Byte} {k : Nat} (h : k = b.toNat) : b = BitVec.ofNat 8 k := by simp [h]

/-- A hex digit is the upper-case character of its value, or, where lower case counts, the lower-case one (00_scope.md R7, R8). -/
theorem isHexDigit_spelling {lower : Bool} {b : Byte} (h : isHexDigit lower b = true) :
    b = hexChar (hexVal b) ∨ (lower = true ∧ 10 ≤ hexVal b ∧ b = BitVec.ofNat 8 (0x57 + hexVal b)) := by
  simp only [isHexDigit, Bool.or_eq_true, Bool.and_eq_true] at h
  unfold hexVal
  split
  · next hd =>
    simp only [isDigit, Bool.and_eq_true, decide_eq_true_eq] at hd
    rw [hexChar, if_pos (by omega)]
    exact .inl (eq_ofNat_of_toNat (by omega))
  · next hd =>
    split
    · next hu =>
      simp only [isUpperHex, Bool.and_eq_true, decide_eq_true_eq] at hu
      rw [hexChar, if_neg (by omega)]
      exact .inl (eq_ofNat_of_toNat (by omega))
    · next hu =>
      obtain ⟨hlow, hl⟩ := h.resolve_left (not_or.2 ⟨hd, hu⟩)
      simp only [isLowerHex, Bool.and_eq_true, decide_eq_true_eq] at hl
      exact .inr ⟨hlow, by omega, eq_ofNat_of_toNat (by omega)⟩

/-- The lower-case character of a nibble of at least 10 is a hex digit of that value where lower case counts. -/
theorem lowerHex_spelling {n : Nat} (h10 : 10 ≤ n) (h16 : n < 16) :
    isHexDigit true (BitVec.ofNat 8 (0x57 + n)) = true ∧ hexVal (BitVec.ofNat 8 (0x57 + n)) = n := by
  interval_cases n <;> decide

section
variable {s : State} {b : Byte} (hp : s.codec.phase = .ck)
include hp

theorem execRxByte_ck : execRxByte b s = rxChecksum b s := by simp only [execRxByte, hp]

/-- A hex digit while fewer than four are held (41_frame_codec.md R76). -/
theorem execRxByte_checksumDigit (hb : isHexDigit s.cfg.ckAcceptLower b = true) (hc : s.codec.ckCnt < 4) :
    execRxByte b s = .next { s with
      codec.ckAcc := s.codec.ckAcc * 16 + BitVec.ofNat 16 (hexVal b), codec.ckCnt := s.codec.ckCnt + 1 } := by
  rw [execRxByte_ck hp, rxChecksum, if_pos (by simp [hb, hc]), nibble_shift _ (hexVal_lt hb)]

/-- Anything but a further hex digit and the terminator of a field of four (41_frame_codec.md R78). -/
theorem execRxByte_checksumMalformed (hb : ¬(isHexDigit s.cfg.ckAcceptLower b = true ∧ s.codec.ckCnt < 4))
    (ht : ¬(b = term ∧ s.codec.ckCnt = 4)) : execRxByte b s = .next (toHeader s) := by
  rw [execRxByte_ck hp, rxChecksum, if_neg (by simpa using hb), if_neg ht, raiseError_silent rfl]

/-- The terminator of a field that is not the payload's CRC (41_frame_codec.md R80). -/
theorem execRxByte_mismatch (hc : s.codec.ckCnt = 4) (hm : s.codec.crcReg ≠ s.codec.ckAcc) :
    execRxByte term s = .next (raiseError (.checksum s.codec.crcReg s.codec.ckAcc) s) := by
  rw [execRxByte_ck hp, rxChecksum, if_neg (by simp [hc]), if_pos ⟨rfl, hc⟩, if_neg (by simpa [crcMatch_iff] using hm)]
end

/-- Settles O11: the accepted bytes are the spellings of a nibble, and `TERM` is none of them. -/
theorem checksumDigitsAccumulate : Obligations.ChecksumDigitsAccumulate := by
  intro s b hp
  refine ⟨fun n hn hb hc => ?_, fun hupper hlower hb => ?_, fun hb hc => ?_, fun hb hc => ?_⟩
  · have hdigit : isHexDigit s.cfg.ckAcceptLower b = true ∧ hexVal b = n := by
      rcases hb with rfl | ⟨hlow, h10, rfl⟩
      · exact ⟨isHexDigit_hexChar _ hn, hexVal_hexChar hn⟩
      · exact hlow ▸ lowerHex_spelling h10 hn
    have hx := execRxByte_checksumDigit hp hdigit.1 hc
    rwa [hdigit.2] at hx
  · have hnone : ¬ isHexDigit s.cfg.ckAcceptLower b = true := fun hdigit => by
      rcases isHexDigit_spelling hdigit with he | ⟨hlow, h10, he⟩
      · exact hupper _ (hexVal_lt hdigit) he
      · exact hlower hlow _ h10 (hexVal_lt hdigit) he
    exact execRxByte_checksumMalformed hp (fun h => hnone h.1) (fun h => hb h.1)
  · exact execRxByte_checksumMalformed hp (by simp [show b = term from hb, isHexDigit_term]) (fun h => hc h.2)
  · exact execRxByte_checksumMalformed hp (fun h => hc.not_gt h.2) (fun h => hb h.1)

/-- Settles O12. -/
theorem checksumCompletionDispatchesOrRejects : Obligations.ChecksumCompletionDispatchesOrRejects := fun _ hp hc =>
  ⟨execRxByte_handOff hp hc, execRxByte_mismatch hp hc⟩

end Sys2Proof.Machine

/-! SUPPORT. What a byte touches outside the codec, where it leaves the parser, and a corrupted payload (O14, O15, O55); whole
responses (O19). -/

namespace Sys2Proof.Machine

/-! ### Outside the codec (41_frame_codec.md R82 items 3 and 4) -/

/-- A byte that does not complete a checksum field touches the codec only: the errors before completion are silent. -/
theorem execRxByte_local {b : Byte} {s t : State} (h : execRxByte b s = .next t)
    (hne : ¬(s.codec.phase = .ck ∧ b = term ∧ s.codec.ckCnt = 4)) : t = { s with codec := t.codec } := by
  rcases execRxByte_cases b s with
    ⟨-, -, -, hx⟩ | ⟨-, -, -, hx⟩ | ⟨-, -, -, hx⟩ | ⟨e, -, -, -, hsplit, hx⟩ | ⟨_, _, -, -, -, -, hx⟩ | ⟨-, -, hx⟩ |
    ⟨-, -, hx⟩ | ⟨-, -, hx⟩ | ⟨-, -, hx⟩ | ⟨-, -, -, hx⟩ | ⟨hp, hb, hc, -⟩ | ⟨hp, hb, hc, -⟩ | ⟨hp, hb, hc, -⟩ |
    ⟨-, -, -, hx⟩
  · rw [hx] at h; cases h; rfl
  · rw [hx] at h; cases h; rfl
  · rw [hx] at h; cases h
  · rw [hx, raiseError_silent (errorMessage_of_splitHeader hsplit)] at h; cases h; rfl
  · rw [hx] at h; cases h; rfl
  · rw [hx] at h; cases h; rfl
  · rw [hx] at h; cases h
  · rw [hx] at h; cases h; rfl
  · rw [hx] at h; cases h; rfl
  · rw [hx] at h; cases h; rfl
  · exact absurd ⟨hp, hb, hc⟩ hne
  · exact absurd ⟨hp, hb, hc⟩ hne
  · exact absurd ⟨hp, hb, hc⟩ hne
  · rw [hx] at h; cases h; rfl

/-- Settles O14: the completion without a hand-off is the mismatch, and every other byte touches the codec only. -/
theorem frameErrorsAreLocal : Obligations.FrameErrorsAreLocal := by
  intro s t b h hno
  by_cases hdone : s.codec.phase = .ck ∧ b = 0x0A ∧ s.codec.ckCnt = 4
  · obtain ⟨hp, rfl, hc⟩ := hdone
    have hm : s.codec.crcReg ≠ s.codec.ckAcc := fun hm => hno ⟨hp, rfl, hc, hm⟩
    cases (execRxByte_mismatch hp hc hm).symm.trans h
    exact ⟨rfl, (if_pos ⟨hp, rfl, hc⟩).symm⟩
  · have ht : t = { s with codec := t.codec } := execRxByte_local h hdone
    have htx : t.io.txStream = s.io.txStream := by rw [ht]
    rw [if_neg hdone, htx]
    exact ⟨ht, rfl⟩

/-! ### Where a byte leaves the parser (41_frame_codec.md R82 item 2, 60_exceptions.md R144) -/

/-- The parser at a line start: header phase with an empty header, whatever the rest of the machine does. -/
def HeaderStart (s : State) : Prop := s.codec.phase = .hdr ∧ s.codec.hdrLen = 0

theorem headerStart_raiseError (e : FrameError) (s : State) : HeaderStart (raiseError e s) := by simp [HeaderStart]

/-- Every handler leaves the parser at a line start: it keeps the codec, raises an error, or restarts. -/
theorem headerStart_handler {c : CommandName} {payload : List Byte} {s t : State} (hs : HeaderStart s)
    (h : handler c payload s = .next t) : HeaderStart t := by
  cases c with
  | mvel => cases h; exact hs
  | mstop => cases h; exact hs
  | dimg =>
    rcases execDimg_next h with ⟨-, rfl⟩ | ⟨-, -, rfl⟩ | ⟨-, -, rfl⟩
    · exact headerStart_raiseError _ s
    · exact headerStart_raiseError _ s
    · exact hs
  | dclear =>
    rcases withDisplay_next h with ⟨-, rfl⟩ | rfl
    · simpa [HeaderStart] using hs
    · exact headerStart_raiseError _ s
  | dstatus =>
    rcases withDisplay_next h with ⟨-, rfl⟩ | rfl
    · exact hs
    · exact headerStart_raiseError _ s
  | sreset => cases h; exact ⟨rfl, rfl⟩
  | shalt => cases h; exact hs
  | sping => cases h; exact hs

theorem headerStart_execDispatch {name payload : List Byte} {s t : State} (hs : HeaderStart s)
    (h : execDispatch name payload s = .next t) : HeaderStart t := by
  rcases execDispatch_next h with ⟨e, rfl⟩ | ⟨c, hc⟩
  · exact headerStart_raiseError e s
  · exact headerStart_handler hs hc

/-- In the checksum field every byte but a further hex digit ends the frame. -/
theorem endsFrame_ck {s : State} {b : Byte} (hp : s.codec.phase = .ck) :
    EndsFrame s b ↔ ¬(isHexDigit s.cfg.ckAcceptLower b = true ∧ s.codec.ckCnt < 4) := by simp only [EndsFrame, hp]

/-- The terminator ends a frame in the checksum field, whatever the field holds. -/
theorem endsFrame_ck_term {s : State} (hp : s.codec.phase = .ck) : EndsFrame s term :=
  (endsFrame_ck hp).2 (by simp [isHexDigit_term])

/-- In each case of `RX_BYTE` the byte ends the frame and leaves the parser at a line start, or neither. -/
theorem endsFrame_iff_headerStart {s t : State} {b : Byte} (hzero : s.codec.phase ≠ .hdr → s.codec.hdrLen = 0)
    (h : execRxByte b s = .next t) : EndsFrame s b ↔ HeaderStart t := by
  rcases execRxByte_cases b s with
    ⟨hp, hb, hl, hx⟩ | ⟨hp, hb, hl, hx⟩ | ⟨-, -, -, hx⟩ | ⟨e, hp, rfl, -, hs, hx⟩ | ⟨name, n, hp, rfl, -, hs, hx⟩ | ⟨hp, -, hx⟩ |
    ⟨-, -, hx⟩ | ⟨hp, hb, hx⟩ | ⟨hp, hb, hx⟩ | ⟨hp, hb, hc, hx⟩ | ⟨hp, rfl, -, -, -, hx⟩ | ⟨-, -, -, -, -, hx⟩ |
    ⟨hp, rfl, -, -, hx⟩ | ⟨hp, hb, -, hx⟩ <;> rw [hx] at h
  · cases h
    exact iff_of_false (by simp [EndsFrame, hp, hb, hl]) (by simp [HeaderStart])
  · cases h
    exact iff_of_true (by simpa [EndsFrame, hp, hb] using hl) (headerStart_raiseError _ s)
  · cases h
  · cases h
    have hline : LineDropped s.cfg.payloadMax (s.bytes .hdr s.codec.hdrLen) := lineDropped_iff.2 ⟨e, hs⟩
    exact iff_of_true (by simpa [EndsFrame, hp] using hline) (headerStart_raiseError e s)
  · cases h
    have hline : ¬LineDropped s.cfg.payloadMax (s.bytes .hdr s.codec.hdrLen) := by simp [lineDropped_iff, hs]
    exact iff_of_false (by simpa [EndsFrame, hp] using hline) (by simp only [HeaderStart, acceptHeader_codec]; split <;> simp)
  · cases h
    exact iff_of_false (by simp [EndsFrame, hp]) (by simp only [HeaderStart, crcStep_codec]; split <;> simp)
  · cases h
  · cases h
    exact iff_of_false (by simp [EndsFrame, hp, hb]) (by simp [HeaderStart])
  · cases h
    exact iff_of_true (by simpa [EndsFrame, hp] using hb) (headerStart_raiseError _ s)
  · cases h
    exact iff_of_false (by simp [endsFrame_ck hp, hb, hc]) (by simp [HeaderStart, hp])
  · have hstart : HeaderStart { stampFrame s with codec.phase := .hdr } := ⟨rfl, hzero (by simp [hp])⟩
    exact iff_of_true (endsFrame_ck_term hp) (headerStart_execDispatch hstart h)
  · cases h
  · cases h
    exact iff_of_true (endsFrame_ck_term hp) (headerStart_raiseError _ s)
  · cases h
    exact iff_of_true ((endsFrame_ck hp).2 hb) (headerStart_raiseError _ s)

/-- Settles O15. -/
theorem frameEndReturnsToHeader : Obligations.FrameEndReturnsToHeader := fun _ _ _ hzero h => endsFrame_iff_headerStart hzero h

/-! ### A payload corrupted on the way (41_frame_codec.md R80, 40_crc_validator.md R68) -/

/-- In the checksum field the register holds the CRC of the whole declared payload. -/
theorem CodecInv.crcReg_of_ck {s : State} (h : CodecInv s) (hp : s.codec.phase = .ck) :
    s.codec.crcReg = crc16 (s.bytes .pay s.codec.expLen) := by rw [h.crc_eq, h.payCnt_eq (.inr hp)]

/-- Settles O55: by O5 the register and the field differ, so the byte is the mismatch's `ERR`. -/
theorem corruptedPayloadRunsNoHandler : Obligations.CorruptedPayloadRunsNoHandler := by
  intro s p q b b' h hp hc hne hpay hack
  have hm : s.codec.crcReg ≠ s.codec.ckAcc := by
    rw [h.codec.crcReg_of_ck hp, hpay, hack]
    exact crcDetectsOneChangedByte p q b b' hne
  exact ⟨_, execRxByte_mismatch hp hc hm, rfl, rfl, rfl, rfl, _, rfl⟩

/-! ### Whole responses (41_frame_codec.md R81) -/

/-- A message within `MSG_MAX` under a status other than `PENDING` is sent. -/
theorem sendResponse_fits {st : Status} {msg : List Byte} {s : State} (hst : st ≠ .pending) (hl : msg.length ≤ s.cfg.msgMax) :
    sendResponse st msg s = .next (respond st msg s) := by
  rw [sendResponse, if_neg hst, if_neg hl.not_gt]

/-- Settles O19: each of the four is `sendResponse` at its status. -/
theorem responsesAreAppendedWhole : Obligations.ResponsesAreAppendedWhole := by
  intro s msg hl
  have hok : sendResponse .ok msg s = .next (respond .ok msg s) := sendResponse_fits nofun hl
  have herr : sendResponse .err msg s = .next (respond .err msg s) := sendResponse_fits nofun hl
  exact ⟨hok, herr, hok, herr⟩

end Sys2Proof.Machine

/-! SUPPORT. `DISPATCH` by its three answers: the command's own meaning and the two errors (O16 to O18). -/

namespace Sys2Proof.Machine

/-! ### The errors with a response (60_exceptions.md R143) -/

theorem raiseError_of_message {e : FrameError} {msg : List Byte} (he : errorMessage e = some msg) (s : State) :
    raiseError e s = respond .err msg (toHeader s) := by rw [raiseError, he]

/-! ### The dispatcher's checks (42_dispatcher.md R84, R86) -/

/-- The table finds exactly the names of the eight commands. -/
theorem lookupName_eq_none_iff {name : List Byte} : lookupName name = none ↔ ∀ c : CommandName, name ≠ nameBytes c := by
  constructor
  · rintro hnone c rfl
    rw [lookupName_nameBytes] at hnone
    cases hnone
  · intro hne
    cases hn : lookupName name with
    | none => rfl
    | some c => exact absurd (lookupName_eq_some hn) (hne c)

/-- Only `MVEL` and `DIMG` expect a payload. -/
theorem expectedLength_eq_ite (cfg : Config) (c : CommandName) :
    expectedLength cfg c = if c = .mvel then 6 else if c = .dimg then cfg.displayCapacity else 0 := by cases c <;> rfl

theorem execDispatch_unknownName {name : List Byte} (hne : ∀ c : CommandName, name ≠ nameBytes c) (payload : List Byte)
    (s : State) : execDispatch name payload s = .next (raiseError (.unknownCommand name) s) := by
  rw [execDispatch, lookupName_eq_none_iff.2 hne]

theorem execDispatch_wrongLength (c : CommandName) {payload : List Byte} {s : State}
    (hlen : payload.length ≠ expectedLength s.cfg c) :
    execDispatch (nameBytes c) payload s = .next (raiseError (.length (expectedLength s.cfg c) payload.length) s) := by
  rw [execDispatch, lookupName_nameBytes]
  exact if_neg hlen

/-! ### The three answers -/

/-- Settles O18: the dispatcher runs the named command's handler, and it completes from every state. -/
theorem dispatchRunsTheNamedCommand : Obligations.DispatchRunsTheNamedCommand := by
  intro s c payload hlen
  rw [← expectedLength_eq_ite] at hlen
  exact ⟨execDispatch_nameBytes c hlen, execDispatch_completes (nameBytes c) payload s⟩

/-- Settles O16: the error raised is the unknown command's, whose response is M2. -/
theorem unknownNameIsAnsweredErr : Obligations.UnknownNameIsAnsweredErr := by
  intro s name payload hne
  have hx : exec (.dispatch name payload) s = .next (raiseError (.unknownCommand name) s) :=
    execDispatch_unknownName hne payload s
  rw [hx, raiseError_of_message rfl]
  rfl

/-- Settles O17: the error raised is the length's, whose response is M3. -/
theorem wrongLengthIsAnsweredErr : Obligations.WrongLengthIsAnsweredErr := by
  intro s c payload expected hlen
  have hexp : expectedLength s.cfg c = expected := expectedLength_eq_ite s.cfg c
  have hx : exec (.dispatch (nameBytes c) payload) s = .next (raiseError (.length expected payload.length) s) :=
    hexp ▸ execDispatch_wrongLength c (hexp ▸ hlen)
  rw [hx, raiseError_of_message rfl]
  rfl

end Sys2Proof.Machine

/-! SUPPORT. MotorState under the Motor Controller's operations, its logical states, and who writes it (O21, O22, O23, O25, O27, O48). -/

namespace Sys2Proof.Machine

/-! ### The setpoints of an `MVEL` (43_motor_commands.md R89, R90) -/

theorem clampDuty_eq (v : Int) : clampDuty v = max (-255) (min 255 v) := by
  unfold clampDuty; omega

theorem runningFlag_toInt (l r : Word16) : runningFlag l.toInt r.toInt = decide (l ≠ 0 ∨ r ≠ 0) := by
  have hzero (x : Word16) : x.toInt ≠ 0 ↔ x ≠ 0 := not_congr (BitVec.toInt_inj (y := 0))
  simp only [runningFlag, hzero, Bool.decide_or]

theorem duration_pos_iff {d : Word16} : 0 < d.toNat ↔ d ≠ 0 :=
  Nat.pos_iff_ne_zero.trans (not_congr (BitVec.toNat_inj (y := 0)))

theorem deadlineFlag_toNat (d : Word16) : deadlineFlag d.toNat = decide (d ≠ 0) := by
  simp only [deadlineFlag, duration_pos_iff]

/-- Settles O21: the clamp is the `max` of a `min`, and the two flags test the words themselves. -/
theorem mvelSetsTheSetpoints : Obligations.MvelSetsTheSetpoints := by
  intro s l r d
  refine ⟨_, rfl, ?_, fun hd => if_pos (duration_pos_iff.2 hd)⟩
  simp only [respond, txPut, setVelocity, clampDuty_eq, runningFlag_toInt, deadlineFlag_toNat]

/-! ### The stop action (43_motor_commands.md R92 to R94) -/

theorem stopMotors_stopped (s : State) : (stopMotors s).motor.stopped := ⟨rfl, rfl, rfl, rfl⟩

theorem resetMotor_stopped : State.reset.motor.stopped := ⟨rfl, rfl, rfl, rfl⟩

/-- Settles O22: the pins follow the two zero duties. -/
theorem stopActionZeroesTheMotors : Obligations.StopActionZeroesTheMotors := fun s =>
  ⟨_, rfl, stopMotors_stopped s, rfl, rfl, rfl⟩

/-- Settles O23: the second `MSTOP` stops stopped motors. -/
theorem mstopStopsAndIsIdempotent : Obligations.MstopStopsAndIsIdempotent := fun s =>
  ⟨_, _, rfl, stopMotors_stopped s, rfl, rfl, stopMotors_stopped _, rfl⟩

/-! ### The two ticks (43_motor_commands.md R96, 45_system_commands.md R120) -/

theorem timeoutDue_iff {m : Motor} {now : Nat} :
    timeoutDue m now = true ↔ m.running = true ∧ m.deadlineValid = true ∧ m.stopDeadlineMs ≤ now := by
  simp [timeoutDue, and_assoc]

theorem watchdogDue_iff {cfg : Config} {m : Motor} {last now : Nat} :
    watchdogDue cfg m last now = true ↔ m.running = true ∧ cfg.watchdogMs < now - last := by
  simp [watchdogDue]

section
variable {s : State} (henv : s.env = []) (hmode : s.sup.mode = .run) (hidle : s.disp.seq = .idle)
include henv hmode hidle

theorem step_emptyDrain (hl : s.loopPhase = .drain) (hq : s.io.rxQueue = []) : step s = .next { s with loopPhase := .timeout } :=
  step_none (by simp [nextOp_quiet henv, deviceOp, hmode, hidle, hl, hq])

theorem step_timeoutPhase (hl : s.loopPhase = .timeout) : step s = execTickTimeout { s with loopPhase := .watchdog } :=
  step_some (i := .tickTimeout) (by simp [nextOp_quiet henv, deviceOp, hmode, hidle, hl])

theorem step_watchdogPhase (hl : s.loopPhase = .watchdog) : step s = execTickWatchdog { s with loopPhase := .drain } :=
  step_some (i := .tickWatchdog) (by simp [nextOp_quiet henv, deviceOp, hmode, hidle, hl])
end

/-- Settles O25. -/
theorem timeoutTickStopsAtTheDeadline : Obligations.TimeoutTickStopsAtTheDeadline := by
  refine ⟨fun s => ⟨fun hdue => ?_, fun hnot => ?_⟩, fun s henv hmode hidle hl => step_timeoutPhase henv hmode hidle hl⟩
  · have hx : execTickTimeout s = .next (stopMotors s) := by rw [execTickTimeout, if_pos (timeoutDue_iff.2 hdue)]
    exact ⟨_, hx, stopMotors_stopped s, rfl⟩
  · have hx : execTickTimeout s = .next s := by rw [execTickTimeout, if_neg (mt timeoutDue_iff.1 hnot)]
    exact hx

/-! ### What the other operations do to MotorState -/

theorem execDimg_motor {data : List Byte} {s t : State} (h : execDimg data s = .next t) : t.motor = s.motor := by
  rcases execDimg_next h with ⟨-, rfl⟩ | ⟨-, -, rfl⟩ | ⟨-, -, rfl⟩
  · exact raiseError_motor _ s
  · exact raiseError_motor _ s
  · rfl

theorem execDclear_motor {s t : State} (h : execDclear s = .next t) : t.motor = s.motor := by
  rcases withDisplay_next h with ⟨-, rfl⟩ | rfl
  · exact clearDisplay_motor s
  · exact raiseError_motor _ s

theorem execDstatus_motor {s t : State} (h : execDstatus s = .next t) : t.motor = s.motor := by
  rcases withDisplay_next h with ⟨-, rfl⟩ | rfl
  · rfl
  · exact raiseError_motor _ s

theorem execDispStep_motor {s t : State} (h : execDispStep s = .next t) : t.motor = s.motor := by
  rcases execDispStep_next h with
    rfl | ⟨-, rfl⟩ | ⟨-, -, rfl⟩ | ⟨-, -, rfl⟩ | ⟨-, rfl⟩ | ⟨-, -, rfl⟩ | ⟨-, rfl⟩ <;> rfl

theorem execDispReceive_motor {chunk : List Byte} {s t : State} (h : execDispReceive chunk s = .next t) : t.motor = s.motor := by
  rcases execDispReceive_next h with rfl | ⟨-, -, rfl⟩ <;> rfl

/-- Every handler but `MVEL`'s keeps MotorState or leaves the motors stopped. -/
theorem handler_motor {c : CommandName} {payload : List Byte} {s t : State} (hc : c ≠ .mvel)
    (h : handler c payload s = .next t) : t.motor = s.motor ∨ t.motor.stopped := by
  cases c with
  | mvel => exact absurd rfl hc
  | mstop => cases h; exact .inr (stopMotors_stopped s)
  | dimg => exact .inl (execDimg_motor h)
  | dclear => exact .inl (execDclear_motor h)
  | dstatus => exact .inl (execDstatus_motor h)
  | sreset => cases h; exact .inr resetMotor_stopped
  | shalt => cases h; exact .inr (stopMotors_stopped s)
  | sping => cases h; exact .inl rfl

/-- A stop performed on a condition: both ticks. -/
theorem conditionalStop_motor (c : Bool) (s : State) :
    (if c then stopMotors s else s).motor = s.motor ∨ (if c then stopMotors s else s).motor.stopped := by
  cases c with
  | false => exact .inl rfl
  | true => exact .inr (stopMotors_stopped s)

theorem execTickTimeout_motor {s t : State} (h : execTickTimeout s = .next t) : t.motor = s.motor ∨ t.motor.stopped := by
  cases h
  exact conditionalStop_motor _ s

theorem execTickWatchdog_motor {s t : State} (h : execTickWatchdog s = .next t) : t.motor = s.motor ∨ t.motor.stopped := by
  cases h
  exact conditionalStop_motor _ s

/-! ### The logical states (43_motor_commands.md R97, R98) -/

theorem Motor.logic_eq_idle_iff {m : Motor} : m.logic = .idle ↔ m.running = false := by
  cases hr : m.running <;> cases hd : m.deadlineValid <;> simp [Motor.logic, hr, hd]

theorem Motor.logic_eq_timedRun_iff {m : Motor} : m.logic = .timedRun ↔ m.running = true ∧ m.deadlineValid = true := by
  cases hr : m.running <;> cases hd : m.deadlineValid <;> simp [Motor.logic, hr, hd]

theorem Motor.stopped.logic {m : Motor} (h : m.stopped) : m.logic = .idle :=
  have ⟨_, _, hrun, _⟩ := h
  Motor.logic_eq_idle_iff.2 hrun

theorem logic_setVelocity (l r d : Word16) (s : State) : (setVelocity l r d s).motor.logic =
    if l = 0 ∧ r = 0 then .idle else if d = 0 then .indefiniteRun else .timedRun := by
  simp only [Motor.logic, setVelocity_motor, runningFlag_toInt, deadlineFlag_toNat]
  by_cases hspeed : l = 0 ∧ r = 0
  · simp [hspeed]
  · by_cases hd : d = 0 <;> simp [hd, ← not_and_or]

/-- The timeout ends exactly a timed run whose deadline is reached. -/
theorem logic_execTickTimeout {s t : State} (h : execTickTimeout s = .next t) : t.motor.logic =
    if s.motor.logic = .timedRun ∧ s.motor.stopDeadlineMs ≤ s.io.now then .idle else s.motor.logic := by
  have hdue : timeoutDue s.motor s.io.now = true ↔ s.motor.logic = .timedRun ∧ s.motor.stopDeadlineMs ≤ s.io.now := by
    rw [timeoutDue_iff, Motor.logic_eq_timedRun_iff, and_assoc]
  cases h
  simp only [hdue]
  split
  · exact (stopMotors_stopped s).logic
  · rfl

/-- The watchdog ends every run of a silent link; without a run the state is idle already. -/
theorem logic_execTickWatchdog {s t : State} (h : execTickWatchdog s = .next t) : t.motor.logic =
    if s.cfg.watchdogMs < s.io.now - s.sup.lastFrameMs then .idle else s.motor.logic := by
  cases h
  cases hrun : s.motor.running with
  | false =>
    have hidle : s.motor.logic = .idle := Motor.logic_eq_idle_iff.2 hrun
    rw [if_neg (by simp [watchdogDue_iff, hrun]), hidle, ite_self]
  | true =>
    simp only [watchdogDue_iff, hrun, true_and]
    split
    · exact (stopMotors_stopped s).logic
    · rfl

/-- The six operations that stop the motors, the restarts and the reset among them (R98). -/
theorem motor_stopped_of_stopping {i : Instr} {s t : State} (hi : i ∈ [Instr.mstop, .sreset, .shalt, .stopAction, .restart, .reset])
    (h : exec i s = .next t) : t.motor.stopped := by
  simp only [List.mem_cons, List.not_mem_nil, or_false] at hi
  rcases hi with rfl | rfl | rfl | rfl | rfl | rfl <;> cases h
  · exact stopMotors_stopped s
  · exact resetMotor_stopped
  · exact stopMotors_stopped s
  · exact stopMotors_stopped s
  · exact resetMotor_stopped
  · exact resetMotor_stopped

/-- The operations of the other owners keep MotorState. -/
theorem motor_eq_of_otherOwner {i : Instr} {s t : State}
    (hi : i ∈ [Instr.dclear, .dstatus, .sping, .startRefresh, .dispStep, .clearBuffer, .crcInit, .crcCheck])
    (h : exec i s = .next t) : t.motor = s.motor := by
  simp only [List.mem_cons, List.not_mem_nil, or_false] at hi
  rcases hi with rfl | rfl | rfl | rfl | rfl | rfl | rfl | rfl
  · exact execDclear_motor h
  · exact execDstatus_motor h
  · cases h; rfl
  · cases h; rfl
  · exact execDispStep_motor h
  · cases h; exact clearDisplay_motor s
  · cases h; rfl
  · cases h; rfl

/-- Settles O27: the table of R98, row by row. -/
theorem motorLogicTransitions : Obligations.MotorLogicTransitions := by
  intro s
  refine ⟨fun l r d t h => ?_, fun i t hi h => (motor_stopped_of_stopping hi h).logic, fun t h => logic_execTickTimeout h,
    fun t h => logic_execTickWatchdog h, fun i t hi h => congrArg _ (motor_eq_of_otherOwner hi h), fun data t h => ?_⟩
  · cases h
    exact logic_setVelocity l r d s
  · rcases h with h | h
    · exact congrArg _ (execDimg_motor h)
    · exact congrArg _ (execDispReceive_motor h)

/-! ### Who writes MotorState (43_motor_commands.md R95) -/

/-- The dispatcher changes MotorState only by a stop or by an `MVEL` of six bytes. -/
theorem execDispatch_motor {name payload : List Byte} {s t : State} (h : execDispatch name payload s = .next t) :
    t.motor = s.motor ∨ t.motor.stopped ∨ (name = nameBytes .mvel ∧ payload.length = 6) := by
  rcases execDispatch_cases name payload s with ⟨-, hd⟩ | ⟨c, -, -, hd⟩ | ⟨c, hname, hlen, hd⟩ <;> rw [hd] at h
  · cases h; exact .inl (raiseError_motor _ s)
  · cases h; exact .inl (raiseError_motor _ s)
  · by_cases hc : c = .mvel
    · subst hc
      exact .inr (.inr ⟨lookupName_eq_some hname, hlen⟩)
    · exact (handler_motor hc h).imp_right .inl

/-- A byte that changes MotorState is the `TERM` of a complete checksum field that matches: every other byte touches the codec only,
and a mismatch only raises its error. -/
theorem execRxByte_completes_of_motor_ne {b : Byte} {s t : State} (h : execRxByte b s = .next t) (hne : t.motor ≠ s.motor) :
    b = term ∧ s.codec.phase = .ck ∧ s.codec.ckCnt = 4 ∧ s.codec.crcReg = s.codec.ckAcc := by
  by_contra hno
  by_cases hdone : s.codec.phase = .ck ∧ b = term ∧ s.codec.ckCnt = 4
  · obtain ⟨hp, rfl, hc⟩ := hdone
    cases (execRxByte_mismatch hp hc fun hm => hno ⟨rfl, hp, hc, hm⟩).symm.trans h
    exact hne rfl
  · have ht : t = { s with codec := t.codec } := execRxByte_local h hdone
    exact hne (by rw [ht])

/-- `RX_BYTE` changes MotorState only by a stop or at an `MVEL` of six bytes. -/
theorem execRxByte_motor {b : Byte} {s t : State} (h : execRxByte b s = .next t) :
    t.motor = s.motor ∨ t.motor.stopped ∨ (s.codec.cmdName = nameBytes .mvel ∧ s.codec.expLen = 6) := by
  rcases execRxByte_next h with ⟨c, rfl⟩ | ⟨e, rfl⟩ | hd
  · exact .inl rfl
  · exact .inl (raiseError_motor e s)
  · have hx := execDispatch_motor hd
    rwa [bytes_length] at hx

/-- The loop selects `RX_BYTE` on the device agent's turn in the drain phase, for the byte at the head of the queue
(46_polling_loop.md R124). -/
theorem nextOp_rxByte {b : Byte} {s u : State} (h : nextOp s = (some (.rxByte b), u)) :
    ∃ rest q, ((s.env = [] ∧ rest = []) ∨ s.env = .device :: rest) ∧ s.sup.mode = .run ∧ s.disp.seq = .idle ∧
      s.loopPhase = .drain ∧ s.io.rxQueue = b :: q ∧ u = { s with env := rest, io.rxQueue := q } := by
  rcases nextOp_cases s with ⟨rest, henv, ho⟩ | ⟨_, _, -, ho⟩ | ⟨_, _, -, ho⟩ | ⟨_, _, -, ho⟩ | ⟨_, _, -, ho⟩ | ⟨_, -, ho⟩ <;>
    rw [ho] at h
  · rcases deviceOp_cases { s with env := rest } with
      ⟨-, hd⟩ | ⟨-, -, hd⟩ | ⟨-, -, -, -, hd⟩ | ⟨_, q, hm, hq, hl, hr, hd⟩ | ⟨-, -, -, hd⟩ | ⟨-, -, -, hd⟩ <;>
      rw [hd] at h <;> cases h
    exact ⟨rest, q, henv, hm, hq, hl, hr, rfl⟩
  all_goals cases h

/-- The state is at a hand-off when the loop takes a `TERM` that completes a matching checksum field. -/
theorem atHandOff_of_nextOp {s u : State} (h : nextOp s = (some (.rxByte term), u)) (hp : u.codec.phase = .ck)
    (hc : u.codec.ckCnt = 4) (hm : u.codec.crcReg = u.codec.ckAcc) : AtHandOff s := by
  obtain ⟨rest, q, henv, hmode, hidle, hdrain, hr, rfl⟩ := nextOp_rxByte h
  exact
    { device := henv.imp And.left fun he => ⟨rest, he⟩
      mode := hmode, seq := hidle, loopPhase := hdrain
      byte := by rw [hr, List.head?_cons]
      phase := hp, ckCnt := hc, crc := hm }

theorem deviceOp_motor (s : State) : (deviceOp s).2.motor = s.motor := by
  rcases deviceOp_cases s with
    ⟨-, ho⟩ | ⟨-, -, ho⟩ | ⟨-, -, -, -, ho⟩ | ⟨_, _, -, -, -, -, ho⟩ | ⟨-, -, -, ho⟩ | ⟨-, -, -, ho⟩ <;> rw [ho]

theorem nextOp_motor (s : State) : (nextOp s).2.motor = s.motor := by
  rcases nextOp_cases s with ⟨_, -, ho⟩ | ⟨_, _, -, ho⟩ | ⟨_, _, -, ho⟩ | ⟨_, _, -, ho⟩ | ⟨_, _, -, ho⟩ | ⟨_, -, ho⟩ <;> rw [ho]
  exact deviceOp_motor _

/-- Settles O48: no sequencer's or environment's move writes MotorState, and of the operations a step selects only `RX_BYTE` can do
more than stop the motors: at a hand-off, through the dispatcher. -/
theorem onlyMvelStartsTheMotors : Obligations.OnlyMvelStartsTheMotors := by
  intro s t h hne
  have hmotor : (nextOp s).2.motor = s.motor := nextOp_motor s
  rcases ho : nextOp s with ⟨_ | i, u⟩ <;> rw [ho] at hmotor <;> rw [← hmotor] at hne
  · rw [step_none ho] at h
    cases h
    exact absurd rfl hne
  · rw [step_some ho] at h
    cases nextOp_selected ho with
    | dispStep => exact absurd (execDispStep_motor h) hne
    | rxByte b =>
      obtain ⟨rfl, hp, hc, hm⟩ := execRxByte_completes_of_motor_ne h hne
      have hhand : AtHandOff s := atHandOff_of_nextOp ho hp hc hm
      obtain ⟨_, _, -, -, -, -, -, rfl⟩ := nextOp_rxByte ho
      exact ((execRxByte_motor h).resolve_left hne).imp_right fun hmvel => ⟨hhand, hmvel⟩
    | tickTimeout => exact .inl ((execTickTimeout_motor h).resolve_left hne)
    | tickWatchdog => exact .inl ((execTickWatchdog_motor h).resolve_left hne)
    | dispReceive => exact absurd (execDispReceive_motor h) hne
    | reset => cases h; exact .inl resetMotor_stopped

end Sys2Proof.Machine

/-! SUPPORT. One iteration of a quiet loop and the stops due in it (O53). -/

namespace Sys2Proof.Machine

/-- The order of the loop's phases (46_polling_loop.md R123 to R126, with nothing queued). -/
def LoopPhase.next : LoopPhase → LoopPhase
  | .drain => .timeout
  | .timeout => .watchdog
  | .watchdog => .drain

/-- Three phases make one iteration. -/
theorem LoopPhase.next_next_next (p : LoopPhase) : p.next.next.next = p := by cases p <;> rfl

/-- The running loop with nothing scheduled, nothing queued and no refresh. -/
structure QuietLoop (s : State) : Prop where
  env : s.env = []
  mode : s.sup.mode = .run
  seq : s.disp.seq = .idle
  queue : s.io.rxQueue = []

/-- The stop the device performs in a phase is due: the timeout's (43_motor_commands.md R96) or the watchdog's
(45_system_commands.md R120). -/
def stopDue (p : LoopPhase) (s : State) : Bool :=
  match p with
  | .drain => false
  | .timeout => timeoutDue s.motor s.io.now
  | .watchdog => watchdogDue s.cfg s.motor s.sup.lastFrameMs s.io.now

/-- The quiet loop's step moves to the next phase and performs the phase's stop exactly when it is due. -/
theorem step_quietLoop {s : State} (h : QuietLoop s) :
    step s = .next (if stopDue s.loopPhase s then stopMotors { s with loopPhase := s.loopPhase.next }
      else { s with loopPhase := s.loopPhase.next }) := by
  obtain ⟨henv, hmode, hidle, hqueue⟩ := h
  cases hl : s.loopPhase with
  | drain => exact step_emptyDrain henv hmode hidle hl hqueue
  | timeout => exact step_timeoutPhase henv hmode hidle hl
  | watchdog => exact step_watchdogPhase henv hmode hidle hl

/-- The quiet loop's step writes nothing but MotorState and the phase, and leaves the motors stopped or MotorState as it was with
no stop due. -/
theorem step_quietLoop_motor {s : State} (h : QuietLoop s) :
    ∃ m, step s = .next { s with motor := m, loopPhase := s.loopPhase.next } ∧
      (m.stopped ∨ (m = s.motor ∧ stopDue s.loopPhase s = false)) := by
  rw [step_quietLoop h]
  cases hdue : stopDue s.loopPhase s with
  | true => exact ⟨_, rfl, .inl (stopMotors_stopped s)⟩
  | false => exact ⟨_, rfl, .inr ⟨rfl, rfl⟩⟩

/-- Whichever stop is due is due in one of any three consecutive phases. -/
theorem stopDue_within_iteration {s : State} (hrun : s.motor.running = true)
    (hdue : s.cfg.watchdogMs < s.io.now - s.sup.lastFrameMs ∨
      (s.motor.deadlineValid = true ∧ s.motor.stopDeadlineMs ≤ s.io.now)) (p : LoopPhase) :
    stopDue p s = true ∨ stopDue p.next s = true ∨ stopDue p.next.next s = true := by
  have hphase : stopDue .watchdog s = true ∨ stopDue .timeout s = true :=
    hdue.imp (fun hsilent => watchdogDue_iff.2 ⟨hrun, hsilent⟩) fun hdeadline => timeoutDue_iff.2 ⟨hrun, hdeadline⟩
  cases p <;> simp only [LoopPhase.next] <;> tauto

/-- Settles O53: MotorState stays as it is until a phase stops the motors, and one of the three phases does. -/
theorem dueStopsHappenWithinAnIteration : Obligations.DueStopsHappenWithinAnIteration := by
  intro s henv hmode hidle hqueue hrun hdue
  obtain ⟨m₁, h₁, k₁⟩ := step_quietLoop_motor (s := s) ⟨henv, hmode, hidle, hqueue⟩
  obtain ⟨m₂, h₂, k₂⟩ := step_quietLoop_motor
    (s := { s with motor := m₁, loopPhase := s.loopPhase.next }) ⟨henv, hmode, hidle, hqueue⟩
  obtain ⟨m₃, h₃, k₃⟩ := step_quietLoop_motor
    (s := { s with motor := m₂, loopPhase := s.loopPhase.next.next }) ⟨henv, hmode, hidle, hqueue⟩
  refine ⟨_, (run_succ h₁).trans ((run_succ h₂).trans ((run_one _).trans h₃)), ?_, rfl, rfl, s.loopPhase.next_next_next⟩
  rcases k₃ with hstop | ⟨rfl, hno₃⟩
  · exact hstop
  rcases k₂ with hstop | ⟨rfl, hno₂⟩
  · exact hstop
  rcases k₁ with hstop | ⟨rfl, hno₁⟩
  · exact hstop
  rcases stopDue_within_iteration hrun hdue s.loopPhase with hd | hd | hd
  · cases hno₁.symm.trans hd
  · cases hno₂.symm.trans hd
  · cases hno₃.symm.trans hd

end Sys2Proof.Machine

/-! SUPPORT. The display adjunct: the display commands and the portal's fill by case (O28 to O30, O32), the refresh step by step,
its hang, and what it blocks (O31, O33, O34, O52). -/

namespace Sys2Proof.Machine

/-! ### A string stored in a buffer, read back -/

/-- A state with a string stored in one canonical buffer reads the string there, and every other byte of that buffer as before. -/
theorem readByte_memWriteN {s t : State} {sp : Space} {a : Nat} {bs : List Byte} (hwf : Mem.wf (unlisted s.cfg sp) (s.mem sp))
    (hcfg : t.cfg = s.cfg) (hmem : t.mem sp = memWriteN (unlisted s.cfg sp) (s.mem sp) a bs) :
    (∀ i, i < bs.length → t.readByte sp (a + i) = bs.getD i 0) ∧
    ∀ x, (x < a ∨ a + bs.length ≤ x) → t.readByte sp x = s.readByte sp x := by
  refine ⟨fun i hi => ?_, fun x hx => ?_⟩
  · rw [State.readByte, hcfg, hmem, memRead_memWriteN hwf hi]
  · rw [State.readByte, State.readByte, hcfg, hmem, memRead_memWriteN_ne hx]

/-- A buffer that reads as a string byte by byte holds the string. -/
theorem bytes_eq_of_readByte {s : State} {sp : Space} {p : List Byte}
    (h : ∀ i, i < p.length → s.readByte sp i = p.getD i 0) : s.bytes sp p.length = p := by
  refine List.ext_getElem (bytes_length _ _ _) fun i hi hi' => ?_
  have hread := h i hi'
  rw [List.getD_eq_getElem _ _ hi'] at hread
  simpa [State.bytes] using hread

/-! ### The null-guard (44_display_commands.md R104) -/

theorem withDisplay_present {s : State} (hp : s.cfg.displayPresent = true) (k : Result) : withDisplay s k = k := if_pos hp

theorem withDisplay_absent {s : State} (hp : s.cfg.displayPresent = false) (k : Result) :
    withDisplay s k = .next (raiseError .displayUnavailable s) := by simp [withDisplay, hp]

theorem capacity_disp_of_present {cfg : Config} (hp : cfg.displayPresent = true) : capacity cfg .disp = cfg.displayCapacity :=
  if_pos hp

/-! ### `DIMG` (44_display_commands.md R101) -/

theorem execDimg_wrongLength {data : List Byte} {s : State} (hl : data.length ≠ s.cfg.displayCapacity) :
    execDimg data s = .next (raiseError (.length s.cfg.displayCapacity data.length) s) := if_pos hl

theorem execDimg_absent {data : List Byte} {s : State} (hl : data.length = s.cfg.displayCapacity)
    (hp : s.cfg.displayPresent = false) : execDimg data s = .next (raiseError .displayUnavailable s) := by
  rw [execDimg, if_neg (not_not.2 hl), withDisplay_absent hp]

/-- The state after an accepted `DIMG`. -/
def withImage (data : List Byte) (s : State) : State :=
  { s with disp :=
    { buf := memWriteN s.cfg.blankByte s.disp.buf 0 data, cursor := s.cfg.displayCapacity, ready := true, seq := .reset } }

theorem execDimg_image {data : List Byte} {s : State} (hl : data.length = s.cfg.displayCapacity)
    (hp : s.cfg.displayPresent = true) : execDimg data s = .next (withImage data s) := by
  have hfit : 0 + data.length ≤ capacity s.cfg .disp := by rw [capacity_disp_of_present hp, hl, Nat.zero_add]
  rw [execDimg, if_neg (not_not.2 hl), withDisplay_present hp, writeThen_eq hfit]
  rfl

/-- Settles O28: the image is stored from index 0, so the buffer holds it and keeps its bytes above it. -/
theorem dimgReplacesTheImage : Obligations.DimgReplacesTheImage := by
  intro s data hbuf
  refine ⟨execDimg_wrongLength, execDimg_absent, fun hl hp => ⟨_, execDimg_image hl hp, rfl, ?_⟩⟩
  obtain ⟨hin, hout⟩ := readByte_memWriteN (t := withImage data s) (sp := .disp) (hbuf.wf .disp) rfl rfl
  have hbytes : (withImage data s).bytes .disp data.length = data :=
    bytes_eq_of_readByte fun i hi => by simpa using hin i hi
  exact ⟨hl ▸ hbytes, fun a ha => hout a (.inr (by omega))⟩

/-! ### `DISP_RECEIVE` (44_display_commands.md R111) -/

theorem receiveAccepted_iff {s : State} :
    receiveAccepted s = true ↔ s.sup.mode = .run ∧ s.disp.seq = .idle ∧ s.cfg.displayPresent = true := by
  simp [receiveAccepted, and_assoc]

theorem execDispReceive_notAccepted {s : State}
    (hn : s.sup.mode ≠ .run ∨ s.disp.seq ≠ .idle ∨ s.cfg.displayPresent = false) (chunk : List Byte) :
    execDispReceive chunk s = .next s := by
  have hnot : ¬receiveAccepted s = true := by
    rw [receiveAccepted_iff]
    rintro ⟨hmode, hidle, hp⟩
    simp [hmode, hidle, hp] at hn
  exact if_neg hnot

/-- The part of a chunk that is stored (44_display_commands.md R111). -/
def storedPart (chunk : List Byte) (s : State) : List Byte := chunk.take (receiveCount chunk s)

theorem storedPart_length (chunk : List Byte) (s : State) : (storedPart chunk s).length = receiveCount chunk s := by
  simp [storedPart, receiveCount]

theorem storedPart_getD {chunk : List Byte} {s : State} {i : Nat} (hi : i < receiveCount chunk s) :
    (storedPart chunk s).getD i 0 = chunk.getD i 0 := by
  simp [storedPart, List.getD_eq_getElem?_getD, List.getElem?_take_of_lt hi]

/-- The state after an accepted fill. -/
def filled (chunk : List Byte) (s : State) : State :=
  { s with disp :=
    { buf := memWriteN s.cfg.blankByte s.disp.buf s.disp.cursor (storedPart chunk s)
      cursor := s.disp.cursor + receiveCount chunk s
      ready := readyFlag s.cfg.displayCapacity (s.disp.cursor + receiveCount chunk s) s.disp.ready
      seq := s.disp.seq } }

theorem execDispReceive_accepted {s : State} (ha : receiveAccepted s = true) (hc : s.disp.cursor ≤ s.cfg.displayCapacity)
    (chunk : List Byte) : execDispReceive chunk s = .next (filled chunk s) := by
  obtain ⟨-, -, hp⟩ := receiveAccepted_iff.1 ha
  have hfit : s.disp.cursor + (storedPart chunk s).length ≤ capacity s.cfg .disp := by
    rw [capacity_disp_of_present hp, storedPart_length, receiveCount]
    omega
  rw [execDispReceive, if_pos ha]
  exact writeThen_eq hfit _

/-- Settles O32: an accepted call stores the part of the chunk that fits, from the cursor on. -/
theorem dispReceiveFillsFromTheCursor : Obligations.DispReceiveFillsFromTheCursor := by
  intro s chunk hbuf
  refine ⟨fun hmode hidle hp hc => ?_, fun hnot => execDispReceive_notAccepted hnot chunk⟩
  obtain ⟨hin, hout⟩ := readByte_memWriteN (t := filled chunk s) (sp := .disp) (hbuf.wf .disp) rfl rfl
  rw [storedPart_length] at hin hout
  exact ⟨_, execDispReceive_accepted (receiveAccepted_iff.2 ⟨hmode, hidle, hp⟩) hc chunk, rfl,
    fun i hi => (hin i hi).trans (storedPart_getD hi), hout⟩

/-! ### `DCLEAR`, `CLEAR_BUFFER`, `DSTATUS` (44_display_commands.md R102, R103, R113) -/

theorem clearDisplay_present {s : State} (hp : s.cfg.displayPresent = true) :
    clearDisplay s = { s with disp := { buf := [], cursor := 0, ready := false, seq := s.disp.seq } } := if_pos hp

theorem clearDisplay_absent {s : State} (hp : s.cfg.displayPresent = false) : clearDisplay s = s := by
  simp [clearDisplay, hp]

theorem execDclear_present {s : State} (hp : s.cfg.displayPresent = true) :
    execDclear s = .next { s with disp := { buf := [], cursor := 0, ready := false, seq := .reset } } := by
  rw [execDclear, withDisplay_present hp, clearDisplay_present hp]
  rfl

/-- Settles O29: a cleared buffer lists nothing, and an unlisted byte of it reads blank. -/
theorem dclearBlanksAndRefreshes : Obligations.DclearBlanksAndRefreshes := by
  intro s
  have hclear {u : State} (hx : clearDisplay s = u) : exec .clearBuffer s = .next u := congrArg Host.Outcome.next hx
  exact ⟨fun hp => ⟨_, execDclear_present hp, rfl, fun _ => rfl⟩, fun hp => withDisplay_absent hp _,
    fun hp => ⟨_, hclear (clearDisplay_present hp), rfl, fun _ => rfl⟩, fun hp => hclear (clearDisplay_absent hp), rfl⟩

/-- Settles O30: the guard passes or raises its error; the text of the flag is read off the flag. -/
theorem dstatusReportsTheFill : Obligations.DstatusReportsTheFill := by
  intro s
  refine ⟨fun hp => ?_, fun hp => withDisplay_absent hp _⟩
  have hx : exec .dstatus s = .next (respond .ok (msgStatus s.disp.cursor s.disp.ready) s) := withDisplay_present hp _
  rw [hx]
  cases s.disp.ready <;> rfl

/-! ### `DISP_STEP` by the state of the sequence (44_display_commands.md R107, R108, R110) -/

section
variable {s : State}

theorem execDispStep_idle (hq : s.disp.seq = .idle) : execDispStep s = .next s := by rw [execDispStep, hq]

theorem execDispStep_reset (hq : s.disp.seq = .reset) :
    execDispStep s = .next (setSeq .waitBusy (panelPut [.reset] s)) := by rw [execDispStep, hq]

theorem execDispStep_waitBusy (hq : s.disp.seq = .waitBusy) : execDispStep s = waitPanel .write s := by rw [execDispStep, hq]

theorem execDispStep_write (hq : s.disp.seq = .write) (hp : s.cfg.displayPresent = true) :
    execDispStep s = .next (setSeq .refresh (panelPut [.init, .data (s.bytes .disp s.cfg.displayCapacity)] s)) := by
  rw [execDispStep, hq]
  exact readThen_zero (capacity_disp_of_present hp).ge _

theorem execDispStep_refresh (hq : s.disp.seq = .refresh) :
    execDispStep s = .next (setSeq .waitDone (panelPut [.refresh] s)) := by rw [execDispStep, hq]

theorem execDispStep_waitDone (hq : s.disp.seq = .waitDone) : execDispStep s = waitPanel .sleep s := by rw [execDispStep, hq]

theorem execDispStep_sleep (hq : s.disp.seq = .sleep) :
    execDispStep s = .next (respond .ok msgEmpty (setSeq .idle (panelPut [.sleep] s))) := by rw [execDispStep, hq]

theorem panelPut_nil (s : State) : panelPut [] s = s := by simp [panelPut]

/-- A waiting state left puts no action. -/
theorem waitPanel_free (q : DispState) (hb : s.io.panelBusy = false) : waitPanel q s = .next (setSeq q (panelPut [] s)) := by
  rw [panelPut_nil]
  simp [waitPanel, hb]

theorem waitPanel_busy (q : DispState) (hb : s.io.panelBusy = true) : waitPanel q s = .next s := by simp [waitPanel, hb]

end

/-- The sequence moved to `q` with the actions `as` put, the form in which the statements give the rows of R107. -/
def refreshAt (as : List PanelAction) (q : DispState) (s : State) : State :=
  { s with disp.seq := q, io.panelStream := s.io.panelStream ++ as }

theorem waitPanel_eq_ite (q : DispState) (s : State) :
    waitPanel q s = .next (if s.io.panelBusy = true then s else refreshAt [] q s) := by
  cases hb : s.io.panelBusy with
  | true => exact waitPanel_busy q hb
  | false => exact waitPanel_free q hb

/-- Settles O31: one equation of `DISP_STEP` a state. -/
theorem refreshStepsInOrder : Obligations.RefreshStepsInOrder := fun s =>
  ⟨execDispStep_reset, fun hq => (execDispStep_waitBusy hq).trans (waitPanel_eq_ite .write s), execDispStep_write,
    execDispStep_refresh, fun hq => (execDispStep_waitDone hq).trans (waitPanel_eq_ite .sleep s), execDispStep_sleep,
    execDispStep_idle⟩

/-! ### The refresh as the device runs it (46_polling_loop.md R127) -/

theorem deviceOp_refreshing {s : State} (hmode : s.sup.mode = .run) (hne : s.disp.seq ≠ .idle) :
    deviceOp s = (some .dispStep, s) := by simp [deviceOp, hmode, hne]

theorem step_refreshing {s : State} (henv : s.env = []) (hmode : s.sup.mode = .run) (hne : s.disp.seq ≠ .idle) :
    step s = execDispStep s :=
  step_some (i := .dispStep) ((nextOp_quiet henv).trans (deviceOp_refreshing hmode hne))

theorem setSeq_panelPut_refreshAt (as bs : List PanelAction) (q r : DispState) (s : State) :
    setSeq r (panelPut bs (refreshAt as q s)) = refreshAt (as ++ bs) r s := by
  simp [setSeq, panelPut, refreshAt, List.append_assoc]

theorem step_refreshAt {as : List PanelAction} {q : DispState} {s : State} (henv : s.env = []) (hmode : s.sup.mode = .run)
    (hne : q ≠ .idle) : step (refreshAt as q s) = execDispStep (refreshAt as q s) :=
  step_refreshing (s := refreshAt as q s) henv hmode hne

/-- A run of the refresh goes on after a row of R107 with the row's actions put. -/
theorem run_refreshAt {k : Nat} {as bs : List PanelAction} {q r : DispState} {s : State} (henv : s.env = [])
    (hmode : s.sup.mode = .run) (hne : q ≠ .idle)
    (hx : execDispStep (refreshAt as q s) = .next (setSeq r (panelPut bs (refreshAt as q s)))) :
    runSteps (k + 1) (refreshAt as q s) = runSteps k (refreshAt (as ++ bs) r s) := by
  rw [setSeq_panelPut_refreshAt] at hx
  exact run_succ ((step_refreshAt henv hmode hne).trans hx)

/-- The action that sends the whole buffer as it stands. -/
def imageData (s : State) : PanelAction := .data (s.bytes .disp s.cfg.displayCapacity)

/-- Settles O33: the six rows of R107 one after the other, each waiting state left at once. -/
theorem refreshRunsToItsResponse : Obligations.RefreshRunsToItsResponse := by
  intro s henv hmode hq hp hb
  have hstart : s = refreshAt [] .reset s := by simp [refreshAt, ← hq]
  calc runSteps 6 s
    _ = runSteps 6 (refreshAt [] .reset s) := congrArg (runSteps 6) hstart
    _ = runSteps 5 (refreshAt [.reset] .waitBusy s) := run_refreshAt henv hmode nofun (execDispStep_reset rfl)
    _ = runSteps 4 (refreshAt [.reset] .write s) :=
      run_refreshAt henv hmode nofun ((execDispStep_waitBusy rfl).trans (waitPanel_free .write hb))
    _ = runSteps 3 (refreshAt [.reset, .init, imageData s] .refresh s) :=
      run_refreshAt henv hmode nofun (execDispStep_write rfl hp)
    _ = runSteps 2 (refreshAt [.reset, .init, imageData s, .refresh] .waitDone s) :=
      run_refreshAt henv hmode nofun (execDispStep_refresh rfl)
    _ = runSteps 1 (refreshAt [.reset, .init, imageData s, .refresh] .sleep s) :=
      run_refreshAt henv hmode nofun ((execDispStep_waitDone rfl).trans (waitPanel_free .sleep hb))
    _ = .next (respond .ok msgEmpty (refreshAt [.reset, .init, imageData s, .refresh, .sleep] .idle s)) := by
      rw [run_one, step_refreshAt (q := .sleep) henv hmode nofun, execDispStep_sleep rfl, setSeq_panelPut_refreshAt]
      rfl

/-- A device that waits for a busy panel has no enabled step, running or halted. -/
theorem step_busyWait {s : State} (henv : s.env = []) (hq : s.disp.seq = .waitBusy ∨ s.disp.seq = .waitDone)
    (hb : s.io.panelBusy = true) : step s = .next s := by
  cases hmode : s.sup.mode with
  | halted => exact step_none (by simp [nextOp_quiet henv, deviceOp, hmode])
  | run =>
    rcases hq with hq | hq
    · rw [step_refreshing henv hmode (by simp [hq]), execDispStep_waitBusy hq, waitPanel_busy _ hb]
    · rw [step_refreshing henv hmode (by simp [hq]), execDispStep_waitDone hq, waitPanel_busy _ hb]

/-- Settles O34, by induction on the number of steps. -/
theorem busyPanelHangs : Obligations.BusyPanelHangs := by
  intro k s henv hq hb
  induction k with
  | zero => rfl
  | succ k ih => rw [run_succ (step_busyWait henv hq hb), ih]

/-! ### What a refresh blocks (44_display_commands.md R109) -/

/-- From `s` to `t` no queued byte is read, and no register is written but the state of the refresh sequence. -/
structure ServiceBlocked (s t : State) : Prop where
  codec : t.codec = s.codec
  motor : t.motor = s.motor
  sup : t.sup = s.sup
  loopPhase : t.loopPhase = s.loopPhase
  disp : t.disp = { s.disp with seq := t.disp.seq }
  queue : s.io.rxQueue <+: t.io.rxQueue

theorem serviceBlocked_dispStep {s t : State} (h : execDispStep s = .next t) : ServiceBlocked s t := by
  rcases execDispStep_next h with
    rfl | ⟨-, rfl⟩ | ⟨-, -, rfl⟩ | ⟨-, -, rfl⟩ | ⟨-, rfl⟩ | ⟨-, -, rfl⟩ | ⟨-, rfl⟩ <;>
    exact ⟨rfl, rfl, rfl, rfl, rfl, List.prefix_rfl⟩

/-- A move of the inputs that at most adds to the queue. -/
theorem serviceBlocked_inputs (s : State) {io : Ports} (env : List EnvStep) (hq : s.io.rxQueue <+: io.rxQueue) :
    ServiceBlocked s { s with io := io, env := env } := ⟨rfl, rfl, rfl, rfl, rfl, hq⟩

/-- While a refresh runs the device performs `DISP_STEP`, the portal's chunk is not accepted, and the other environment steps
move inputs only. -/
theorem serviceBlocked_step {s t : State} (hmode : s.sup.mode = .run) (hne : s.disp.seq ≠ .idle)
    (hreset : ∀ rest, s.env ≠ .extReset :: rest) (h : step s = .next t) : ServiceBlocked s t := by
  rcases nextOp_cases s with
    ⟨rest, -, ho⟩ | ⟨bs, rest, -, ho⟩ | ⟨ms, rest, -, ho⟩ | ⟨b, rest, -, ho⟩ | ⟨c, rest, -, ho⟩ | ⟨rest, he, -⟩
  · rw [step_some (ho.trans (deviceOp_refreshing hmode hne))] at h
    obtain ⟨hcodec, hmotor, hsup, hloop, hdisp, hqueue⟩ := serviceBlocked_dispStep h
    exact ⟨hcodec, hmotor, hsup, hloop, hdisp, hqueue⟩
  · cases (step_none ho).symm.trans h
    exact serviceBlocked_inputs s rest (List.prefix_append _ bs)
  · cases (step_none ho).symm.trans h
    exact serviceBlocked_inputs s rest List.prefix_rfl
  · cases (step_none ho).symm.trans h
    exact serviceBlocked_inputs s rest List.prefix_rfl
  · have hx : step s = .next { s with env := rest } :=
      (step_some ho).trans (execDispReceive_notAccepted (s := { s with env := rest }) (.inr (.inl hne)) c)
    cases hx.symm.trans h
    exact serviceBlocked_inputs s rest List.prefix_rfl
  · exact absurd he (hreset rest)

/-- Settles O52: every choice of who moves next blocks the service, the external reset excluded. -/
theorem refreshBlocksAllService : Obligations.RefreshBlocksAllService := by
  intro s t hmode hne hreset h
  obtain ⟨hcodec, hmotor, hsup, hloop, hdisp, hqueue⟩ := serviceBlocked_step hmode hne hreset h
  exact ⟨hcodec, hmotor, hsup, hloop, hdisp, hqueue⟩

end Sys2Proof.Machine

/-! SUPPORT. The System Supervisor: its commands and the watchdog tick (O26, O35 to O38), who writes the watchdog's reference time
(O49), and the halted device (O50). -/

namespace Sys2Proof.Machine

/-! ### A halted device (45_system_commands.md R117) -/

/-- From `s` to `t` at most the script is consumed, bytes are queued, the clock moves and the panel's level changes: nothing the
device writes. -/
structure OnlyInputsMove (s t : State) : Prop where
  eq : t = { s with
    env := t.env, io := { s.io with rxQueue := t.io.rxQueue, now := t.io.now, panelBusy := t.io.panelBusy } }
  queue : s.io.rxQueue <+: t.io.rxQueue

namespace OnlyInputsMove

/-- The environment's moves on the inputs, the script consumed with them. -/
theorem of_inputs (s : State) (env : List EnvStep) {q : List Byte} (now : Nat) (busy : Bool) (hq : s.io.rxQueue <+: q) :
    OnlyInputsMove s { s with env := env, io := { s.io with rxQueue := q, now := now, panelBusy := busy } } := ⟨rfl, hq⟩

theorem of_env (s : State) (env : List EnvStep) : OnlyInputsMove s { s with env := env } :=
  of_inputs s env s.io.now s.io.panelBusy List.prefix_rfl

theorem trans {s t u : State} (h : OnlyInputsMove s t) (k : OnlyInputsMove t u) : OnlyInputsMove s u where
  eq := k.eq.trans (by rw [h.eq])
  queue := h.queue.trans k.queue

theorem sup {s t : State} (h : OnlyInputsMove s t) : t.sup = s.sup := by rw [h.eq]

end OnlyInputsMove

/-- Asleep, the device takes no step, the portal's chunk is not accepted, and the other environment steps move inputs only. -/
theorem step_halted {s : State} (hmode : s.sup.mode = .halted) (hreset : .extReset ∉ s.env) :
    ∃ t, step s = .next t ∧ OnlyInputsMove s t := by
  rcases nextOp_cases s with
    ⟨rest, -, ho⟩ | ⟨bs, rest, -, ho⟩ | ⟨ms, rest, -, ho⟩ | ⟨busy, rest, -, ho⟩ | ⟨chunk, rest, -, ho⟩ | ⟨rest, henv, -⟩
  · have hd : deviceOp { s with env := rest } = (none, { s with env := rest }) := if_pos hmode
    exact ⟨_, step_none (ho.trans hd), .of_env s rest⟩
  · exact ⟨_, step_none ho, .of_inputs s rest s.io.now s.io.panelBusy (List.prefix_append _ bs)⟩
  · exact ⟨_, step_none ho, .of_inputs s rest (s.io.now + ms) s.io.panelBusy List.prefix_rfl⟩
  · exact ⟨_, step_none ho, .of_inputs s rest s.io.now busy List.prefix_rfl⟩
  · have hnot : ({ s with env := rest } : State).sup.mode ≠ .run := by simp [hmode]
    exact ⟨_, (step_some ho).trans (execDispReceive_notAccepted (.inl hnot) chunk), .of_env s rest⟩
  · exact absurd (henv ▸ List.mem_cons_self) hreset

/-- Settles O50, by induction on the number of steps: each step of a halted device leaves it halted, with less of the same script. -/
theorem haltedUntilExternalReset : Obligations.HaltedUntilExternalReset := by
  intro k s hmode hreset
  suffices hrun : ∃ t, runSteps k s = .next t ∧ OnlyInputsMove s t by
    obtain ⟨t, ht, heq, hqueue⟩ := hrun
    exact ⟨t, ht, heq, hqueue⟩
  induction k generalizing s with
  | zero => exact ⟨s, rfl, .of_env s s.env⟩
  | succ k ih =>
    obtain ⟨u, hstep, hmove⟩ := step_halted hmode hreset
    have henv : u.env = s.env.tail := (Grows.step hstep).env
    obtain ⟨t, hrun, hmoves⟩ := ih u (hmove.sup ▸ hmode) fun hmem => hreset (List.mem_of_mem_tail (henv ▸ hmem))
    exact ⟨t, (run_succ hstep).trans hrun, hmove.trans hmoves⟩

/-! ### Who writes the watchdog's reference time (45_system_commands.md R119) -/

/-- A handler keeps the reference time, or restarts and leaves it at `now`. -/
theorem handler_lastFrameMs {c : CommandName} {payload : List Byte} {s t : State} (h : handler c payload s = .next t) :
    t.sup.lastFrameMs = s.sup.lastFrameMs ∨ t.sup.lastFrameMs = s.io.now := by
  cases c with
  | mvel => cases h; exact .inl rfl
  | mstop => cases h; exact .inl rfl
  | dimg =>
    rcases execDimg_next h with ⟨-, rfl⟩ | ⟨-, -, rfl⟩ | ⟨-, -, rfl⟩
    · exact .inl (congrArg _ (raiseError_sup _ s))
    · exact .inl (congrArg _ (raiseError_sup _ s))
    · exact .inl rfl
  | dclear =>
    rcases withDisplay_next h with ⟨-, rfl⟩ | rfl
    · exact .inl (congrArg _ (clearDisplay_sup s))
    · exact .inl (congrArg _ (raiseError_sup _ s))
  | dstatus =>
    rcases withDisplay_next h with ⟨-, rfl⟩ | rfl
    · exact .inl rfl
    · exact .inl (congrArg _ (raiseError_sup _ s))
  | sreset => cases h; exact .inr (by simp)
  | shalt => cases h; exact .inl rfl
  | sping => cases h; exact .inl rfl

theorem execDispatch_lastFrameMs {name payload : List Byte} {s t : State} (h : execDispatch name payload s = .next t) :
    t.sup.lastFrameMs = s.sup.lastFrameMs ∨ t.sup.lastFrameMs = s.io.now := by
  rcases execDispatch_next h with ⟨e, rfl⟩ | ⟨c, hc⟩
  · exact .inl (congrArg _ (raiseError_sup e s))
  · exact handler_lastFrameMs hc

/-- A hand-off stamps before the dispatcher runs, and no handler takes the stamp back (D28). -/
theorem handOff_lastFrameMs {s t : State} (h : handOff s = .next t) : t.sup.lastFrameMs = s.io.now := by
  rcases readThen_cases .pay 0 s.codec.expLen s
    (fun payload => execDispatch s.codec.cmdName payload { stampFrame s with codec.phase := .hdr })
    with ⟨-, hx⟩ | ⟨-, hx⟩
  · exact (execDispatch_lastFrameMs (hx.symm.trans h)).elim id id
  · cases hx.symm.trans h

theorem execRxByte_complete {s : State} (hp : s.codec.phase = .ck) (hc : s.codec.ckCnt = 4) (hm : s.codec.crcReg = s.codec.ckAcc) :
    execRxByte term s = handOff s := by
  rw [execRxByte_ck hp, rxChecksum, if_neg (by simp [hc]), if_pos ⟨rfl, hc⟩, if_pos ((crcMatch_iff _).2 hm)]

/-- A byte that does not hand off a frame keeps the supervisor's registers (41_frame_codec.md R82 item 3). -/
theorem execRxByte_sup {b : Byte} {s t : State} (h : execRxByte b s = .next t)
    (hno : ¬(s.codec.phase = .ck ∧ b = term ∧ s.codec.ckCnt = 4 ∧ s.codec.crcReg = s.codec.ckAcc)) : t.sup = s.sup := by
  rw [(frameErrorsAreLocal s t b h hno).1]

theorem execDispReceive_sup {chunk : List Byte} {s t : State} (h : execDispReceive chunk s = .next t) : t.sup = s.sup := by
  rcases execDispReceive_next h with rfl | ⟨-, -, rfl⟩ <;> rfl

/-- A stop performed on a condition, both ticks, keeps the supervisor's registers. -/
theorem conditionalStop_sup (c : Bool) (s : State) : (if c then stopMotors s else s).sup = s.sup := by cases c <;> rfl

theorem deviceOp_sup (s : State) : (deviceOp s).2.sup = s.sup := by
  rcases deviceOp_cases s with
    ⟨-, ho⟩ | ⟨-, -, ho⟩ | ⟨-, -, -, -, ho⟩ | ⟨_, _, -, -, -, -, ho⟩ | ⟨-, -, -, ho⟩ | ⟨-, -, -, ho⟩ <;> rw [ho]

theorem nextOp_sup (s : State) : (nextOp s).2.sup = s.sup := by
  rcases nextOp_cases s with ⟨_, -, ho⟩ | ⟨_, _, -, ho⟩ | ⟨_, _, -, ho⟩ | ⟨_, _, -, ho⟩ | ⟨_, _, -, ho⟩ | ⟨_, -, ho⟩ <;> rw [ho]
  exact deviceOp_sup _

/-- `RESET` is selected by the reset source only (70_reset_and_hazards.md R154). -/
theorem nextOp_reset {s u : State} (h : nextOp s = (some .reset, u)) : ∃ rest, s.env = .extReset :: rest := by
  rcases nextOp_cases s with ⟨rest, -, ho⟩ | ⟨_, _, -, ho⟩ | ⟨_, _, -, ho⟩ | ⟨_, _, -, ho⟩ | ⟨_, _, -, ho⟩ | ⟨rest, henv, ho⟩ <;>
    rw [ho] at h
  · rcases deviceOp_cases { s with env := rest } with
      ⟨-, hd⟩ | ⟨-, -, hd⟩ | ⟨-, -, -, -, hd⟩ | ⟨_, _, -, -, -, -, hd⟩ | ⟨-, -, -, hd⟩ | ⟨-, -, -, hd⟩ <;> cases hd.symm.trans h
  · cases h
  · cases h
  · cases h
  · cases h
  · exact ⟨rest, henv⟩

/-- At a hand-off the loop takes the `TERM` at the head of the queue. -/
theorem AtHandOff.selects_term {s : State} (h : AtHandOff s) : ∃ u, nextOp s = (some (.rxByte term), u) := by
  obtain ⟨henv, hmode, hidle, hdrain, hbyte, -, -, -⟩ := h
  obtain ⟨q, hq⟩ := List.head?_eq_some_iff.1 hbyte
  rcases henv with henv | ⟨rest, henv⟩ <;> simp [nextOp, henv, deviceOp, hmode, hidle, hdrain, hq]

theorem AtHandOff.stamps {s t : State} (hat : AtHandOff s) (h : step s = .next t) : t.sup.lastFrameMs = s.io.now := by
  obtain ⟨u, ho⟩ := hat.selects_term
  rw [step_some ho] at h
  obtain ⟨rest, q, -, -, -, -, -, rfl⟩ := nextOp_rxByte ho
  have hx := execRxByte_complete (s := { s with env := rest, io.rxQueue := q }) hat.phase hat.ckCnt hat.crc
  have hstamp := handOff_lastFrameMs (hx.symm.trans h)
  exact hstamp

/-- A step that writes the supervisor's registers is a hand-off or an external reset: no sequencer's or environment's move does, and
of the operations a step selects only a byte that hands off a frame and `RESET` do. -/
theorem handOff_or_extReset_of_sup_ne {s t : State} (h : step s = .next t) (hne : t.sup ≠ s.sup) :
    AtHandOff s ∨ ∃ rest, s.env = .extReset :: rest := by
  have hsup : (nextOp s).2.sup = s.sup := nextOp_sup s
  rcases ho : nextOp s with ⟨_ | i, u⟩ <;> rw [ho] at hsup <;> rw [← hsup] at hne
  · cases (step_none ho).symm.trans h
    exact absurd rfl hne
  · rw [step_some ho] at h
    cases nextOp_selected ho with
    | dispStep => exact absurd (serviceBlocked_dispStep h).sup hne
    | rxByte b =>
      obtain ⟨hp, rfl, hc, hm⟩ := not_not.1 (mt (execRxByte_sup h) hne)
      exact .inl (atHandOff_of_nextOp ho hp hc hm)
    | tickTimeout => cases h; exact absurd (conditionalStop_sup _ u) hne
    | tickWatchdog => cases h; exact absurd (conditionalStop_sup _ u) hne
    | dispReceive => exact absurd (execDispReceive_sup h) hne
    | reset => exact .inr (nextOp_reset ho)

/-- An external reset sets the reference time to `now` (D29). -/
theorem extReset_stamps {s t : State} {rest : List EnvStep} (henv : s.env = .extReset :: rest) (h : step s = .next t) :
    t.sup.lastFrameMs = s.io.now := by
  have ho : nextOp s = (some .reset, { s with env := rest }) := by simp [nextOp, henv]
  cases (step_some ho).symm.trans h
  rfl

/-- Settles O49: a step that writes the reference time is a hand-off or an external reset, and both leave it at `now`. -/
theorem onlyHandOffsAndResetsStampTheWatchdog : Obligations.OnlyHandOffsAndResetsStampTheWatchdog := by
  intro s t h
  refine ⟨fun hat => hat.stamps h, fun hne => ?_⟩
  have hsource := handOff_or_extReset_of_sup_ne h (mt (congrArg Supervisor.lastFrameMs) hne)
  exact ⟨hsource.elim (fun hat => hat.stamps h) fun ⟨_, henv⟩ => extReset_stamps henv h, hsource⟩

/-! ### The watchdog tick (45_system_commands.md R120) -/

/-- Settles O26. -/
theorem watchdogTickStopsASilentRun : Obligations.WatchdogTickStopsASilentRun := by
  refine ⟨fun s => ⟨fun hdue => ?_, fun hnot => ?_⟩, fun s henv hmode hidle hl => step_watchdogPhase henv hmode hidle hl⟩
  · have hx : execTickWatchdog s = .next (stopMotors s) := by rw [execTickWatchdog, if_pos (watchdogDue_iff.2 hdue)]
    exact ⟨_, hx, stopMotors_stopped s, rfl⟩
  · have hx : execTickWatchdog s = .next s := by rw [execTickWatchdog, if_neg (mt watchdogDue_iff.1 hnot)]
    exact hx

/-! ### Reset, restart and the supervisor's commands (45_system_commands.md R114 to R118) -/

/-- The `boot_diag` event of a reset as a number of events added (70_reset_and_hazards.md R155). -/
theorem bootDiag_eq_add (present : Bool) (n : Nat) :
    (if present = true then n else n + 1) = n + (if present = true then 0 else 1) := by cases present <;> rfl

/-- A restart leaves what a reset leaves; its event is the only thing it does besides. -/
theorem restartState_resetValues (s : State) : ResetValues s.cfg s.io.now (restartState s) :=
  resetState_resetValues { s with io.restartReq := s.io.restartReq + 1 }

/-- Settles O36. -/
theorem resetLeavesTheResetValues : Obligations.ResetLeavesTheResetValues := by
  refine fun s => ⟨⟨_, rfl, resetState_resetValues s, ?_, rfl, rfl⟩, ⟨_, rfl, restartState_resetValues s, ?_, rfl, rfl⟩⟩
  · rw [resetState_io, bootDiag_eq_add]
  · rw [restartState_io, bootDiag_eq_add]

/-- Settles O35: stop, clear and response move neither the clock nor the parameters, so the restart's values are those of `s`. -/
theorem sresetRestartsAfterItsResponse : Obligations.SresetRestartsAfterItsResponse := by
  intro s
  refine ⟨_, rfl, ?_, ?_, by simp, by simp⟩
  · have hreset := restartState_resetValues (respond .ok msgEmpty (clearDisplay (stopMotors s)))
    simpa using hreset
  · rw [restartState_io, bootDiag_eq_add, respond_io, respond_cfg, clearDisplay_io, clearDisplay_cfg, stopMotors_io, stopMotors_cfg]
    rfl

/-- Settles O37: the buffer is not cleared, so besides the stop, the response and the sleep nothing moves. -/
theorem shaltStopsAndSleeps : Obligations.ShaltStopsAndSleeps := fun s => ⟨_, rfl, stopMotors_stopped s, rfl⟩

/-- Settles O38: the bytes are M11's whole response. -/
theorem spingOnlyAnswers : Obligations.SpingOnlyAnswers := fun _ => rfl

end Sys2Proof.Machine

/-! SUPPORT. The polling loop's step: the device agent's choice row by row and the environment's moves (O40, O41). -/

namespace Sys2Proof.Machine

/-! ### The device agent's choice, one equation a row (46_polling_loop.md R123 to R126) -/

theorem deviceOp_halted {s : State} (hmode : s.sup.mode = .halted) : deviceOp s = (none, s) := if_pos hmode

section
variable {s : State} (hmode : s.sup.mode = .run) (hidle : s.disp.seq = .idle)
include hmode hidle

theorem deviceOp_drain_nil (hloop : s.loopPhase = .drain) (hqueue : s.io.rxQueue = []) :
    deviceOp s = (none, { s with loopPhase := .timeout }) := by simp [deviceOp, hmode, hidle, hloop, hqueue]

theorem deviceOp_drain_cons {b : Byte} {bs : List Byte} (hloop : s.loopPhase = .drain) (hqueue : s.io.rxQueue = b :: bs) :
    deviceOp s = (some (.rxByte b), { s with io.rxQueue := bs }) := by simp [deviceOp, hmode, hidle, hloop, hqueue]

theorem deviceOp_timeout (hloop : s.loopPhase = .timeout) :
    deviceOp s = (some .tickTimeout, { s with loopPhase := .watchdog }) := by simp [deviceOp, hmode, hidle, hloop]

theorem deviceOp_watchdog (hloop : s.loopPhase = .watchdog) :
    deviceOp s = (some .tickWatchdog, { s with loopPhase := .drain }) := by simp [deviceOp, hmode, hidle, hloop]

end

/-! ### Whose turn it is (46_polling_loop.md R128) -/

/-- The device agent moves when the script is empty or schedules it. -/
theorem nextOp_deviceTurn {s : State} {rest : List EnvStep} (hturn : (s.env = [] ∧ rest = []) ∨ s.env = .device :: rest) :
    nextOp s = deviceOp { s with env := rest } := by
  rcases hturn with ⟨henv, rfl⟩ | henv
  · have hsame : ({ s with env := [] } : State) = s := by rw [← henv]
    rw [hsame, nextOp_quiet henv]
  · simp [nextOp, henv]

/-- Settles O40: the turn is the device's, and each row of its choice is either the sequencer's own move or an operation. -/
theorem deviceStepRunsTheSelectedOperation : Obligations.DeviceStepRunsTheSelectedOperation := by
  intro s rest hturn
  have hdev := nextOp_deviceTurn hturn
  refine ⟨fun hmode => ?halted, fun hmode hne => ?refresh, fun hmode hidle hloop hqueue => ?drained,
    fun b bs hmode hidle hloop hqueue => ?byte, fun hmode hidle hloop => ?timeout, fun hmode hidle hloop => ?watchdog⟩
  case halted => exact step_none (hdev.trans (deviceOp_halted hmode))
  case refresh => exact step_some (hdev.trans (deviceOp_refreshing hmode hne))
  case drained => exact step_none (hdev.trans (deviceOp_drain_nil hmode hidle hloop hqueue))
  case byte => exact step_some (hdev.trans (deviceOp_drain_cons (s := { s with env := rest }) hmode hidle hloop hqueue))
  case timeout => exact step_some (hdev.trans (deviceOp_timeout hmode hidle hloop))
  case watchdog => exact step_some (hdev.trans (deviceOp_watchdog hmode hidle hloop))

/-- Settles O41: the host, the clock and the panel move inputs and no operation runs; the portal's chunk and the external reset
select their operation. -/
theorem environmentMovesOnlyItsInputs : Obligations.EnvironmentMovesOnlyItsInputs := by
  intro s rest
  refine ⟨fun bs henv => ?host, fun ms henv => ?clock, fun b henv => ?panel, fun c henv => ?chunk, fun henv => ?extReset⟩
  case host => exact step_none (by simp [nextOp, henv])
  case clock => exact step_none (by simp [nextOp, henv])
  case panel => exact step_none (by simp [nextOp, henv])
  case chunk => exact step_some (by simp [nextOp, henv])
  case extReset => exact step_some (by simp [nextOp, henv])

end Sys2Proof.Machine

/-! SUPPORT. The external reset as a step of the machine (O51). -/

namespace Sys2Proof.Machine

/-- Settles O51: the scheduled reset is performed before any register is looked at (O41), and what `RESET` leaves does not depend on
the state it finds (O36). -/
theorem externalResetActsInEveryState : Obligations.ExternalResetActsInEveryState := by
  intro s rest henv
  obtain ⟨-, -, -, -, hstep⟩ := environmentMovesOnlyItsInputs s rest
  obtain ⟨⟨t, hreset, hvalues, hio, -, hrest⟩, -⟩ := resetLeavesTheResetValues { s with env := rest }
  exact ⟨t, (hstep henv).trans hreset, hvalues, hrest, by rw [hio], by rw [hio]⟩

end Sys2Proof.Machine
